-- ==== Sys2Proof/Word.lean ====
section
/-! DEFINITION. The 16-bit word and the byte of the block (00_scope.md R7, R8), and nothing else: every helper that a rule
could show wrong (bit fields, byte order, sign extension) stands in Decode.lean or under Machine/. -/

namespace Sys2Proof

/-- A register, an address, an instruction word or an extension word: 16 bits, bit 0 the least significant (R7, R8). -/
abbrev Word := BitVec 16

/-- One byte of the memory image (R7, R30). -/
abbrev Byte := BitVec 8

end Sys2Proof
end

