-- ==== Sys2Proof/Syntax.lean ====
section
/-! DEFINITION. The instructions as syntax: registers (R13, R20, R21), widths (R118), operand forms (30_encoding.md R67,
R68) and one constructor of `Instr` per row of spec/opcode_table.json (R66). -/

namespace Sys2Proof

/-- "One of 16 fixed identities ↔ 4-bit code; no payload" (R20). R0 is PC, R1 SP, R2 SR, R3 CG (R13, R21). -/
inductive Reg where
  | pc | sp | sr | cg | r4 | r5 | r6 | r7 | r8 | r9 | r10 | r11 | r12 | r13 | r14 | r15
  deriving DecidableEq, Repr

/-- Operation width: B/W = 0 is a word (16 bits), B/W = 1 a byte (8 bits) (R10, R118). -/
inductive Width where
  | word | byte
  deriving DecidableEq, Repr

/-- The five values the constant generator makes (R110). The sixth, 0, is register mode on R3 (R105). -/
inductive CgConst where
  | one | two | four | eight | minusOne
  deriving DecidableEq, Repr

/-- A source operand, or the operand of a single-operand instruction, one constructor per form of table R67. -/
inductive SrcOp where
  /-- As = 00: `Rn`, every register (R104 to R106). -/
  | reg (r : Reg)
  /-- As = 01 on R1, R4 to R15: `x(Rn)` (R109). -/
  | indexed (r : Reg) (x : Word)
  /-- As = 01 on R0: `x(PC)`; decodes, and faults when it is resolved (R108, decision D6). -/
  | symbolic (x : Word)
  /-- As = 01 on R2: `&a` (R109). -/
  | absolute (a : Word)
  /-- The constant-generator pairs (R110). -/
  | const (k : CgConst)
  /-- As = 10 on R1, R4 to R15: `@Rn` (R111). -/
  | indirect (r : Reg)
  /-- As = 10 on R0: `@PC`; decodes, and faults when it is resolved (R108, decision D6). -/
  | indirectPc
  /-- As = 11 on R1, R4 to R15: `@Rn+` (R112). -/
  | indirectInc (r : Reg)
  /-- As = 11 on R0: `#v` (R107). -/
  | immediate (v : Word)
  deriving DecidableEq, Repr

/-- The destination of a double-operand instruction, one constructor per form of table R68. -/
inductive DstOp where
  /-- Ad = 0: `Rn`, every register (R114). -/
  | reg (r : Reg)
  /-- Ad = 1 on R1, R3 to R15: `x(Rn)` (R115). -/
  | indexed (r : Reg) (x : Word)
  /-- Ad = 1 on R0: `x(PC)`; decodes, and faults when it is resolved (R115, decision D6). -/
  | symbolic (x : Word)
  /-- Ad = 1 on R2: `&a` (R115). -/
  | absolute (a : Word)
  deriving DecidableEq, Repr

/-- The 27 instructions of spec/opcode_table.json, in the table's order (R66). -/
inductive Instr where
  | mov  (w : Width) (src : SrcOp) (dst : DstOp)
  | add  (w : Width) (src : SrcOp) (dst : DstOp)
  | addc (w : Width) (src : SrcOp) (dst : DstOp)
  | subc (w : Width) (src : SrcOp) (dst : DstOp)
  | sub  (w : Width) (src : SrcOp) (dst : DstOp)
  | cmp  (w : Width) (src : SrcOp) (dst : DstOp)
  /-- DADD: bits 11:0 are its operand fields, "never evaluated" (R192; log 5). -/
  | dadd (fields : BitVec 12)
  | bit  (w : Width) (src : SrcOp) (dst : DstOp)
  | bic  (w : Width) (src : SrcOp) (dst : DstOp)
  | bis  (w : Width) (src : SrcOp) (dst : DstOp)
  | xor  (w : Width) (src : SrcOp) (dst : DstOp)
  | and  (w : Width) (src : SrcOp) (dst : DstOp)
  | rrc  (w : Width) (op : SrcOp)
  | swpb (op : SrcOp)
  | rra  (w : Width) (op : SrcOp)
  | sxt  (op : SrcOp)
  | push (w : Width) (op : SrcOp)
  | call (op : SrcOp)
  /-- RETI: the low 7 bits are ignored (R149; log 5). -/
  | reti (low : BitVec 7)
  | jne  (offset : BitVec 10)
  | jeq  (offset : BitVec 10)
  | jnc  (offset : BitVec 10)
  | jc   (offset : BitVec 10)
  | jn   (offset : BitVec 10)
  | jge  (offset : BitVec 10)
  | jl   (offset : BitVec 10)
  | jmp  (offset : BitVec 10)
  deriving DecidableEq, Repr

end Sys2Proof
end

