-- ==== Sys2Proof/Decode.lean ====
section
/-! DEFINITION. Decoding (30_encoding.md R60 to R74, 40_pipeline.md R102), then the encoder, written from the same tables.
The decoder is total: every three words give an instruction or a rejection by name. -/

namespace Sys2Proof

/-! ## Register codes, widths, constants -/

/-- Register identity to its 4-bit code (R20, R21). -/
def Reg.code : Reg → BitVec 4
  | .pc => 0 | .sp => 1 | .sr => 2 | .cg => 3 | .r4 => 4 | .r5 => 5 | .r6 => 6 | .r7 => 7
  | .r8 => 8 | .r9 => 9 | .r10 => 10 | .r11 => 11 | .r12 => 12 | .r13 => 13 | .r14 => 14 | .r15 => 15

/-- 4-bit code to register identity (R20, R21). -/
def Reg.ofCode (c : BitVec 4) : Reg :=
  match c.toNat with
  | 0 => .pc | 1 => .sp | 2 => .sr | 3 => .cg | 4 => .r4 | 5 => .r5 | 6 => .r6 | 7 => .r7
  | 8 => .r8 | 9 => .r9 | 10 => .r10 | 11 => .r11 | 12 => .r12 | 13 => .r13 | 14 => .r14 | _ => .r15

/-- The B/W bit (R63, R64). -/
def Width.code : Width → BitVec 1
  | .word => 0
  | .byte => 1

/-- The B/W bit read back (R102). -/
def Width.ofCode (b : BitVec 1) : Width := if b = 1 then .byte else .word

/-- The value k of table R110. -/
def CgConst.value : CgConst → Word
  | .one => 0x0001
  | .two => 0x0002
  | .four => 0x0004
  | .eight => 0x0008
  | .minusOne => 0xFFFF

/-! ## Operand fields -/

/-- Table R67: the source form of (As, register), with the extension word it would take. -/
def decodeSrc (as : BitVec 2) (r : Reg) (ext : Word) : SrcOp :=
  match as.toNat with
  | 0 => .reg r
  | 1 =>
    match r with
    | .pc => .symbolic ext
    | .sr => .absolute ext
    | .cg => .const .one
    | r => .indexed r ext
  | 2 =>
    match r with
    | .pc => .indirectPc
    | .sr => .const .four
    | .cg => .const .two
    | r => .indirect r
  | _ =>
    match r with
    | .pc => .immediate ext
    | .sr => .const .eight
    | .cg => .const .minusOne
    | r => .indirectInc r

/-- Table R68: the destination form of (Ad, register), with the extension word it would take. -/
def decodeDst (ad : BitVec 1) (r : Reg) (ext : Word) : DstOp :=
  if ad = 0 then .reg r
  else
    match r with
    | .pc => .symbolic ext
    | .sr => .absolute ext
    | r => .indexed r ext

/-- The extension word a source form takes, if any (`n_src` of R70). -/
def SrcOp.ext : SrcOp → Option Word
  | .indexed _ x => some x
  | .symbolic x => some x
  | .absolute a => some a
  | .immediate v => some v
  | .reg _ | .const _ | .indirect _ | .indirectPc | .indirectInc _ => none

/-- The extension word a destination form takes, if any (`n_dst` of R70). -/
def DstOp.ext : DstOp → Option Word
  | .indexed _ x => some x
  | .symbolic x => some x
  | .absolute a => some a
  | .reg _ => none

/-! ## The decoder -/

/-- Why three words are no instruction: the reasons of table R72 that are ILLEGAL_ENCODING. -/
inductive DecodeError where
  /-- w0[15:13] = 000 and w0[15:10] ≠ 000100 (R62). -/
  | notSingleOperandTag
  /-- Single-operand opcode 7 (R72). -/
  | singleOpcodeSeven
  /-- SWPB, SXT or CALL with B/W = 1 (R72, decision D7). -/
  | noByteForm
  /-- `decodeBytes` only: fewer bytes than the instruction is long (log 18). -/
  | truncated
  deriving DecidableEq, Repr

/-- Single-operand family, `w0[15:13] = 000` (R62, R64, R66, R102), in the order of R208 item 3. -/
def decodeSingle (w0 w1 : Word) : Except DecodeError Instr :=
  let w := Width.ofCode (w0.extractLsb' 6 1)
  let op := decodeSrc (w0.extractLsb' 4 2) (Reg.ofCode (w0.extractLsb' 0 4)) w1
  if w0.extractLsb' 10 6 ≠ 0b000100 then .error .notSingleOperandTag
  else
    match (w0.extractLsb' 7 3).toNat with
    | 0 => .ok (.rrc w op)
    | 1 => if w = .byte then .error .noByteForm else .ok (.swpb op)
    | 2 => .ok (.rra w op)
    | 3 => if w = .byte then .error .noByteForm else .ok (.sxt op)
    | 4 => .ok (.push w op)
    | 5 => if w = .byte then .error .noByteForm else .ok (.call op)
    | 6 => .ok (.reti (w0.extractLsb' 0 7))
    | _ => .error .singleOpcodeSeven

/-- Jump family, `w0[15:13] = 001` (R65, R66, R161): every word is legal (R72). -/
def decodeJump (w0 : Word) : Instr :=
  let offset := w0.extractLsb' 0 10
  match (w0.extractLsb' 10 3).toNat with
  | 0 => .jne offset
  | 1 => .jeq offset
  | 2 => .jnc offset
  | 3 => .jc offset
  | 4 => .jn offset
  | 5 => .jge offset
  | 6 => .jl offset
  | _ => .jmp offset

/-- Double-operand family, opcode 0x4 to 0xF (R63, R66). The destination takes the extension word "the source stage did
not already use" (R69). -/
def decodeDouble (w0 w1 w2 : Word) : Instr :=
  let w := Width.ofCode (w0.extractLsb' 6 1)
  let src := decodeSrc (w0.extractLsb' 4 2) (Reg.ofCode (w0.extractLsb' 8 4)) w1
  let dst := decodeDst (w0.extractLsb' 7 1) (Reg.ofCode (w0.extractLsb' 0 4)) (if src.ext.isSome then w2 else w1)
  match (w0.extractLsb' 12 4).toNat with
  | 0x4 => .mov w src dst
  | 0x5 => .add w src dst
  | 0x6 => .addc w src dst
  | 0x7 => .subc w src dst
  | 0x8 => .sub w src dst
  | 0x9 => .cmp w src dst
  | 0xA => .dadd (w0.extractLsb' 0 12)
  | 0xB => .bit w src dst
  | 0xC => .bic w src dst
  | 0xD => .bis w src dst
  | 0xE => .xor w src dst
  | _ => .and w src dst

/-- The three families (R12, R61). RETI, which has no operand, is "a member of the single-operand family's encoding space". -/
inductive Family where
  | singleOrNoOperand | jump | doubleOperand
  deriving DecidableEq, Repr

/-- "All-zero top-3 bits ⇒ single/no-operand; zero top-2-but-nonzero-top-3 ⇒ jump; otherwise double-operand" (R61). -/
def familyOf (w0 : Word) : Family :=
  if w0.extractLsb' 13 3 = 0 then .singleOrNoOperand
  else if w0.extractLsb' 14 2 = 0 then .jump
  else .doubleOperand

/-- Stage 1 on the three words of stage 0: the family by R61, then the family's fields. RETI and DADD decode to their
constructors, whose meanings raise UNSUPPORTED_OPCODE (R102, R149, R192; log 5). -/
def decode (w0 w1 w2 : Word) : Except DecodeError Instr :=
  match familyOf w0 with
  | .singleOrNoOperand => decodeSingle w0 w1
  | .jump => .ok (decodeJump w0)
  | .doubleOperand => .ok (decodeDouble w0 w1 w2)

/-! ## The encoder -/

/-- (As, register) of a source form, table R67 read from right to left (R81, R82). -/
def SrcOp.fields : SrcOp → BitVec 2 × Reg
  | .reg r => (0, r)
  | .indexed r _ => (1, r)
  | .symbolic _ => (1, .pc)
  | .absolute _ => (1, .sr)
  | .const .one => (1, .cg)
  | .const .two => (2, .cg)
  | .const .four => (2, .sr)
  | .const .eight => (3, .sr)
  | .const .minusOne => (3, .cg)
  | .indirect r => (2, r)
  | .indirectPc => (2, .pc)
  | .indirectInc r => (3, r)
  | .immediate _ => (3, .pc)

/-- (Ad, register) of a destination form, table R68 read from right to left (R81). -/
def DstOp.fields : DstOp → BitVec 1 × Reg
  | .reg r => (0, r)
  | .indexed r _ => (1, r)
  | .symbolic _ => (1, .pc)
  | .absolute _ => (1, .sr)

/-- `opcode<<12 | sreg<<8 | Ad<<7 | BW<<6 | As<<4 | dreg` (R63). -/
def doubleWord (opcode : BitVec 4) (sreg : BitVec 4) (ad : BitVec 1) (bw : BitVec 1) (as : BitVec 2) (dreg : BitVec 4) : Word :=
  opcode ++ sreg ++ ad ++ bw ++ as ++ dreg

/-- `0x1000 | opcode<<7 | BW<<6 | As<<4 | reg` (R64). -/
def singleWord (opcode : BitVec 3) (bw : BitVec 1) (as : BitVec 2) (reg : BitVec 4) : Word :=
  0b000100#6 ++ opcode ++ bw ++ as ++ reg

/-- `0x2000 | cond<<10 | offset[9:0]` (R65). -/
def jumpWord (cond : BitVec 3) (offset : BitVec 10) : Word :=
  0b001#3 ++ cond ++ offset

/-- The instruction word of a double-operand instruction (R63). -/
def doubleFirst (opcode : BitVec 4) (w : Width) (src : SrcOp) (dst : DstOp) : Word :=
  doubleWord opcode src.fields.2.code dst.fields.1 w.code src.fields.1 dst.fields.2.code

/-- The instruction word of a single-operand instruction (R64). -/
def singleFirst (opcode : BitVec 3) (w : Width) (op : SrcOp) : Word :=
  singleWord opcode w.code op.fields.1 op.fields.2.code

/-- The instruction word w0 (R60, R66). -/
def Instr.firstWord : Instr → Word
  | .mov w src dst => doubleFirst 0x4 w src dst
  | .add w src dst => doubleFirst 0x5 w src dst
  | .addc w src dst => doubleFirst 0x6 w src dst
  | .subc w src dst => doubleFirst 0x7 w src dst
  | .sub w src dst => doubleFirst 0x8 w src dst
  | .cmp w src dst => doubleFirst 0x9 w src dst
  | .dadd fields => 0xA#4 ++ fields
  | .bit w src dst => doubleFirst 0xB w src dst
  | .bic w src dst => doubleFirst 0xC w src dst
  | .bis w src dst => doubleFirst 0xD w src dst
  | .xor w src dst => doubleFirst 0xE w src dst
  | .and w src dst => doubleFirst 0xF w src dst
  | .rrc w op => singleFirst 0 w op
  | .swpb op => singleFirst 1 .word op
  | .rra w op => singleFirst 2 w op
  | .sxt op => singleFirst 3 .word op
  | .push w op => singleFirst 4 w op
  | .call op => singleFirst 5 .word op
  | .reti low => 0b000100110#9 ++ low
  | .jne offset => jumpWord 0 offset
  | .jeq offset => jumpWord 1 offset
  | .jnc offset => jumpWord 2 offset
  | .jc offset => jumpWord 3 offset
  | .jn offset => jumpWord 4 offset
  | .jge offset => jumpWord 5 offset
  | .jl offset => jumpWord 6 offset
  | .jmp offset => jumpWord 7 offset

/-- The extension words, "source-then-destination" (R60, R69, R87, R88). -/
def Instr.extWords : Instr → List Word
  | .mov _ src dst | .add _ src dst | .addc _ src dst | .subc _ src dst | .sub _ src dst | .cmp _ src dst
  | .bit _ src dst | .bic _ src dst | .bis _ src dst | .xor _ src dst | .and _ src dst => src.ext.toList ++ dst.ext.toList
  | .rrc _ op | .swpb op | .rra _ op | .sxt op | .push _ op | .call op => op.ext.toList
  | .dadd _ | .reti _ => []
  | .jne _ | .jeq _ | .jnc _ | .jc _ | .jn _ | .jge _ | .jl _ | .jmp _ => []

/-- The words of an instruction, w0 first (R60). -/
def encode (i : Instr) : List Word := i.firstWord :: i.extWords

/-- Length in bytes: 2, 4 or 6 (R60, R70). -/
def Instr.byteLength (i : Instr) : Nat := 2 * (encode i).length

/-! ## Bytes -/

/-- `{hi, lo}`: the word whose low byte is `lo` (R41). -/
def wordOfBytes (lo hi : Byte) : Word := hi ++ lo

/-- v[7:0]. -/
def lowByte (v : Word) : Byte := v.extractLsb' 0 8

/-- v[15:8]. -/
def highByte (v : Word) : Byte := v.extractLsb' 8 8

/-- A word as the image stores it, "its low byte at the lower offset" (R41). -/
def wordBytes (v : Word) : List Byte := [lowByte v, highByte v]

/-- The bytes of an instruction in memory order (R41, R60). -/
def encodeBytes (i : Instr) : List Byte := (encode i).flatMap wordBytes

/-- The word at byte offset `k` of a byte string, absent bytes as 0. -/
def wordAt (bs : List Byte) (k : Nat) : Word := wordOfBytes (bs.getD k 0) (bs.getD (k + 1) 0)

/-- Decoding a byte string: the instruction and the bytes after it. Total; too few bytes are rejected by name (log 18). The
machine itself always has the three words of stage 0 (R101). -/
def decodeBytes (bs : List Byte) : Except DecodeError (Instr × List Byte) :=
  match decode (wordAt bs 0) (wordAt bs 2) (wordAt bs 4) with
  | .error e => .error e
  | .ok i => if bs.length < i.byteLength then .error .truncated else .ok (i, bs.drop i.byteLength)

/-- The six bytes (the longest instruction, R60) of a table word `w` of `nbits` bits: bit 0 of `w` is the least significant
bit of the first word, later words count on, and each word is stored little-endian, so byte k is bits 8k+7..8k. Every bit
above `nbits` is 0. -/
def tableBytes (nbits w : Nat) : List Byte :=
  let v := w % 2 ^ nbits
  [BitVec.ofNat 8 v, BitVec.ofNat 8 (v / 2 ^ 8), BitVec.ofNat 8 (v / 2 ^ 16),
    BitVec.ofNat 8 (v / 2 ^ 24), BitVec.ofNat 8 (v / 2 ^ 32), BitVec.ofNat 8 (v / 2 ^ 40)]

/-- The instruction the decoder reads from an instruction whose bits are `w` as spec/opcode_table.json numbers them. -/
def decodeTableWord (nbits w : Nat) : Option Instr :=
  match decodeBytes (tableBytes nbits w) with
  | .ok (i, _) => some i
  | .error _ => none

end Sys2Proof
end

