-- ==== Sys2Proof/Config.lean ====
section
/-! DEFINITION. The fixed parameters of the block (00_scope.md R7), the address map (20_memory.md R47, 60_exceptions.md
R218), and the one open parameter, BOOT_SP, which is the toolchain's (decision D22). The spec leaves no value of the block
itself open, so there is no opaque constant here. -/

namespace Sys2Proof

namespace Config

/-- Memory size in bytes: "one flat image" of the whole address space (R7, R30). -/
def memorySize : Nat := 65536

/-- Graphics framebuffer, 0x8000 to 0x895F (R47, R218). -/
def framebufferBase : Word := 0x8000
/-- 2400 bytes (R218). -/
def framebufferSize : Nat := 2400
/-- 16-bit switch-input word, 0x8A00 to 0x8A01 (R47). -/
def switchAddr : Word := 0x8A00
/-- 8-bit button-input byte, 0x8A02 (R47). -/
def buttonAddr : Word := 0x8A02
/-- 16-bit LED-output word, 0x8A04 to 0x8A05 (R47). -/
def ledAddr : Word := 0x8A04

end Config

/-- The toolchain's open parameter (decision D22): the value the bootstrap loads into SP. An argument of the encoder, so
nothing is assumed about it. -/
structure Toolchain.Params where
  bootSp : Word
  deriving DecidableEq, Repr

end Sys2Proof
end

