-- ==== Sys2Proof/Machine/State.lean ====
section
/-! DEFINITION. The architectural state, "exactly (x[0..15], mem[0..65535], fault latch)" (10_state.md R33), as plain data;
why the machine can be stopped; and the state after reset (R37). -/

namespace Sys2Proof.Machine

/-- The nine kinds of fault of table R205, in the order of their codes. -/
inductive FaultKind where
  /-- 1: PC is odd at fetch (stage 0). -/
  | misalignedFetch
  /-- 2: a word that is no instruction, table R72 (stage 1). -/
  | illegalEncoding
  /-- 3: RETI or DADD (stage 1). -/
  | unsupportedOpcode
  /-- 4: symbolic, `@PC`, or destination `x(PC)` (stage 2 or 3). -/
  | unsupportedAddressing
  /-- 5: a word data access at an odd address (stage 2, 3 or 5). -/
  | misalignedAccess
  /-- 6: RRC, SWPB, RRA or SXT of a value that has no location (stage 4). -/
  | noOperandLocation
  /-- 7: PUSH SP, PUSH @SP+, PUSH.B Rn, CALL @SP+ (stage 4). -/
  | unsettledStackForm
  /-- 8: a taken jump or CALL whose new-PC value is 0 (stage 4). -/
  | zeroTransferTarget
  /-- 9: a nonzero result written to R3 (stage 5). -/
  | constantRegisterWrite
  deriving DecidableEq, Repr

/-- The record `(kind, pc, w0)` a fault leaves: its kind, the address of the faulting instruction and its first word, or 0
where no word was fetched (R200, R207). -/
structure FaultRecord where
  kind : FaultKind
  pc : Word
  w0 : Word
  deriving DecidableEq, Repr

/-- The register file: sixteen 16-bit registers under their names (R20, R21). -/
structure RegFile where
  pc : Word
  sp : Word
  sr : Word
  cg : Word
  r4 : Word
  r5 : Word
  r6 : Word
  r7 : Word
  r8 : Word
  r9 : Word
  r10 : Word
  r11 : Word
  r12 : Word
  r13 : Word
  r14 : Word
  r15 : Word
  deriving DecidableEq, Repr

/-- The memory image (R30) as a list of (address, byte) in one canonical form (`Memory.wf` in Ops.lean): addresses strictly
rising and below 65536, no entry equal to what an unlisted address reads as. -/
abbrev Memory := List Host.Cell

/-- The architectural state (R33). -/
structure State where
  /-- x[0] to x[15] (R20). -/
  regs : RegFile
  /-- mem[0] to mem[65535] (R30). -/
  mem : Memory
  /-- `none`, or the record of the first fault (R31). -/
  faultLatch : Option FaultRecord
  deriving DecidableEq, Repr

/-- Why a step ends without a next state. A fault of the spec is NOT one of these: taking it is a next state whose latch is
set (R200; log 1). -/
inductive Fault where
  /-- Raised by `step` alone, in a state whose latch already holds `record`: "refuse further progress until reconstructed"
  (R204), so the state does not change. Safe: the machine stops exactly where the spec stops it (log 2). -/
  | stopped (record : FaultRecord)
  deriving DecidableEq, Repr

/-- What the model gives no meaning to. -/
inductive Refusal where
  /-- An arm of `exec` that has no meaning yet. No arm raises it: all 27 instructions have theirs. Safe. -/
  | notModelled (mnemonic : String)
  deriving DecidableEq, Repr

/-- All sixteen registers at the all-zero bit pattern (R37, R225). -/
def RegFile.zero : RegFile where
  pc := 0
  sp := 0
  sr := 0
  cg := 0
  r4 := 0
  r5 := 0
  r6 := 0
  r7 := 0
  r8 := 0
  r9 := 0
  r10 := 0
  r11 := 0
  r12 := 0
  r13 := 0
  r14 := 0
  r15 := 0

/-- The machine right after construction (R37, R225): every register 0, memory zero-filled, the latch clear. The image is a
parameter of construction (`construct` in HostInterface.lean); here it is the empty one (log 3, log 4). -/
def State.reset : State where
  regs := RegFile.zero
  mem := []
  faultLatch := none

end Sys2Proof.Machine
end

