-- ==== Sys2Proof/Machine/Ops.lean ====
section
/-! DEFINITION. The named operations over widths, registers and memory (00_scope.md R10, 20_memory.md R42, 40_pipeline.md
R122), stage 0 (R101), and taking a fault (60_exceptions.md R200). There is no return from a fault beside it: the machine
has none (R202, R204, R212). -/

namespace Sys2Proof

/-- w: 16 for a word operation, 8 for a byte operation (R10). -/
def Width.bits : Width → Nat
  | .word => 16
  | .byte => 8

/-- w/8: the bytes of a memory access (R10). -/
def Width.bytes : Width → Nat
  | .word => 2
  | .byte => 1

/-- M = 2^w (R177). -/
def Width.modulus (w : Width) : Nat := 2 ^ w.bits

/-- `trunc_w(v)`, as a word whose bits above w are 0 (R9). -/
def Width.trunc (w : Width) (v : Word) : Word :=
  match w with
  | .word => v
  | .byte => (v.setWidth 8).setWidth 16

/-- `msb_w(v) = v[w−1]` (R10, R118). -/
def Width.msb (w : Width) (v : Word) : Bool :=
  match w with
  | .word => v.getLsbD 15
  | .byte => v.getLsbD 7

/-- `signed_w(v)`: the two's-complement value of the low w bits (R9). -/
def Width.signed (w : Width) (v : Word) : Int :=
  match w with
  | .word => v.toInt
  | .byte => (v.setWidth 8).toInt

end Sys2Proof

namespace Sys2Proof.Machine

/-- The code of a fault kind (R205, decision D31). -/
def FaultKind.code : FaultKind → Nat
  | .misalignedFetch => 1
  | .illegalEncoding => 2
  | .unsupportedOpcode => 3
  | .unsupportedAddressing => 4
  | .misalignedAccess => 5
  | .noOperandLocation => 6
  | .unsettledStackForm => 7
  | .zeroTransferTarget => 8
  | .constantRegisterWrite => 9

/-! ## Registers -/

/-- `x[r]` (R10). -/
def RegFile.read (f : RegFile) : Reg → Word
  | .pc => f.pc
  | .sp => f.sp
  | .sr => f.sr
  | .cg => f.cg
  | .r4 => f.r4
  | .r5 => f.r5
  | .r6 => f.r6
  | .r7 => f.r7
  | .r8 => f.r8
  | .r9 => f.r9
  | .r10 => f.r10
  | .r11 => f.r11
  | .r12 => f.r12
  | .r13 => f.r13
  | .r14 => f.r14
  | .r15 => f.r15

/-- `x[r] <- v`, all 16 bits (R10). -/
def RegFile.write (f : RegFile) (r : Reg) (v : Word) : RegFile :=
  match r with
  | .pc => { f with pc := v }
  | .sp => { f with sp := v }
  | .sr => { f with sr := v }
  | .cg => { f with cg := v }
  | .r4 => { f with r4 := v }
  | .r5 => { f with r5 := v }
  | .r6 => { f with r6 := v }
  | .r7 => { f with r7 := v }
  | .r8 => { f with r8 := v }
  | .r9 => { f with r9 := v }
  | .r10 => { f with r10 := v }
  | .r11 => { f with r11 := v }
  | .r12 => { f with r12 := v }
  | .r13 => { f with r13 := v }
  | .r14 => { f with r14 := v }
  | .r15 => { f with r15 := v }

/-- `x[r]` in a state (R10). -/
def State.reg (s : State) (r : Reg) : Word := s.regs.read r

/-- `x[r] <- v` in a state (R10). -/
def State.setReg (s : State) (r : Reg) (v : Word) : State := { s with regs := s.regs.write r v }

/-! ## Memory -/

/-- What an address that the list does not hold reads as: "every other byte: plain memory, zero unless the image sets it"
(R47, R37). -/
def Memory.unlisted : Byte := 0

/-- The byte at an address. -/
def Memory.read : Memory → Nat → Byte
  | [], _ => Memory.unlisted
  | (k, v) :: rest, a => if a = k then v else Memory.read rest a

/-- Store a byte, keeping the canonical form: addresses rising, no entry equal to `Memory.unlisted`. -/
def Memory.write : Memory → Nat → Byte → Memory
  | [], a, b => if b = Memory.unlisted then [] else [(a, b)]
  | (k, v) :: rest, a, b =>
    if a < k then (if b = Memory.unlisted then (k, v) :: rest else (a, b) :: (k, v) :: rest)
    else if a = k then (if b = Memory.unlisted then rest else (a, b) :: rest)
    else (k, v) :: Memory.write rest a b

/-- The canonical form above address `lo`: each entry at or above `lo`, strictly rising, inside the 65536-byte image (R30),
none equal to `Memory.unlisted`. -/
def Memory.wfFrom : Nat → Memory → Bool
  | _, [] => true
  | lo, (k, v) :: rest =>
    decide (lo ≤ k) && decide (k < Config.memorySize) && decide (v ≠ Memory.unlisted) && Memory.wfFrom (k + 1) rest

/-- The canonical form of a memory. -/
def Memory.wf (m : Memory) : Bool := Memory.wfFrom 0 m

/-- `mem[a]` (R42). -/
def State.byte (s : State) (a : Word) : Byte := s.mem.read a.toNat

/-- `mem[a] <- b` (R42). -/
def State.setByte (s : State) (a : Word) (b : Byte) : State := { s with mem := s.mem.write a.toNat b }

/-- `{mem[a+1], mem[a]}`, addresses mod 2^16 (R41, R10). -/
def State.word (s : State) (a : Word) : Word := wordOfBytes (s.byte a) (s.byte (a + 1))

/-- `mem[a] <- v[7:0]; mem[a+1] <- v[15:8]` (R41, R42). -/
def State.setWord (s : State) (a : Word) (v : Word) : State := (s.setByte a (lowByte v)).setByte (a + 1) (highByte v)

/-- An odd address, `a[0] = 1` (R42). -/
def oddAddr (a : Word) : Bool := a.getLsbD 0

/-- A word access at an odd address (R43). -/
def misaligned (w : Width) (a : Word) : Bool :=
  match w with
  | .word => oddAddr a
  | .byte => false

/-- The value of w bits at `a`; a byte is zero-extended (R42). -/
def State.load (s : State) (w : Width) (a : Word) : Word :=
  match w with
  | .word => s.word a
  | .byte => (s.byte a).setWidth 16

/-- Store the low w bits of `v` at `a` (R42). -/
def State.store (s : State) (w : Width) (a v : Word) : State :=
  match w with
  | .word => s.setWord a v
  | .byte => s.setByte a (lowByte v)

/-- `MemRead(a, w/8)`: a byte anywhere, a word at an even address (R42, R43). -/
def memRead (w : Width) (a : Word) (s : State) : Except FaultKind Word :=
  if misaligned w a then .error .misalignedAccess else .ok (s.load w a)

/-- `MemWrite(a, w/8, v)` (R42, R43). -/
def memWrite (w : Width) (a v : Word) (s : State) : Except FaultKind State :=
  if misaligned w a then .error .misalignedAccess else .ok (s.store w a v)

/-- `WriteReg(r, w, v)`: a byte is zero-extended; a nonzero value for R3 faults (R122, R24). -/
def writeReg (w : Width) (r : Reg) (v : Word) (s : State) : Except FaultKind State :=
  if r = .cg ∧ w.trunc v ≠ 0 then .error .constantRegisterWrite else .ok (s.setReg r (w.trunc v))

/-! ## Stage 0 -/

/-- The three words of stage 0, or the fault of an odd PC "before any word is used" (R101, R43). -/
def fetch (s : State) : Except FaultKind (Word × Word × Word) :=
  let pc := s.reg .pc
  if oddAddr pc then .error .misalignedFetch else .ok (s.word pc, s.word (pc + 2), s.word (pc + 4))

/-! ## Taking a fault -/

/-- The record of a fault raised by the instruction at PC whose first word is `w0` (R200, R207). -/
def faultRecord (k : FaultKind) (w0 : Word) (s : State) : FaultRecord := { kind := k, pc := s.reg .pc, w0 := w0 }

/-- Taking a fault: "no register, flag or memory byte changes, and PC keeps the address of the faulting instruction. The
fault latch is set to the record (kind, pc, w0)" (R200). It is a next state, the one the spec describes (log 1). -/
def takeFault (k : FaultKind) (w0 : Word) (s : State) : Host.Outcome State Fault Refusal :=
  .next { s with faultLatch := some (faultRecord k w0 s) }

/-- The end of an instruction whose first word is `w0`, started in `s`: the committed state, or the fault raised on the way,
taken in `s` itself, so that nothing of the instruction is committed (R119, R130, R200). -/
def finish (w0 : Word) (s : State) : Except FaultKind State → Host.Outcome State Fault Refusal
  | .ok t => .next t
  | .error k => takeFault k w0 s

end Sys2Proof.Machine
end

