-- ==== Sys2Proof/Machine/Flags.lean ====
section
/-! DEFINITION. The four flags in SR (10_state.md R23, R26) and every flag computation of the two ALU tables
(43_double_operand.md R177, R178, R193, R196, R197; 41_single_operand.md R141, R143, R144). -/

namespace Sys2Proof.Machine

/-! ## Flags in SR -/

/-- C is SR bit 0 (R23). -/
def bitC : Nat := 0
/-- Z is SR bit 1 (R23). -/
def bitZ : Nat := 1
/-- N is SR bit 2 (R23, decision D3). -/
def bitN : Nat := 2
/-- V is SR bit 8 (R23, decision D3). -/
def bitV : Nat := 8

/-- The carry flag before the instruction, `C_in` (R117). -/
def State.flagC (s : State) : Bool := (s.reg .sr).getLsbD bitC
/-- The zero flag. -/
def State.flagZ (s : State) : Bool := (s.reg .sr).getLsbD bitZ
/-- The negative flag. -/
def State.flagN (s : State) : Bool := (s.reg .sr).getLsbD bitN
/-- The overflow flag. -/
def State.flagV (s : State) : Bool := (s.reg .sr).getLsbD bitV

/-- "Independently-optional new values for each of the 4 status flags" (R26). -/
structure FlagUpdate where
  c : Option Bool := none
  z : Option Bool := none
  n : Option Bool := none
  v : Option Bool := none
  deriving DecidableEq, Repr

/-- SR with bit `k` replaced by a new value, or kept where there is none. -/
def putBit (k : Nat) : Option Bool → Word → Word
  | none, sr => sr
  | some true, sr => sr ||| (1#16 <<< k)
  | some false, sr => sr &&& ~~~(1#16 <<< k)

/-- W1 on the value of SR: each flag with a new value is written into its bit; every other bit keeps its value (R26,
R121). -/
def FlagUpdate.apply (u : FlagUpdate) (sr : Word) : Word :=
  putBit bitV u.v (putBit bitN u.n (putBit bitZ u.z (putBit bitC u.c sr)))

/-! ## The ALU's results -/

/-- A result at width w, with its flag updates (R117). -/
structure AluResult where
  value : Word
  flags : FlagUpdate
  deriving DecidableEq, Repr

/-- A signed value outside −M/2 .. M/2 − 1: overflow at width w (R177, R178). -/
def signedOverflow (w : Width) (exact : Int) : Bool :=
  !(decide (-(w.modulus / 2 : Int) ≤ exact) && decide (exact ≤ (w.modulus / 2 : Int) - 1))

/-- `AddW(d, s, c)` (R177). -/
def addW (w : Width) (d s : Word) (c : Bool) : AluResult :=
  let exact : Nat := d.toNat + s.toNat + c.toNat
  let r : Word := BitVec.ofNat 16 (exact % w.modulus)
  { value := r
    flags :=
      { c := some (decide (w.modulus ≤ exact))
        z := some (decide (r = 0))
        n := some (w.msb r)
        v := some (signedOverflow w (w.signed d + w.signed s + (c.toNat : Int))) } }

/-- `SubW(d, s, b)`, b the borrow-in; "carry = NOT borrow-occurred" (R178, R189). -/
def subW (w : Width) (d s : Word) (b : Bool) : AluResult :=
  let exact : Int := (d.toNat : Int) - (s.toNat : Int) - (b.toNat : Int)
  let r : Word := BitVec.ofInt 16 (exact % (w.modulus : Int))
  { value := r
    flags :=
      { c := some (decide (0 ≤ exact))
        z := some (decide (r = 0))
        n := some (w.msb r)
        v := some (signedOverflow w (w.signed d - w.signed s - (b.toNat : Int))) } }

/-- The flags of BIT, AND and XOR (with `v` false, or both sign bits set) and of SXT: C ← (r ≠ 0), Z ← (r = 0), N ← msb(r)
(R144, R193, R196, R197). -/
def logicFlags (w : Width) (r : Word) (v : Bool) : FlagUpdate :=
  { c := some (decide (r ≠ 0)), z := some (decide (r = 0)), n := some (w.msb r), v := some v }

/-- The flags of RRC and RRA: C ← the bit shifted out, Z ← (r = 0), N ← msb(r), V ← 0 (R141, R143). -/
def shiftFlags (w : Width) (r : Word) (out : Bool) : FlagUpdate :=
  { c := some out, z := some (decide (r = 0)), n := some (w.msb r), v := some false }

/-- AND (R197) and, without its write, BIT (R193). -/
def andW (w : Width) (d s : Word) : AluResult :=
  let r := s &&& d
  { value := r, flags := logicFlags w r false }

/-- XOR: "overflow = both operands' sign bits set" (R196). -/
def xorW (w : Width) (d s : Word) : AluResult :=
  let r := s ^^^ d
  { value := r, flags := logicFlags w r (w.msb s && w.msb d) }

/-- BIC: "bitwise (NOT source) AND destination; no flags touched" (R194). -/
def bicW (w : Width) (d s : Word) : AluResult :=
  { value := w.trunc (~~~s) &&& d, flags := {} }

/-- BIS: "bitwise OR; no flags touched" (R195). -/
def bisW (d s : Word) : AluResult :=
  { value := s ||| d, flags := {} }

/-- RRC: `(C_in << (w−1)) | (sval >> 1)` (R141). -/
def rrcW (w : Width) (v : Word) (c : Bool) : AluResult :=
  let r := ((if c then 1#16 else 0#16) <<< (w.bits - 1)) ||| (v >>> 1)
  { value := r, flags := shiftFlags w r (v.getLsbD 0) }

/-- RRA: `(sval & (1 << (w−1))) | (sval >> 1)` (R143). -/
def rraW (w : Width) (v : Word) : AluResult :=
  let r := (v &&& (1#16 <<< (w.bits - 1))) ||| (v >>> 1)
  { value := r, flags := shiftFlags w r (v.getLsbD 0) }

/-- SWPB: `{sval[7:0], sval[15:8]}`; "no flags touched" (R142). -/
def swpbW (v : Word) : AluResult :=
  { value := v.extractLsb' 0 8 ++ v.extractLsb' 8 8, flags := {} }

/-- SXT: `sext_8(sval[7:0])`; "carry = result≠0" (R144). -/
def sxtW (v : Word) : AluResult :=
  let r : Word := (v.extractLsb' 0 8).signExtend 16
  { value := r, flags := logicFlags .word r false }

/-! ## Jump conditions -/

/-- `cond_holds` of table R161, on SR as it was before the instruction. -/
inductive JumpCond where
  | ne | eq | nc | c | n | ge | l | always
  deriving DecidableEq, Repr

/-- Table R161. -/
def JumpCond.holds (k : JumpCond) (s : State) : Bool :=
  match k with
  | .ne => !s.flagZ
  | .eq => s.flagZ
  | .nc => !s.flagC
  | .c => s.flagC
  | .n => s.flagN
  | .ge => !(s.flagN ^^ s.flagV)
  | .l => s.flagN ^^ s.flagV
  | .always => true

end Sys2Proof.Machine
end

