-- ==== Sys2Proof/Machine/Operands.lean ====
section
/-! DEFINITION. Stage 2, the source operand (40_pipeline.md R103 to R113), and stage 3, the destination operand (R114 to
R116), with every operand form of tables R67 and R68. Every read sees the state before the instruction (R11). -/

namespace Sys2Proof.Machine

/-- An operand's location (R12): a register or a memory address. Immediates and generated constants have none. -/
inductive Loc where
  | reg (r : Reg)
  | mem (ea : Word)
  deriving DecidableEq, Repr

/-- What stage 2 adds to the stage context (R100): `src` (`none` is Const), `sval`, `src_ext`, `autoinc`. -/
structure SrcStage where
  loc : Option Loc
  val : Word
  usesExt : Bool
  autoInc : Option (Reg × Word)
  deriving DecidableEq, Repr

/-- What stage 3 adds to the stage context (R100): `dst`, `dval`, `dst_ext`. -/
structure DstStage where
  loc : Loc
  val : Word
  usesExt : Bool
  deriving DecidableEq, Repr

/-- The step of `@Rn+`: 2 for a word or for SP, 1 otherwise (R112, decision D8). -/
def autoIncStep (w : Width) (r : Reg) : Word :=
  if w = .word ∨ r = .sp then 2 else 1

/-- The effective address of a source form that reads memory; `none` for the forms that do not (R109, R111, R112). -/
def srcAddr (o : SrcOp) (s : State) : Option Word :=
  match o with
  | .indexed r x => some (s.reg r + x)
  | .absolute a => some a
  | .indirect r => some (s.reg r)
  | .indirectInc r => some (s.reg r)
  | .reg _ | .symbolic _ | .const _ | .indirectPc | .immediate _ => none

/-- A memory source: `src <- Mem ea; sval <- MemRead(ea, w/8)`. -/
def memSource (w : Width) (ea : Word) (usesExt : Bool) (autoInc : Option (Reg × Word)) (s : State) : Except FaultKind SrcStage :=
  match memRead w ea s with
  | .error k => .error k
  | .ok v => .ok { loc := some (.mem ea), val := v, usesExt := usesExt, autoInc := autoInc }

/-- Stage 2 (R103 to R112). -/
def resolveSrc (w : Width) (o : SrcOp) (s : State) : Except FaultKind SrcStage :=
  match o with
  | .reg r => .ok { loc := some (.reg r), val := w.trunc (s.reg r), usesExt := false, autoInc := none }
  | .indexed r x => memSource w (s.reg r + x) true none s
  | .symbolic _ => .error .unsupportedAddressing
  | .absolute a => memSource w a true none s
  | .const k => .ok { loc := none, val := w.trunc k.value, usesExt := false, autoInc := none }
  | .indirect r => memSource w (s.reg r) false none s
  | .indirectPc => .error .unsupportedAddressing
  | .indirectInc r => memSource w (s.reg r) false (some (r, autoIncStep w r)) s
  | .immediate v => .ok { loc := none, val := w.trunc v, usesExt := true, autoInc := none }

/-- A memory destination, read even where its value is not used (R115). -/
def memDest (w : Width) (ea : Word) (s : State) : Except FaultKind DstStage :=
  match memRead w ea s with
  | .error k => .error k
  | .ok v => .ok { loc := .mem ea, val := v, usesExt := true }

/-- Stage 3 (R114, R115). -/
def resolveDst (w : Width) (o : DstOp) (s : State) : Except FaultKind DstStage :=
  match o with
  | .reg r => .ok { loc := .reg r, val := w.trunc (s.reg r), usesExt := false }
  | .indexed r x => memDest w (s.reg r + x) s
  | .symbolic _ => .error .unsupportedAddressing
  | .absolute a => memDest w a s

end Sys2Proof.Machine
end

