-- ==== Sys2Proof/Machine/Pipeline.lean ====
section
/-! DEFINITION. What stage 4 hands over (40_pipeline.md R100, R117), stage 5, the writeback W1 to W6 (R119 to R126), and the
three shapes of an instruction: single operand, jump, double operand. -/

namespace Sys2Proof.Machine

/-- What stage 4 adds to the stage context (R100). "Every field not named by the instruction's rule is none or false"
(R117). -/
structure ExecStage where
  result : Option Word := none
  target : Option Loc := none
  flags : FlagUpdate := {}
  decSp : Bool := false
  stackVal : Option (Width × Word) := none
  newValue : Option Word := none
  deriving DecidableEq, Repr

/-- W1: the flag updates (R121). -/
def applyFlags (u : FlagUpdate) (s : State) : State := s.setReg .sr (u.apply (s.reg .sr))

/-- W2: the SP decrement (R121). -/
def applyDecSp (dec : Bool) (s : State) : State :=
  if dec then s.setReg .sp (s.reg .sp - 2) else s

/-- W3: the auto-increment (R121). -/
def applyAutoInc (inc : Option (Reg × Word)) (s : State) : State :=
  match inc with
  | none => s
  | some (r, step) => s.setReg r (s.reg r + step)

/-- W4: the stack write at x[1] "after W2 and W3" (R121). -/
def stackWrite (sv : Option (Width × Word)) (s : State) : Except FaultKind State :=
  match sv with
  | none => .ok s
  | some (w, v) => memWrite w (s.reg .sp) v s

/-- W5: the result to its target (R121, R122). -/
def resultWrite (w : Width) (result : Option Word) (target : Option Loc) (s : State) : Except FaultKind State :=
  match result, target with
  | some v, some (.reg r) => writeReg w r v s
  | some v, some (.mem ea) => memWrite w ea v s
  | _, _ => .ok s

/-- W6: PC is new-value + 2, or the PC register as W5 left it, advanced by 2 + 2n (R126). -/
def pcUpdate (n : Nat) (newValue : Option Word) (s : State) : State :=
  match newValue with
  | some v => s.setReg .pc (v + 2)
  | none => s.setReg .pc (s.reg .pc + BitVec.ofNat 16 (2 + 2 * n))

/-- Stage 5 (R119, R121): W1 to W6 in order. An error of W4 or W5 is the fault found before anything commits: the states
built so far are dropped, and the fault is taken in the state before the instruction (`finish`). W4 comes before W5, which
is the order of R208 item 7. -/
def writeback (w : Width) (n : Nat) (inc : Option (Reg × Word)) (e : ExecStage) (s : State) : Except FaultKind State := do
  let s3 := applyAutoInc inc (applyDecSp e.decSp (applyFlags e.flags s))
  let s4 ← stackWrite e.stackVal s3
  let s5 ← resultWrite w e.result e.target s4
  return pcUpdate n e.newValue s5

/-- Extension words consumed: n of R120. -/
def extCount (src dst : Bool) : Nat := src.toNat + dst.toNat

/-- The double-operand shape (R176): stage 2, stage 3, the ALU2 table, stage 5. -/
def runDouble (w0 : Word) (w : Width) (src : SrcOp) (dst : DstOp) (alu : SrcStage → DstStage → ExecStage) (s : State) :
    Host.Outcome State Fault Refusal :=
  finish w0 s do
    let sv ← resolveSrc w src s
    let dv ← resolveDst w dst s
    writeback w (extCount sv.usesExt dv.usesExt) sv.autoInc (alu sv dv) s

/-- The single-operand shape (R140): stage 2, the ALU1 table, which may fault, stage 5. -/
def runSingle (w0 : Word) (w : Width) (op : SrcOp) (alu : SrcStage → Except FaultKind ExecStage) (s : State) :
    Host.Outcome State Fault Refusal :=
  finish w0 s do
    let sv ← resolveSrc w op s
    let e ← alu sv
    writeback w (extCount sv.usesExt false) sv.autoInc e s

/-- The new value of a jump, `pc + 2 * sext_10(offset)` (R160, R71). -/
def jumpValue (offset : BitVec 10) (s : State) : Word := s.reg .pc + 2 * offset.signExtend 16

/-- Stage 4 of a jump (R160): not taken, or taken to a nonzero new value, or the fault of a zero one (decision D16). -/
def jumpStage (taken : Bool) (offset : BitVec 10) (s : State) : Except FaultKind ExecStage :=
  if taken then
    if jumpValue offset s = 0 then .error .zeroTransferTarget else .ok { newValue := some (jumpValue offset s) }
  else .ok {}

/-- The jump shape (R160): no operand (R113, R116), no extension word. -/
def runJump (w0 : Word) (k : JumpCond) (offset : BitVec 10) (s : State) : Host.Outcome State Fault Refusal :=
  finish w0 s do
    let e ← jumpStage (k.holds s) offset s
    writeback .word 0 none e s

/-- An ALU2 result written to the destination, `target <- dst` (R176). -/
def toDest (dv : DstStage) (a : AluResult) : ExecStage :=
  { result := some a.value, target := some dv.loc, flags := a.flags }

/-- An ALU2 result that only sets flags, `result <- none` (R190, R193). -/
def flagsOnly (a : AluResult) : ExecStage := { flags := a.flags }

/-- An ALU1 result "written back to their own, single, operand location"; an operand without one faults (R140, decision
D12). -/
def toOperand (sv : SrcStage) (a : AluResult) : Except FaultKind ExecStage :=
  match sv.loc with
  | none => .error .noOperandLocation
  | some loc => .ok { result := some a.value, target := some loc, flags := a.flags }

end Sys2Proof.Machine
end

