-- ==== Sys2Proof/Machine/Double.lean ====
section
/-! DEFINITION. The meanings of the double-operand instructions (43_double_operand.md R176 to R197). -/

namespace Sys2Proof.Machine

/-- MOV: "result <- sval; target <- dst", no flag (R180, decision D10). -/
def execMov (w : Width) (src : SrcOp) (dst : DstOp) (s : State) : Host.Outcome State Fault Refusal :=
  runDouble (Instr.firstWord (.mov w src dst)) w src dst
    (fun sv dv => toDest dv { value := sv.val, flags := {} }) s

/-- ADD: `AddW(dval, sval, 0)` (R182). -/
def execAdd (w : Width) (src : SrcOp) (dst : DstOp) (s : State) : Host.Outcome State Fault Refusal :=
  runDouble (Instr.firstWord (.add w src dst)) w src dst
    (fun sv dv => toDest dv (addW w dv.val sv.val false)) s

/-- ADDC: `AddW(dval, sval, C_in)` (R184). -/
def execAddc (w : Width) (src : SrcOp) (dst : DstOp) (s : State) : Host.Outcome State Fault Refusal :=
  runDouble (Instr.firstWord (.addc w src dst)) w src dst
    (fun sv dv => toDest dv (addW w dv.val sv.val s.flagC)) s

/-- SUBC: `SubW(dval, sval, 1 − C_in)` (R186). -/
def execSubc (w : Width) (src : SrcOp) (dst : DstOp) (s : State) : Host.Outcome State Fault Refusal :=
  runDouble (Instr.firstWord (.subc w src dst)) w src dst
    (fun sv dv => toDest dv (subW w dv.val sv.val (!s.flagC))) s

/-- SUB: `SubW(dval, sval, 0)` (R188). -/
def execSub (w : Width) (src : SrcOp) (dst : DstOp) (s : State) : Host.Outcome State Fault Refusal :=
  runDouble (Instr.firstWord (.sub w src dst)) w src dst
    (fun sv dv => toDest dv (subW w dv.val sv.val false)) s

/-- CMP: `SubW(dval, sval, 0)`, "result <- none" (R190, R191). -/
def execCmp (w : Width) (src : SrcOp) (dst : DstOp) (s : State) : Host.Outcome State Fault Refusal :=
  runDouble (Instr.firstWord (.cmp w src dst)) w src dst
    (fun sv dv => flagsOnly (subW w dv.val sv.val false)) s

/-- DADD: UNSUPPORTED_OPCODE "before any operand is resolved" (R192). -/
def execDadd (fields : BitVec 12) (s : State) : Host.Outcome State Fault Refusal :=
  takeFault .unsupportedOpcode (Instr.firstWord (.dadd fields)) s

/-- BIT: AND without the write (R193, decision D10). -/
def execBit (w : Width) (src : SrcOp) (dst : DstOp) (s : State) : Host.Outcome State Fault Refusal :=
  runDouble (Instr.firstWord (.bit w src dst)) w src dst
    (fun sv dv => flagsOnly (andW w dv.val sv.val)) s

/-- BIC (R194). -/
def execBic (w : Width) (src : SrcOp) (dst : DstOp) (s : State) : Host.Outcome State Fault Refusal :=
  runDouble (Instr.firstWord (.bic w src dst)) w src dst
    (fun sv dv => toDest dv (bicW w dv.val sv.val)) s

/-- BIS (R195). -/
def execBis (w : Width) (src : SrcOp) (dst : DstOp) (s : State) : Host.Outcome State Fault Refusal :=
  runDouble (Instr.firstWord (.bis w src dst)) w src dst
    (fun sv dv => toDest dv (bisW dv.val sv.val)) s

/-- XOR (R196). -/
def execXor (w : Width) (src : SrcOp) (dst : DstOp) (s : State) : Host.Outcome State Fault Refusal :=
  runDouble (Instr.firstWord (.xor w src dst)) w src dst
    (fun sv dv => toDest dv (xorW w dv.val sv.val)) s

/-- AND (R197). -/
def execAnd (w : Width) (src : SrcOp) (dst : DstOp) (s : State) : Host.Outcome State Fault Refusal :=
  runDouble (Instr.firstWord (.and w src dst)) w src dst
    (fun sv dv => toDest dv (andW w dv.val sv.val)) s

end Sys2Proof.Machine
end

