-- ==== Sys2Proof/Machine/Jump.lean ====
section
/-! DEFINITION. The meanings of the eight jumps (42_jumps.md R160 to R171). -/

namespace Sys2Proof.Machine

/-- JNE (JNZ): Z = 0 (R162). -/
def execJne (offset : BitVec 10) (s : State) : Host.Outcome State Fault Refusal :=
  runJump (Instr.firstWord (.jne offset)) .ne offset s

/-- JEQ (JZ): Z = 1 (R163). -/
def execJeq (offset : BitVec 10) (s : State) : Host.Outcome State Fault Refusal :=
  runJump (Instr.firstWord (.jeq offset)) .eq offset s

/-- JNC (JLO): C = 0 (R164). -/
def execJnc (offset : BitVec 10) (s : State) : Host.Outcome State Fault Refusal :=
  runJump (Instr.firstWord (.jnc offset)) .nc offset s

/-- JC (JHS): C = 1 (R165). -/
def execJc (offset : BitVec 10) (s : State) : Host.Outcome State Fault Refusal :=
  runJump (Instr.firstWord (.jc offset)) .c offset s

/-- JN: N = 1 (R166). -/
def execJn (offset : BitVec 10) (s : State) : Host.Outcome State Fault Refusal :=
  runJump (Instr.firstWord (.jn offset)) .n offset s

/-- JGE: (N XOR V) = 0 (R167). -/
def execJge (offset : BitVec 10) (s : State) : Host.Outcome State Fault Refusal :=
  runJump (Instr.firstWord (.jge offset)) .ge offset s

/-- JL: (N XOR V) = 1 (R168). -/
def execJl (offset : BitVec 10) (s : State) : Host.Outcome State Fault Refusal :=
  runJump (Instr.firstWord (.jl offset)) .l offset s

/-- JMP: always (R169). -/
def execJmp (offset : BitVec 10) (s : State) : Host.Outcome State Fault Refusal :=
  runJump (Instr.firstWord (.jmp offset)) .always offset s

end Sys2Proof.Machine
end

