-- ==== Sys2Proof/Machine/Single.lean ====
section
/-! DEFINITION. The meanings of the single-operand instructions (41_single_operand.md R140 to R150). -/

namespace Sys2Proof.Machine

/-- RRC: rotate right through carry (R141). -/
def execRrc (w : Width) (op : SrcOp) (s : State) : Host.Outcome State Fault Refusal :=
  runSingle (Instr.firstWord (.rrc w op)) w op (fun sv => toOperand sv (rrcW w sv.val s.flagC)) s

/-- SWPB: swap bytes, word only (R142). -/
def execSwpb (op : SrcOp) (s : State) : Host.Outcome State Fault Refusal :=
  runSingle (Instr.firstWord (.swpb op)) .word op (fun sv => toOperand sv (swpbW sv.val)) s

/-- RRA: arithmetic shift right (R143). -/
def execRra (w : Width) (op : SrcOp) (s : State) : Host.Outcome State Fault Refusal :=
  runSingle (Instr.firstWord (.rra w op)) w op (fun sv => toOperand sv (rraW w sv.val)) s

/-- SXT: sign-extend the low byte, word only (R144). -/
def execSxt (op : SrcOp) (s : State) : Host.Outcome State Fault Refusal :=
  runSingle (Instr.firstWord (.sxt op)) .word op (fun sv => toOperand sv (sxtW sv.val)) s

/-- The forms of PUSH whose outcome the spec does not settle: PUSH SP, PUSH @SP+, PUSH.B Rn (R145, decision D13). -/
def pushUnsettled (w : Width) (op : SrcOp) : Bool :=
  match op with
  | .reg r => decide (r = .sp) || decide (w = .byte)
  | .indirectInc r => decide (r = .sp)
  | _ => false

/-- Stage 4 of PUSH: the stack write at the decremented SP, and the duplicate writeback to the operand's own location when
it has one, "retain both paths as observed" (R145, R146). -/
def pushStage (w : Width) (op : SrcOp) (sv : SrcStage) : Except FaultKind ExecStage :=
  if pushUnsettled w op then .error .unsettledStackForm
  else
    .ok
      { decSp := true
        stackVal := some (w, sv.val)
        result := sv.loc.map fun _ => sv.val
        target := sv.loc }

/-- PUSH (R145). -/
def execPush (w : Width) (op : SrcOp) (s : State) : Host.Outcome State Fault Refusal :=
  runSingle (Instr.firstWord (.push w op)) w op (pushStage w op) s

/-- Stage 4 of CALL: CALL @SP+ and a zero target fault, in that order; otherwise the return address pc + 2 goes to the
stack and the operand value is the new value (R147, decisions D13, D14, D16). -/
def callStage (op : SrcOp) (pc : Word) (sv : SrcStage) : Except FaultKind ExecStage :=
  if op = .indirectInc .sp then .error .unsettledStackForm
  else if sv.val = 0 then .error .zeroTransferTarget
  else .ok { decSp := true, stackVal := some (.word, pc + 2), newValue := some sv.val }

/-- CALL (R147). -/
def execCall (op : SrcOp) (s : State) : Host.Outcome State Fault Refusal :=
  runSingle (Instr.firstWord (.call op)) .word op (callStage op (s.reg .pc)) s

/-- RETI: "reaching them is a hard fault", UNSUPPORTED_OPCODE (R149, R212). -/
def execReti (low : BitVec 7) (s : State) : Host.Outcome State Fault Refusal :=
  takeFault .unsupportedOpcode (Instr.firstWord (.reti low)) s

end Sys2Proof.Machine
end

