-- ==== Sys2Proof/Machine/Dispatch.lean ====
section
/-! DEFINITION. One arm per instruction of spec/opcode_table.json, each one direct call of its meaning. -/

namespace Sys2Proof.Machine

/-- Stages 2 to 5 of the instruction `i` that stage 1 decoded, in the state `s` it was fetched in (R130). -/
def exec (i : Instr) (s : State) : Host.Outcome State Fault Refusal :=
  match i with
  | .mov w src dst => Sys2Proof.Machine.execMov w src dst s
  | .add w src dst => Sys2Proof.Machine.execAdd w src dst s
  | .addc w src dst => Sys2Proof.Machine.execAddc w src dst s
  | .subc w src dst => Sys2Proof.Machine.execSubc w src dst s
  | .sub w src dst => Sys2Proof.Machine.execSub w src dst s
  | .cmp w src dst => Sys2Proof.Machine.execCmp w src dst s
  | .dadd fields => Sys2Proof.Machine.execDadd fields s
  | .bit w src dst => Sys2Proof.Machine.execBit w src dst s
  | .bic w src dst => Sys2Proof.Machine.execBic w src dst s
  | .bis w src dst => Sys2Proof.Machine.execBis w src dst s
  | .xor w src dst => Sys2Proof.Machine.execXor w src dst s
  | .and w src dst => Sys2Proof.Machine.execAnd w src dst s
  | .rrc w op => Sys2Proof.Machine.execRrc w op s
  | .swpb op => Sys2Proof.Machine.execSwpb op s
  | .rra w op => Sys2Proof.Machine.execRra w op s
  | .sxt op => Sys2Proof.Machine.execSxt op s
  | .push w op => Sys2Proof.Machine.execPush w op s
  | .call op => Sys2Proof.Machine.execCall op s
  | .reti low => Sys2Proof.Machine.execReti low s
  | .jne offset => Sys2Proof.Machine.execJne offset s
  | .jeq offset => Sys2Proof.Machine.execJeq offset s
  | .jnc offset => Sys2Proof.Machine.execJnc offset s
  | .jc offset => Sys2Proof.Machine.execJc offset s
  | .jn offset => Sys2Proof.Machine.execJn offset s
  | .jge offset => Sys2Proof.Machine.execJge offset s
  | .jl offset => Sys2Proof.Machine.execJl offset s
  | .jmp offset => Sys2Proof.Machine.execJmp offset s

end Sys2Proof.Machine
end

