-- ==== Sys2Proof/Machine/Fetch.lean ====
section
/-! DEFINITION. Stages 0 and 1 together (40_pipeline.md R101, R102): the instruction at PC, or the fault that comes before
one, with the first word its record holds; and the placing of a word where the next fetch reads it. -/

namespace Sys2Proof.Machine

/-- Stages 0 and 1. An odd PC faults with w0 = 0, "where no word is fetched" (R200, R207); three words that are no
instruction fault with ILLEGAL_ENCODING and their first word (R62, R72). -/
def fetchDecode (s : State) : Except (FaultKind × Word) Instr :=
  match fetch s with
  | .error k => .error (k, 0)
  | .ok (w0, w1, w2) =>
    match decode w0 w1 w2 with
    | .error _ => .error (.illegalEncoding, w0)
    | .ok i => .ok i

/-- Store bytes at `a`, `a + 1`, …, mod 2^16. -/
def State.setBytes (s : State) (a : Word) : List Byte → State
  | [] => s
  | b :: bs => (s.setByte a b).setBytes (a + 1) bs

end Sys2Proof.Machine
end

