-- ==== Sys2Proof/Machine/Step.lean ====
section
/-! DEFINITION. One execute call (40_pipeline.md R130), and the placing of an instruction where it is fetched next. -/

namespace Sys2Proof.Machine

/-- "Execute one instruction" (R130). With the latch set the machine refuses, its state unchanged (R204; log 2). Otherwise
stages 0 and 1 find the instruction at PC or take their fault, and `exec` runs stages 2 to 5. -/
def step (s : State) : Host.Outcome State Fault Refusal :=
  match s.faultLatch with
  | some record => .fault (.stopped record)
  | none =>
    match fetchDecode s with
    | .error (k, w0) => takeFault k w0 s
    | .ok i => exec i s

/-- `s` with the instruction whose bits are `w` (as spec/opcode_table.json numbers them, zeros above `nbits`) stored in the
six bytes from PC on, the words stage 0 reads (R101). Nothing else changes: the machine fetches at PC, and at reset PC is
even and the latch clear. It stands for loading a program's image at construction (R225; log 4). -/
def State.withFetchWord (s : State) (nbits w : Nat) : State := s.setBytes (s.reg .pc) (tableBytes nbits w)

end Sys2Proof.Machine
end

