-- ==== Sys2Proof/Machine/Toolchain.lean ====
section
/-! DEFINITION. The toolchain's encoder (30_encoding.md R80 to R94), surrounding software that makes the images the block
runs: operands, constant folding, normalisation, the bootstrap, globals, labels, relocations; and the emulated instructions
of R96 as expansions. Its input is the parser's output (R95): labels are identities, not spellings (log 13). -/

namespace Sys2Proof.Toolchain

open Sys2Proof.Machine (JumpCond)

/-- A label identity. "Every program must define `main`" (R84). -/
inductive Label where
  | main
  | named (n : Nat)
  deriving DecidableEq, Repr

/-- A value, or a label whose table value a full-word relocation patches in (R81, R91). -/
inductive Value where
  | num (v : Word)
  | label (l : Label)
  deriving DecidableEq, Repr

/-- The operands of R81. -/
inductive Operand where
  | reg (r : Reg)
  | indexed (r : Reg) (x : Word)
  | absolute (v : Value)
  | indirect (r : Reg)
  | indirectInc (r : Reg)
  | immediate (v : Value)
  deriving DecidableEq, Repr

/-- The double-operand mnemonics (R66). -/
inductive DoubleOp where
  | mov | add | addc | subc | sub | cmp | dadd | bit | bic | bis | xor | and
  deriving DecidableEq, Repr

/-- The single-operand mnemonics with an operand; SWPB, SXT and CALL have no byte form (R66, R95). -/
inductive SingleOp where
  | rrc (w : Width) | swpb | rra (w : Width) | sxt | push (w : Width) | call
  deriving DecidableEq, Repr

/-- One line of a program: an instruction, or the label pseudo-instruction (R86 to R90). -/
inductive Line where
  | double (op : DoubleOp) (w : Width) (src dst : Operand)
  | single (op : SingleOp) (operand : Operand)
  | jump (cond : JumpCond) (target : Label)
  | reti
  | label (l : Label)
  deriving DecidableEq, Repr

/-- A Global record: its label and its data bytes (R85). -/
structure Global where
  label : Label
  data : List Byte
  deriving DecidableEq, Repr

/-- The encoder's errors, "a distinct condition for each" (R80, R206), and two refusals of the model's own. -/
inductive EncodeError where
  /-- A relocation names a label that no line defines (R80). -/
  | unresolvedLabel (l : Label)
  /-- A jump's displacement is odd or outside −512 to 511 words (R92, decision D23). -/
  | displacement (pos : Nat)
  /-- A destination that is neither a register nor indexed nor absolute (R81, R83). -/
  | disallowedDestination
  /-- RETI or DADD (R90). -/
  | unsupportedOpcode
  /-- BOOT_SP is a folded constant, which would make the bootstrap 4 bytes long (R84, U19; log 14). -/
  | foldedBootSp
  /-- A label defined twice: the spec does not say which wins (log 12). -/
  | duplicateLabel (l : Label)
  deriving DecidableEq, Repr

/-! ## Operands -/

/-- The constant-generator pairs of table R82; any other value "always gets a full trailing word". -/
def foldConst (v : Word) : Option (BitVec 2 × Reg) :=
  if v = 0x0000 then some (0, .cg)
  else if v = 0x0001 then some (1, .cg)
  else if v = 0x0002 then some (2, .cg)
  else if v = 0x0004 then some (2, .sr)
  else if v = 0x0008 then some (3, .sr)
  else if v = 0xFFFF then some (3, .cg)
  else none

/-- (As, reg, ext) of an operand in source role (table R81). -/
structure SrcCode where
  as : BitVec 2
  reg : Reg
  ext : Option Value
  deriving DecidableEq, Repr

/-- (Ad, reg, ext) of an operand in destination role (table R81). -/
structure DstCode where
  ad : BitVec 1
  reg : Reg
  ext : Option Value
  deriving DecidableEq, Repr

/-- Source role (R81, R82). A label immediate is never folded (decision D25). -/
def Operand.asSource : Operand → SrcCode
  | .reg r => { as := 0, reg := r, ext := none }
  | .indexed r x => { as := 1, reg := r, ext := some (.num x) }
  | .absolute v => { as := 1, reg := .sr, ext := some v }
  | .indirect r => { as := 2, reg := r, ext := none }
  | .indirectInc r => { as := 3, reg := r, ext := none }
  | .immediate (.num v) =>
    match foldConst v with
    | some (as, r) => { as := as, reg := r, ext := none }
    | none => { as := 3, reg := .pc, ext := some (.num v) }
  | .immediate (.label l) => { as := 3, reg := .pc, ext := some (.label l) }

/-- Destination role (R81). -/
def Operand.asDest : Operand → Except EncodeError DstCode
  | .reg r => .ok { ad := 0, reg := r, ext := none }
  | .indexed r x => .ok { ad := 1, reg := r, ext := some (.num x) }
  | .absolute v => .ok { ad := 1, reg := .sr, ext := some v }
  | .indirect _ | .indirectInc _ | .immediate _ => .error .disallowedDestination

/-- "`IndexedRegister(r, 0)` is rewritten to `Indirect(r)` immediately before encoding each instruction"; every operand, so
a destination `0(Rn)` then fails (R83, decision D24). -/
def Operand.normalise : Operand → Operand
  | .indexed r x => if x = 0 then .indirect r else .indexed r x
  | o => o

/-- Opcode numbers of table R66; DADD has none here, because the encoder never emits it (R90). -/
def DoubleOp.code : DoubleOp → Except EncodeError (BitVec 4)
  | .mov => .ok 0x4
  | .add => .ok 0x5
  | .addc => .ok 0x6
  | .subc => .ok 0x7
  | .sub => .ok 0x8
  | .cmp => .ok 0x9
  | .dadd => .error .unsupportedOpcode
  | .bit => .ok 0xB
  | .bic => .ok 0xC
  | .bis => .ok 0xD
  | .xor => .ok 0xE
  | .and => .ok 0xF

/-- Opcode number and B/W bit (R64, R66). -/
def SingleOp.code : SingleOp → BitVec 3 × BitVec 1
  | .rrc w => (0, w.code)
  | .swpb => (1, 0)
  | .rra w => (2, w.code)
  | .sxt => (3, 0)
  | .push w => (4, w.code)
  | .call => (5, 0)

/-- Condition codes of table R161. -/
def condCode : JumpCond → BitVec 3
  | .ne => 0
  | .eq => 1
  | .nc => 2
  | .c => 3
  | .n => 4
  | .ge => 5
  | .l => 6
  | .always => 7

/-! ## Emission -/

/-- "A deferred byte patch whose value depends on a label" (R12): at a byte offset, for a label. -/
inductive Reloc where
  | fullWord (pos : Nat) (l : Label)
  | pcRelative (pos : Nat) (l : Label)
  deriving DecidableEq, Repr

/-- What the encoder has emitted so far: bytes, the label table, the relocations in order. -/
structure Emission where
  bytes : List Byte := []
  labels : List (Label × Nat) := []
  relocs : List Reloc := []
  deriving DecidableEq, Repr

/-- Append a word, low byte first (R41). -/
def Emission.word (e : Emission) (v : Word) : Emission := { e with bytes := e.bytes ++ wordBytes v }

/-- Append a trailing word, if there is one: a value, or zero with a full-word relocation at its offset (R81, R87). -/
def Emission.trailing (e : Emission) : Option Value → Emission
  | none => e
  | some (.num v) => e.word v
  | some (.label l) => { e.word 0 with relocs := e.relocs ++ [.fullWord e.bytes.length l] }

/-- The table value of a label. -/
def Emission.lookup (e : Emission) (l : Label) : Option Nat := e.labels.lookup l

/-- Record a label with a table value. -/
def Emission.record (e : Emission) (l : Label) (v : Nat) : Except EncodeError Emission :=
  if (e.lookup l).isSome then .error (.duplicateLabel l) else .ok { e with labels := e.labels ++ [(l, v)] }

/-- One line (R86 to R90). A code label's table value is "current offset − 2" (R89). -/
def Emission.line (e : Emission) : Line → Except EncodeError Emission
  | .double op w src dst => do
    let opcode ← op.code
    let s := src.normalise.asSource
    let d ← dst.normalise.asDest
    return ((e.word (doubleWord opcode s.reg.code d.ad w.code s.as d.reg.code)).trailing s.ext).trailing d.ext
  | .single op operand =>
    let s := operand.normalise.asSource
    .ok ((e.word (singleWord op.code.1 op.code.2 s.as s.reg.code)).trailing s.ext)
  | .jump cond target =>
    .ok { e.word (jumpWord (condCode cond) 0) with relocs := e.relocs ++ [.pcRelative e.bytes.length target] }
  | .reti => .error .unsupportedOpcode
  | .label l => e.record l (e.bytes.length - 2)

/-- Lines in order. -/
def Emission.lines (e : Emission) : List Line → Except EncodeError Emission
  | [] => .ok e
  | l :: ls => do
    let e' ← e.line l
    e'.lines ls

/-- Globals in order, "recording each label at its byte offset" (R85). -/
def Emission.globals (e : Emission) : List Global → Except EncodeError Emission
  | [] => .ok e
  | g :: gs => do
    let e' ← e.record g.label e.bytes.length
    ({ e' with bytes := e'.bytes ++ g.data } : Emission).globals gs

/-- "Pad one zero byte if the running length is odd (code must start on an even boundary)" (R85). -/
def Emission.pad (e : Emission) : Emission :=
  if e.bytes.length % 2 = 1 then { e with bytes := e.bytes ++ [0] } else e

/-- The bootstrap (R84, R227): `MOV #BOOT_SP,SP` and `JMP main`. -/
def bootstrap (bootSp : Word) : List Line :=
  [.double .mov .word (.immediate (.num bootSp)) (.reg .sp), .jump .always .main]

/-! ## Relocation -/

/-- Overwrite the two bytes at a byte offset, little-endian. -/
def patch (bs : List Byte) (pos : Nat) (v : Word) : List Byte := (bs.set pos (lowByte v)).set (pos + 1) (highByte v)

/-- The word count k of R92 for a jump at byte offset `j` and a label table value `l`; `none` is the displacement error. -/
def displacement (l j : Nat) : Option Int :=
  let d : Int := (l : Int) - (j : Int)
  if d % 2 ≠ 0 then none
  else if d / 2 < -512 ∨ 511 < d / 2 then none
  else some (d / 2)

/-- One relocation (R91, R92). -/
def resolveOne (labels : List (Label × Nat)) (bs : List Byte) : Reloc → Except EncodeError (List Byte)
  | .fullWord pos l =>
    match labels.lookup l with
    | none => .error (.unresolvedLabel l)
    | some v => .ok (patch bs pos (BitVec.ofNat 16 v))
  | .pcRelative pos l =>
    match labels.lookup l with
    | none => .error (.unresolvedLabel l)
    | some v =>
      match displacement v pos with
      | none => .error (.displacement pos)
      | some k => .ok (patch bs pos (wordAt bs pos ||| BitVec.ofInt 16 (k % 1024)))

/-- Relocations in order. -/
def resolveAll (labels : List (Label × Nat)) (bs : List Byte) : List Reloc → Except EncodeError (List Byte)
  | [] => .ok bs
  | r :: rs => do
    let bs' ← resolveOne labels bs r
    resolveAll labels bs' rs

/-- Everything emitted before relocation: bootstrap, globals, padding, code (R84, R85, R93). -/
def emit (p : Params) (globals : List Global) (code : List Line) : Except EncodeError Emission :=
  if (foldConst p.bootSp).isSome then .error .foldedBootSp
  else do
    let e0 ← (({} : Emission)).lines (bootstrap p.bootSp)
    let e1 ← e0.globals globals
    e1.pad.lines code

/-- `encode(globals, instructions) → byte sequence` (R80, R93): the emission, then its relocations; on any failure no image
is produced. The first error in this order is the one reported (log 11). -/
def assemble (p : Params) (globals : List Global) (code : List Line) : Except EncodeError (List Byte) := do
  let e ← emit p globals code
  resolveAll e.labels e.bytes e.relocs

/-! ## The text form -/

/-- An uppercase hexadecimal digit. -/
def hexDigit (n : Nat) : Char :=
  if n < 10 then Char.ofNat (48 + n) else Char.ofNat (55 + n)

/-- "A text file of one two-digit uppercase hex byte per line" (R93): the characters of one line each. -/
def hexLines (bs : List Byte) : List (List Char) :=
  bs.map fun b => [hexDigit (b.toNat / 16), hexDigit (b.toNat % 16)]

/-! ## Emulated instructions -/

/-- The emulated instructions of R96, not the source's but the family's (log 22). -/
inductive Emulated where
  | nop
  | clr (w : Width) (dst : Operand)
  | inc (w : Width) (dst : Operand)
  | incd (w : Width) (dst : Operand)
  | dec (w : Width) (dst : Operand)
  | decd (w : Width) (dst : Operand)
  | tst (w : Width) (dst : Operand)
  | inv (w : Width) (dst : Operand)
  | rla (w : Width) (dst : Operand)
  | rlc (w : Width) (dst : Operand)
  | adc (w : Width) (dst : Operand)
  | sbc (w : Width) (dst : Operand)
  | dadc (w : Width) (dst : Operand)
  | setc | clrc | setz | clrz | setn | clrn | eint | dint
  | pop (w : Width) (dst : Operand)
  | ret
  | br (src : Operand)
  | jz (target : Label) | jnz (target : Label) | jhs (target : Label) | jlo (target : Label)
  deriving DecidableEq, Repr

/-- `#v`. -/
def imm (v : Word) : Operand := .immediate (.num v)

/-- The expansions of table R96. -/
def Emulated.expand : Emulated → Line
  | .nop => .double .mov .word (.reg .cg) (.reg .cg)
  | .clr w dst => .double .mov w (imm 0) dst
  | .inc w dst => .double .add w (imm 1) dst
  | .incd w dst => .double .add w (imm 2) dst
  | .dec w dst => .double .sub w (imm 1) dst
  | .decd w dst => .double .sub w (imm 2) dst
  | .tst w dst => .double .cmp w (imm 0) dst
  | .inv w dst => .double .xor w (imm 0xFFFF) dst
  | .rla w dst => .double .add w dst dst
  | .rlc w dst => .double .addc w dst dst
  | .adc w dst => .double .addc w (imm 0) dst
  | .sbc w dst => .double .subc w (imm 0) dst
  | .dadc w dst => .double .dadd w (imm 0) dst
  | .setc => .double .bis .word (imm 1) (.reg .sr)
  | .clrc => .double .bic .word (imm 1) (.reg .sr)
  | .setz => .double .bis .word (imm 2) (.reg .sr)
  | .clrz => .double .bic .word (imm 2) (.reg .sr)
  | .setn => .double .bis .word (imm 4) (.reg .sr)
  | .clrn => .double .bic .word (imm 4) (.reg .sr)
  | .eint => .double .bis .word (imm 8) (.reg .sr)
  | .dint => .double .bic .word (imm 8) (.reg .sr)
  | .pop w dst => .double .mov w (.indirectInc .sp) dst
  | .ret => .double .mov .word (.indirectInc .sp) (.reg .pc)
  | .br src => .double .mov .word src (.reg .pc)
  | .jz target => .jump .eq target
  | .jnz target => .jump .ne target
  | .jhs target => .jump .c target
  | .jlo target => .jump .nc target

end Sys2Proof.Toolchain
end

