-- ==== Sys2Proof/Machine/HostInterface.lean ====
section
/-! DEFINITION. The host's operations on the machine (60_exceptions.md R214 to R216, R218; 70_reset_and_hazards.md R225;
20_memory.md R55): construct, execute one, execute N, and the four memory-mapped accessors. Each lands between two
instructions, never inside one (log 7). -/

namespace Sys2Proof.Machine

/-- The image as a canonical memory, its first byte at address `a`; zero bytes are what an unlisted address reads as. -/
def Memory.ofImage : Nat → List Byte → Memory
  | _, [] => []
  | a, b :: bs => if b = Memory.unlisted then Memory.ofImage (a + 1) bs else (a, b) :: Memory.ofImage (a + 1) bs

/-- Construct-from-byte-image (R225, decision D21): an image longer than the memory is refused; otherwise image byte a at
address a, zero after the image, every register 0, the latch clear. -/
def construct (image : List Byte) : Option State :=
  if image.length ≤ Config.memorySize then some { State.reset with mem := Memory.ofImage 0 image } else none

/-- Execute-one (R214): the state after one `step`; a machine that refuses to step "returns without changing any state"
(R204). -/
def executeOne (s : State) : State :=
  match step s with
  | .next t => t
  | .fault _ => s
  | .refused _ => s

/-- Execute-N: "runs step k times in order and stops at the first fault" (R214). -/
def executeN : Nat → State → State
  | 0, s => s
  | k + 1, s =>
    let t := executeOne s
    if t.faultLatch.isSome then t else executeN k t

/-- The framebuffer accessor: its 2400 bytes, in address order (R215, R218). -/
def readFramebuffer (s : State) : List Byte :=
  (List.range Config.framebufferSize).map fun k => s.byte (Config.framebufferBase + BitVec.ofNat 16 k)

/-- The LED accessor (R215, R218). -/
def readLed (s : State) : Word := s.word Config.ledAddr

/-- The switch accessor: the host writes the 16-bit switch word (R55, R215). -/
def writeSwitch (v : Word) (s : State) : State := s.setWord Config.switchAddr v

/-- The button accessor: the host writes the 8-bit button byte (R55, R215). -/
def writeButton (b : Byte) (s : State) : State := s.setByte Config.buttonAddr b

/-- What the host can do to a constructed machine that changes it (R214, R215). The values written are free inputs
(decision D19). -/
inductive HostOp where
  | executeOne
  | executeN (k : Nat)
  | writeSwitch (v : Word)
  | writeButton (b : Byte)
  deriving DecidableEq, Repr

/-- One host operation. -/
def HostOp.apply (op : HostOp) (s : State) : State :=
  match op with
  | .executeOne => Sys2Proof.Machine.executeOne s
  | .executeN k => Sys2Proof.Machine.executeN k s
  | .writeSwitch v => Sys2Proof.Machine.writeSwitch v s
  | .writeButton b => Sys2Proof.Machine.writeButton b s

/-- Host operations in order. -/
def HostOp.applyAll : List HostOp → State → State
  | [], s => s
  | op :: ops, s => HostOp.applyAll ops (op.apply s)

end Sys2Proof.Machine
end

