-- ==== Sys2Proof/WellFormed.lean ====
section
/-! DEFINITION. Which terms of Syntax.lean some instruction word stands for: a memory form names a register that the
tables R67 and R68 admit for it. Everything else an `Instr` can hold is an encoding. -/

namespace Sys2Proof

/-- R1 and R4 to R15: the registers of the source's indexed, indirect and auto-increment rows (R67). -/
def Reg.sourceBase : Reg → Bool
  | .pc | .sr | .cg => false
  | _ => true

/-- R1 and R3 to R15: the registers of the destination's indexed row (R68). -/
def Reg.destBase : Reg → Bool
  | .pc | .sr => false
  | _ => true

/-- A source form of table R67. -/
def SrcOp.wf : SrcOp → Bool
  | .indexed r _ | .indirect r | .indirectInc r => r.sourceBase
  | .reg _ | .symbolic _ | .absolute _ | .const _ | .indirectPc | .immediate _ => true

/-- A destination form of table R68. -/
def DstOp.wf : DstOp → Bool
  | .indexed r _ => r.destBase
  | .reg _ | .symbolic _ | .absolute _ => true

/-- An instruction that some words encode. -/
def Instr.wf : Instr → Bool
  | .mov _ src dst | .add _ src dst | .addc _ src dst | .subc _ src dst | .sub _ src dst | .cmp _ src dst
  | .bit _ src dst | .bic _ src dst | .bis _ src dst | .xor _ src dst | .and _ src dst => src.wf && dst.wf
  | .rrc _ op | .swpb op | .rra _ op | .sxt op | .push _ op | .call op => op.wf
  | .dadd _ | .reti _ => true
  | .jne _ | .jeq _ | .jnc _ | .jc _ | .jn _ | .jge _ | .jl _ | .jmp _ => true

end Sys2Proof
end

