-- ==== Sys2Proof/Safety.lean ====
section
/-! DEFINITION. The terms the statements use: the invariant of a run, what it is for an instruction to complete with an
effect or to take a fault, the one of the two that each instruction does (`outcome`), what an instruction may write, read off
its syntax, and what a line of a program stands for. `Effect` says the outcome of stage 5 (40_pipeline.md R121 to R126)
register by register and byte by byte, not as a sequence of writes. -/

namespace Sys2Proof.Machine

/-! ## The invariant -/

/-- What a latched record says of the machine it stopped: PC is still the faulting address (R200), and the kind is
MISALIGNED_FETCH, with w0 = 0, exactly when that address is odd (R207). -/
def latchMatches (s : State) : Bool :=
  match s.faultLatch with
  | none => true
  | some record =>
    decide (record.pc = s.reg .pc) &&
      (if oddAddr record.pc then decide (record.kind = .misalignedFetch) && decide (record.w0 = 0)
       else decide (record.kind ≠ .misalignedFetch))

/-- The invariant of every run: memory in canonical form, R3 = 0 (R24), and a latch that matches the stopped machine. -/
abbrev State.Inv (s : State) : Prop := s.mem.wf = true ∧ s.reg .cg = 0 ∧ latchMatches s = true

/-! ## Faulting -/

/-- The state a fault of kind `k` leaves: `s` with the latch set to (k, PC, w0), and nothing else changed (R200). -/
def latched (k : FaultKind) (w0 : Word) (s : State) : State :=
  { s with faultLatch := some { kind := k, pc := s.reg .pc, w0 := w0 } }

/-- The instruction `i` takes the fault `k` in `s`: nothing of it is committed. -/
def Faults (i : Instr) (s : State) (k : FaultKind) : Prop := exec i s = .next (latched k i.firstWord s)

/-! ## Completing -/

/-- The effect of an instruction that completes. -/
structure Effect where
  /-- Extension words consumed, n (R120). -/
  extWords : Nat := 0
  /-- Flags with a new value (R26). -/
  flags : FlagUpdate := {}
  /-- The auto-incremented register and its step (R112). -/
  autoInc : Option (Reg × Word) := none
  /-- The value pushed, at its width (R145, R147). -/
  push : Option (Width × Word) := none
  /-- The result, its location and its width (R121, R122). -/
  result : Option (Loc × Width × Word) := none
  /-- The new value of a taken jump or CALL (R126). -/
  newValue : Option Word := none
  deriving DecidableEq, Repr

/-- The 16-bit result if register `r` is its location (R122). -/
def Effect.resultFor (e : Effect) (r : Reg) : Option Word :=
  match e.result with
  | some (.reg r', w, v) => if r' = r then some (w.trunc v) else none
  | _ => none

/-- What auto-increment adds to register `r` (R112). -/
def Effect.incFor (e : Effect) (r : Reg) : Word :=
  match e.autoInc with
  | some (r', step) => if r' = r then step else 0
  | none => 0

/-- Each register after W1 to W3: SR with the flag updates, SP less 2 if there is a push, each plus its auto-increment
(R121, R123). -/
def Effect.midway (e : Effect) (s : State) (r : Reg) : Word :=
  (if r = .sr then e.flags.apply (s.reg .sr)
    else if r = .sp then s.reg .sp - (if e.push.isSome then 2 else 0)
    else s.reg r) + e.incFor r

/-- Each register after the instruction: the result if the register is its location, which wins over a flag update (R29)
and an auto-increment (R123, R127), else its value after W1 to W3; and PC is then advanced by 2 + 2n, or is new-value + 2
(R126). -/
def Effect.regAfter (e : Effect) (s : State) (r : Reg) : Word :=
  let v := (e.resultFor r).getD (e.midway s r)
  if r = .pc then (e.newValue.map (· + 2)).getD (v + BitVec.ofNat 16 (2 + 2 * e.extWords)) else v

/-- The byte at `a` that a store of `v` at width `w` to `ea` writes, if it writes `a` (R41, R42). -/
def storedByte (w : Width) (ea v a : Word) : Option Byte :=
  match w with
  | .byte => if a = ea then some (lowByte v) else none
  | .word => if a = ea then some (lowByte v) else if a = ea + 1 then some (highByte v) else none

/-- The byte at `a` that the result writes. -/
def Effect.resultByte (e : Effect) (a : Word) : Option Byte :=
  match e.result with
  | some (.mem ea, w, v) => storedByte w ea v a
  | _ => none

/-- The byte at `a` that the stack write, at SP after W2 and W3, writes (R121). -/
def Effect.stackByte (e : Effect) (s : State) (a : Word) : Option Byte :=
  match e.push with
  | some (w, v) => storedByte w (e.midway s .sp) v a
  | none => none

/-- Each byte after the instruction: the result's, else the stack write's, else unchanged (R56, R124). -/
def Effect.byteAfter (e : Effect) (s : State) (a : Word) : Byte :=
  (e.resultByte a).getD ((e.stackByte s a).getD (s.byte a))

/-- `exec i s` answers a next state, with every register and every byte of memory as the effect says, and the latch as it
was. -/
def Completes (i : Instr) (s : State) (e : Effect) : Prop :=
  ∃ t, exec i s = .next t ∧ t.faultLatch = s.faultLatch ∧ (∀ r, t.reg r = e.regAfter s r) ∧ ∀ a, t.byte a = e.byteAfter s a

/-- The rule of a jump (R160): on `taken` it continues at new + 2, new = pc + 2·offset, or faults if new is 0; otherwise at
pc + 2. -/
def JumpsWhen (i : Instr) (offset : BitVec 10) (s : State) (taken : Bool) : Prop :=
  let new : Word := s.reg .pc + BitVec.ofInt 16 (2 * offset.toInt)
  (taken = false → Completes i s {}) ∧ (taken = true → new = 0 → Faults i s .zeroTransferTarget) ∧
    (taken = true → new ≠ 0 → Completes i s { newValue := some new })

/-- The jump instruction of a condition (R161, R162 to R169). -/
def JumpCond.instr : JumpCond → BitVec 10 → Instr
  | .ne => .jne
  | .eq => .jeq
  | .nc => .jnc
  | .c => .jc
  | .n => .jn
  | .ge => .jge
  | .l => .jl
  | .always => .jmp

/-! ## The one effect or the one fault of an instruction -/

/-- An effect whose stack write is aligned and whose result for R3, if any, is 0; otherwise the fault of stage 5, the stack
write's first (R43, R122, R208 item 7). -/
def Effect.checked (e : Effect) (s : State) : Except FaultKind Effect :=
  if e.push.any (fun p => misaligned p.1 (e.midway s .sp)) then .error .misalignedAccess
  else if ((e.resultFor .cg).getD 0) ≠ 0 then .error .constantRegisterWrite
  else .ok e

/-- A double-operand instruction from its row of the ALU2 table: an operand's fault, or the effect of its flags and, if it
writes, its result (R119, R176). -/
def doubleOutcome (w : Width) (src : SrcOp) (dst : DstOp) (writes : Bool) (alu : Word → Word → AluResult) (s : State) :
    Except FaultKind Effect :=
  match resolveSrc w src s, resolveDst w dst s with
  | .error k, _ => .error k
  | .ok _, .error k => .error k
  | .ok sv, .ok dv =>
    let a := alu dv.val sv.val
    Effect.checked
      { extWords := sv.usesExt.toNat + dv.usesExt.toNat
        flags := a.flags
        autoInc := sv.autoInc
        result := if writes then some (dv.loc, w, a.value) else none } s

/-- RRC, SWPB, RRA or SXT from its row of the ALU1 table (R140). -/
def singleOutcome (w : Width) (op : SrcOp) (alu : Word → AluResult) (s : State) : Except FaultKind Effect :=
  match resolveSrc w op s with
  | .error k => .error k
  | .ok sv =>
    match sv.loc with
    | none => .error .noOperandLocation
    | some loc =>
      let a := alu sv.val
      Effect.checked
        { extWords := sv.usesExt.toNat, flags := a.flags, autoInc := sv.autoInc, result := some (loc, w, a.value) } s

/-- A jump (R160, decision D16). -/
def jumpOutcome (taken : Bool) (offset : BitVec 10) (s : State) : Except FaultKind Effect :=
  let new : Word := s.reg .pc + BitVec.ofInt 16 (2 * offset.toInt)
  if taken = false then .ok {}
  else if new = 0 then .error .zeroTransferTarget
  else .ok { newValue := some new }

/-- The one fault an instruction takes in `s`, or the one effect it commits there. PUSH's effect is the stack write alone
(R146). -/
def outcome (i : Instr) (s : State) : Except FaultKind Effect :=
  match i with
  | .mov w src dst => doubleOutcome w src dst true (fun _ v => { value := v, flags := {} }) s
  | .add w src dst => doubleOutcome w src dst true (fun d v => addW w d v false) s
  | .addc w src dst => doubleOutcome w src dst true (fun d v => addW w d v s.flagC) s
  | .subc w src dst => doubleOutcome w src dst true (fun d v => subW w d v (!s.flagC)) s
  | .sub w src dst => doubleOutcome w src dst true (fun d v => subW w d v false) s
  | .cmp w src dst => doubleOutcome w src dst false (fun d v => subW w d v false) s
  | .dadd _ => .error .unsupportedOpcode
  | .bit w src dst => doubleOutcome w src dst false (andW w) s
  | .bic w src dst => doubleOutcome w src dst true (bicW w) s
  | .bis w src dst => doubleOutcome w src dst true bisW s
  | .xor w src dst => doubleOutcome w src dst true (xorW w) s
  | .and w src dst => doubleOutcome w src dst true (andW w) s
  | .rrc w op => singleOutcome w op (fun v => rrcW w v s.flagC) s
  | .swpb op => singleOutcome .word op swpbW s
  | .rra w op => singleOutcome w op (rraW w) s
  | .sxt op => singleOutcome .word op sxtW s
  | .push w op =>
    match resolveSrc w op s with
    | .error k => .error k
    | .ok sv =>
      if pushUnsettled w op then .error .unsettledStackForm
      else Effect.checked { extWords := sv.usesExt.toNat, autoInc := sv.autoInc, push := some (w, sv.val) } s
  | .call op =>
    match resolveSrc .word op s with
    | .error k => .error k
    | .ok sv =>
      if op = .indirectInc .sp then .error .unsettledStackForm
      else if sv.val = 0 then .error .zeroTransferTarget
      else
        Effect.checked
          { extWords := sv.usesExt.toNat
            autoInc := sv.autoInc
            push := some (.word, s.reg .pc + 2)
            newValue := some sv.val } s
  | .reti _ => .error .unsupportedOpcode
  | .jne offset => jumpOutcome (JumpCond.ne.holds s) offset s
  | .jeq offset => jumpOutcome (JumpCond.eq.holds s) offset s
  | .jnc offset => jumpOutcome (JumpCond.nc.holds s) offset s
  | .jc offset => jumpOutcome (JumpCond.c.holds s) offset s
  | .jn offset => jumpOutcome (JumpCond.n.holds s) offset s
  | .jge offset => jumpOutcome (JumpCond.ge.holds s) offset s
  | .jl offset => jumpOutcome (JumpCond.l.holds s) offset s
  | .jmp offset => jumpOutcome (JumpCond.always.holds s) offset s

/-! ## What an instruction may write, from its syntax -/

end Sys2Proof.Machine

namespace Sys2Proof

open Machine

/-- Width, source and destination of a double-operand instruction that evaluates them (all but DADD). -/
def Instr.double? : Instr → Option (Width × SrcOp × DstOp)
  | .mov w src dst | .add w src dst | .addc w src dst | .subc w src dst | .sub w src dst | .cmp w src dst
  | .bit w src dst | .bic w src dst | .bis w src dst | .xor w src dst | .and w src dst => some (w, src, dst)
  | .dadd _ | .rrc _ _ | .swpb _ | .rra _ _ | .sxt _ | .push _ _ | .call _ | .reti _
  | .jne _ | .jeq _ | .jnc _ | .jc _ | .jn _ | .jge _ | .jl _ | .jmp _ => none

/-- Width and operand of a single-operand instruction that evaluates it (all but RETI). -/
def Instr.single? : Instr → Option (Width × SrcOp)
  | .rrc w op | .rra w op | .push w op => some (w, op)
  | .swpb op | .sxt op | .call op => some (.word, op)
  | .mov _ _ _ | .add _ _ _ | .addc _ _ _ | .subc _ _ _ | .sub _ _ _ | .cmp _ _ _ | .dadd _
  | .bit _ _ _ | .bic _ _ _ | .bis _ _ _ | .xor _ _ _ | .and _ _ _ | .reti _
  | .jne _ | .jeq _ | .jnc _ | .jc _ | .jn _ | .jge _ | .jl _ | .jmp _ => none

/-- The family of an instruction (table R66). -/
def Instr.family : Instr → Family
  | .mov _ _ _ | .add _ _ _ | .addc _ _ _ | .subc _ _ _ | .sub _ _ _ | .cmp _ _ _ | .dadd _
  | .bit _ _ _ | .bic _ _ _ | .bis _ _ _ | .xor _ _ _ | .and _ _ _ => .doubleOperand
  | .rrc _ _ | .swpb _ | .rra _ _ | .sxt _ | .push _ _ | .call _ | .reti _ => .singleOrNoOperand
  | .jne _ | .jeq _ | .jnc _ | .jc _ | .jn _ | .jge _ | .jl _ | .jmp _ => .jump

/-- The instructions that update flags (table R27). -/
def Instr.setsFlags : Instr → Bool
  | .add _ _ _ | .addc _ _ _ | .subc _ _ _ | .sub _ _ _ | .cmp _ _ _ | .bit _ _ _ | .xor _ _ _ | .and _ _ _
  | .rrc _ _ | .rra _ _ | .sxt _ => true
  | .mov _ _ _ | .bic _ _ _ | .bis _ _ _ | .dadd _ | .swpb _ | .push _ _ | .call _ | .reti _
  | .jne _ | .jeq _ | .jnc _ | .jc _ | .jn _ | .jge _ | .jl _ | .jmp _ => false

/-- The register a result goes to, if it goes to one (R116, R176). -/
def Instr.destReg : Instr → Option Reg
  | .mov _ _ (.reg r) | .add _ _ (.reg r) | .addc _ _ (.reg r) | .subc _ _ (.reg r) | .sub _ _ (.reg r)
  | .bic _ _ (.reg r) | .bis _ _ (.reg r) | .xor _ _ (.reg r) | .and _ _ (.reg r) => some r
  | .rrc _ (.reg r) | .swpb (.reg r) | .rra _ (.reg r) | .sxt (.reg r) => some r
  | _ => none

/-- The register a `@Rn+` operand increments (R112). -/
def SrcOp.incReg : SrcOp → Option Reg
  | .indirectInc r => some r
  | _ => none

/-- The source operand, or the single operand. -/
def Instr.operand? (i : Instr) : Option SrcOp :=
  (i.double?.map fun p => p.2.1).or (i.single?.map fun p => p.2)

/-- PUSH and CALL move SP and write the stack (R145, R147). -/
def Instr.pushes : Instr → Bool
  | .push _ _ | .call _ => true
  | _ => false

/-- The registers an instruction may change, PC apart: its destination register, SR if it sets flags, an auto-incremented
register, SP if it pushes. -/
def Instr.mayWrite (i : Instr) (r : Reg) : Bool :=
  decide (i.destReg = some r) || (i.setsFlags && decide (r = .sr)) ||
    decide ((i.operand?.bind SrcOp.incReg) = some r) || (i.pushes && decide (r = .sp))

end Sys2Proof

namespace Sys2Proof.Machine

/-- The effective address of a destination in memory, before the instruction (R115). -/
def dstAddr (o : DstOp) (s : State) : Option Word :=
  match o with
  | .indexed r x => some (s.reg r + x)
  | .absolute a => some a
  | .reg _ | .symbolic _ => none

end Sys2Proof.Machine

namespace Sys2Proof

open Machine

/-- Where and how wide an instruction stores: the address of its memory result, computed as stages 2 and 3 compute it, or
the decremented SP of PUSH and CALL. CMP and BIT store nothing. -/
def Instr.store? (i : Instr) (s : State) : Option (Width × Word) :=
  match i with
  | .mov w _ dst | .add w _ dst | .addc w _ dst | .subc w _ dst | .sub w _ dst
  | .bic w _ dst | .bis w _ dst | .xor w _ dst | .and w _ dst => (dstAddr dst s).map fun a => (w, a)
  | .rrc w op | .rra w op => (srcAddr op s).map fun a => (w, a)
  | .swpb op | .sxt op => (srcAddr op s).map fun a => (.word, a)
  | .push w _ => some (w, s.reg .sp - 2)
  | .call _ => some (.word, s.reg .sp - 2)
  | .cmp _ _ _ | .bit _ _ _ | .dadd _ | .reti _
  | .jne _ | .jeq _ | .jnc _ | .jc _ | .jn _ | .jge _ | .jl _ | .jmp _ => none

end Sys2Proof

namespace Sys2Proof.Machine

/-- `a` is one of the bytes stored at `ea` at width `w`. -/
def inStore (w : Width) (ea a : Word) : Bool :=
  decide (a = ea) || (decide (w = .word) && decide (a = ea + 1))

end Sys2Proof.Machine

namespace Sys2Proof.Toolchain

/-! ## What a line of a program stands for -/

/-- The instruction of a double-operand mnemonic (table R66); the encoder emits no DADD (R90). -/
def DoubleOp.instr? (op : DoubleOp) (w : Width) (src : SrcOp) (dst : DstOp) : Option Instr :=
  match op with
  | .mov => some (.mov w src dst)
  | .add => some (.add w src dst)
  | .addc => some (.addc w src dst)
  | .subc => some (.subc w src dst)
  | .sub => some (.sub w src dst)
  | .cmp => some (.cmp w src dst)
  | .dadd => none
  | .bit => some (.bit w src dst)
  | .bic => some (.bic w src dst)
  | .bis => some (.bis w src dst)
  | .xor => some (.xor w src dst)
  | .and => some (.and w src dst)

/-- The instruction of a single-operand mnemonic (table R66). -/
def SingleOp.instr : SingleOp → SrcOp → Instr
  | .rrc w => .rrc w
  | .swpb => .swpb
  | .rra w => .rra w
  | .sxt => .sxt
  | .push w => .push w
  | .call => .call

/-- The word a value stands for: itself, or its label's table value (R81, R91). -/
def Value.word? (labels : List (Label × Nat)) : Value → Option Word
  | .num v => some v
  | .label l => (labels.lookup l).map (BitVec.ofNat 16)

/-- `line`, emitted after the bytes `bs` and relocated against `labels`, leaves `bs` and adds the words of `i` and nothing
else. -/
def Emits (labels : List (Label × Nat)) (bs : List Byte) (line : Line) (i : Instr) : Prop :=
  ∃ e tail, ({ bytes := bs } : Emission).line line = .ok e ∧ resolveAll labels e.bytes e.relocs = .ok (bs ++ tail) ∧
    decodeBytes tail = .ok (i, [])

end Sys2Proof.Toolchain
end

