-- ==== Sys2Proof/Certificates/Slice0/Obligations.lean ====
section
/-! DEFINITION. The statements for the provers. A statement over all states that needs the canonical form of memory, or
R3 = 0, says so as a premise; `StepKeepsInvariant` and `ResetMeetsInvariant` say that every run has both. `Completes`,
`Faults`, `Effect` and `JumpsWhen` are in Safety.lean. -/

open Sys2Proof Sys2Proof.Machine

/-! ## Encoding -/

/-- R66, table R161: a written-out word of each of the 27 rows decodes to the instruction it stands for, each opcode number
and condition code among them, and so do words of spec/95_test_vectors.md: scenarios A, B and C, the bootstrap's jump and
`ADD #4,R5`. The opcode numbers and field positions are the spec's decision D2, the condition codes its decision D4. -/
def Obligations.WrittenWordsDecode : Prop :=
  (decode 0x40B6 0x1234 0x0002 = .ok (.mov .word (.immediate 0x1234) (.indexed .r6 2)) ∧
    decode 0x5355 0 0 = .ok (.add .byte (.const .one) (.reg .r5)) ∧
    decode 0x6405 0 0 = .ok (.addc .word (.reg .r4) (.reg .r5)) ∧
    decode 0x7536 0 0 = .ok (.subc .word (.indirectInc .r5) (.reg .r6)) ∧
    decode 0x8196 0x0002 0x0004 = .ok (.sub .word (.indexed .sp 2) (.indexed .r6 4)) ∧
    decode 0x9382 0x0300 0 = .ok (.cmp .word (.reg .cg) (.absolute 0x0300)) ∧
    decode 0xA405 0 0 = .ok (.dadd 0x405) ∧
    decode 0xB234 0 0 = .ok (.bit .word (.const .eight) (.reg .r4)) ∧
    decode 0xC312 0 0 = .ok (.bic .word (.const .one) (.reg .sr)) ∧
    decode 0xD322 0 0 = .ok (.bis .word (.const .two) (.reg .sr)) ∧
    decode 0xE335 0 0 = .ok (.xor .word (.const .minusOne) (.reg .r5)) ∧
    decode 0xFFFF 0x1234 0 = .ok (.and .byte (.indirectInc .r15) (.indexed .r15 0x1234))) ∧
  (decode 0x1005 0 0 = .ok (.rrc .word (.reg .r5)) ∧
    decode 0x10A5 0 0 = .ok (.swpb (.indirect .r5)) ∧
    decode 0x1115 0x0002 0 = .ok (.rra .word (.indexed .r5 2)) ∧
    decode 0x1184 0 0 = .ok (.sxt (.reg .r4)) ∧
    decode 0x1252 0x0300 0 = .ok (.push .byte (.absolute 0x0300)) ∧
    decode 0x12B0 0x000A 0 = .ok (.call (.immediate 0x000A)) ∧
    decode 0x1300 0 0 = .ok (.reti 0)) ∧
  (decode 0x23FD 0 0 = .ok (.jne 0x3FD) ∧
    decode 0x2404 0 0 = .ok (.jeq 4) ∧
    decode 0x2804 0 0 = .ok (.jnc 4) ∧
    decode 0x2C04 0 0 = .ok (.jc 4) ∧
    decode 0x3004 0 0 = .ok (.jn 4) ∧
    decode 0x3404 0 0 = .ok (.jge 4) ∧
    decode 0x3804 0 0 = .ok (.jl 4) ∧
    decode 0x3C00 0 0 = .ok (.jmp 0)) ∧
  decode 0x4031 0x8000 0 = .ok (.mov .word (.immediate 0x8000) (.reg .sp)) ∧
  decode 0x40B2 0x1234 0x8000 = .ok (.mov .word (.immediate 0x1234) (.absolute 0x8000)) ∧
  decode 0x8A0B 0 0 = .ok (.sub .word (.reg .r10) (.reg .r11)) ∧
  decode 0x9E0F 0 0 = .ok (.cmp .word (.reg .r14) (.reg .r15)) ∧
  decode 0x5225 0 0 = .ok (.add .word (.const .four) (.reg .r5))

/-- Decoding the bytes of any well-formed instruction, whatever bytes follow, gives the instruction back with every operand
at every value (R60 to R70). The field positions are the spec's decision D2. -/
def Obligations.DecodeOfEncodeIsTheInstruction : Prop :=
  ∀ (i : Instr) (rest : List Byte), i.wf = true → decodeBytes (encodeBytes i ++ rest) = .ok (i, rest)

/-- Any three words that decode hold, from the first on, exactly the words of the instruction they decode to, and that
instruction is well formed: no bit of a word is dropped and each instruction has one encoding. -/
def Obligations.EncodeOfDecodeIsTheWords : Prop :=
  ∀ (w0 w1 w2 : Word) (i : Instr), decode w0 w1 w2 = .ok i → i.wf = true ∧ encode i <+: [w0, w1, w2]

/-- R61: the top bits of the first word select the family of the instruction. -/
def Obligations.TopBitsSelectTheFamily : Prop :=
  ∀ (w0 w1 w2 : Word) (i : Instr), decode w0 w1 w2 = .ok i →
    (i.family = .singleOrNoOperand ↔ w0.toNat < 0x2000) ∧
    (i.family = .jump ↔ 0x2000 ≤ w0.toNat ∧ w0.toNat < 0x4000) ∧
    (i.family = .doubleOperand ↔ 0x4000 ≤ w0.toNat)

/-- The five ILLEGAL_ENCODING rows of table R72, exactly: the words that do not decode. Its two UNSUPPORTED_OPCODE rows
decode, exactly to RETI and to DADD, whose meanings raise that fault: that is the model's reading (log 5). Which words are
illegal is the spec's decisions D11 and D7. -/
def Obligations.IllegalWordsAreTheTable : Prop :=
  ∀ w0 w1 w2 : Word,
    ((∃ e, decode w0 w1 w2 = .error e) ↔
    (w0.toNat < 0x1000 ∨ (0x1400 ≤ w0.toNat ∧ w0.toNat < 0x2000) ∨ (0x1380 ≤ w0.toNat ∧ w0.toNat < 0x1400) ∨
      (0x10C0 ≤ w0.toNat ∧ w0.toNat < 0x1100) ∨ (0x11C0 ≤ w0.toNat ∧ w0.toNat < 0x1200) ∨
      (0x12C0 ≤ w0.toNat ∧ w0.toNat < 0x1300))) ∧
    ((∃ low, decode w0 w1 w2 = .ok (.reti low)) ↔ 0x1300 ≤ w0.toNat ∧ w0.toNat < 0x1380) ∧
    ((∃ fields, decode w0 w1 w2 = .ok (.dadd fields)) ↔ 0xA000 ≤ w0.toNat ∧ w0.toNat < 0xB000)

/-- R70: the length from the fields of the first word, for the instructions that evaluate their operands, and 2 for the
jumps and RETI. DADD never advances PC, and its constructor takes no word (log 5). -/
def Obligations.LengthFollowsTheFields : Prop :=
  ∀ (w0 w1 w2 : Word) (i : Instr), decode w0 w1 w2 = .ok i →
    let as := w0.toNat / 16 % 4
    let nSrc (reg : Nat) : Nat := if (as = 1 ∧ reg ≠ 3) ∨ (as = 3 ∧ reg = 0) then 1 else 0
    (i.double?.isSome = true → i.byteLength = 2 + 2 * (nSrc (w0.toNat / 256 % 16) + w0.toNat / 128 % 2)) ∧
    (i.single?.isSome = true → i.byteLength = 2 + 2 * nSrc (w0.toNat % 16)) ∧
    (i.double? = none → i.single? = none → i.byteLength = 2)

/-- R69: in the instruction fetched at PC, the source operand takes the extension word at PC + 2, and the destination the one
that the source did not use: at PC + 2 if the source took none, at PC + 4 otherwise. -/
def Obligations.SourceTakesTheFirstExtensionWord : Prop :=
  ∀ (s : State) (i : Instr), fetchDecode s = .ok i →
    (∀ w op x, i.single? = some (w, op) → op.ext = some x → x = s.word (s.reg .pc + 2)) ∧
    ∀ (w : Width) (src : SrcOp) (dst : DstOp), i.double? = some (w, src, dst) →
      (∀ x, src.ext = some x → x = s.word (s.reg .pc + 2)) ∧
      (∀ x, dst.ext = some x → src.ext = none → x = s.word (s.reg .pc + 2)) ∧
      (∀ x y, dst.ext = some x → src.ext = some y → x = s.word (s.reg .pc + 4))

/-! ## Operands -/

/-- Every form of tables R67 and R68 with its value and location (R104 to R112, R114, R115). The byte values and the step
of `@Rn+` are the spec's decisions D7 and D8, the faulting forms D6. -/
def Obligations.OperandFormsResolve : Prop :=
  ∀ (w : Width) (s : State) (r : Reg) (x v ea : Word) (k : CgConst),
    resolveSrc w (.reg r) s = .ok { loc := some (.reg r), val := w.trunc (s.reg r), usesExt := false, autoInc := none } ∧
    resolveSrc w (.immediate v) s = .ok { loc := none, val := w.trunc v, usesExt := true, autoInc := none } ∧
    resolveSrc w (.const k) s = .ok { loc := none, val := w.trunc k.value, usesExt := false, autoInc := none } ∧
    resolveSrc w (.symbolic x) s = .error .unsupportedAddressing ∧
    resolveSrc w .indirectPc s = .error .unsupportedAddressing ∧
    resolveDst w (.reg r) s = .ok { loc := .reg r, val := w.trunc (s.reg r), usesExt := false } ∧
    resolveDst w (.symbolic x) s = .error .unsupportedAddressing ∧
    (misaligned w ea = false →
      resolveSrc w (.absolute ea) s = .ok { loc := some (.mem ea), val := s.load w ea, usesExt := true, autoInc := none } ∧
      (s.reg r + x = ea →
        resolveSrc w (.indexed r x) s = .ok { loc := some (.mem ea), val := s.load w ea, usesExt := true, autoInc := none }) ∧
      (s.reg r = ea →
        resolveSrc w (.indirect r) s = .ok { loc := some (.mem ea), val := s.load w ea, usesExt := false, autoInc := none } ∧
        resolveSrc w (.indirectInc r) s =
          .ok { loc := some (.mem ea), val := s.load w ea, usesExt := false,
                autoInc := some (r, if w = .word ∨ r = .sp then 2 else 1) }) ∧
      resolveDst w (.absolute ea) s = .ok { loc := .mem ea, val := s.load w ea, usesExt := true } ∧
      (s.reg r + x = ea → resolveDst w (.indexed r x) s = .ok { loc := .mem ea, val := s.load w ea, usesExt := true }))

/-- R43, R108, R115: an operand faults exactly where its form is unsupported or its word address is odd. These faults are
the spec's decisions D6 and D17. -/
def Obligations.OperandsFaultExactlyWhere : Prop :=
  ∀ (w : Width) (s : State) (k : FaultKind),
    (∀ src : SrcOp, resolveSrc w src s = .error k ↔
      (k = .unsupportedAddressing ∧ ((∃ x, src = .symbolic x) ∨ src = .indirectPc)) ∨
      (k = .misalignedAccess ∧ w = .word ∧ ∃ ea, srcAddr src s = some ea ∧ ea.toNat % 2 = 1)) ∧
    (∀ dst : DstOp, resolveDst w dst s = .error k ↔
      (k = .unsupportedAddressing ∧ ∃ x, dst = .symbolic x) ∨
      (k = .misalignedAccess ∧ w = .word ∧ ∃ ea, dstAddr dst s = some ea ∧ ea.toNat % 2 = 1))

/-! ## Memory -/

/-- R41: a word stored at an even address is read back, by a data read and by a fetch, its low byte at `a` and its high byte
at `a + 1`, and every other byte and every register is unchanged. -/
def Obligations.WordStoreIsLittleEndian : Prop :=
  ∀ (s : State) (a v : Word), s.mem.wf = true → a.toNat % 2 = 0 →
    ∃ t, memWrite .word a v s = .ok t ∧ memRead .word a t = .ok v ∧
      memRead .byte a t = .ok (BitVec.ofNat 16 (v.toNat % 256)) ∧
      memRead .byte (a + 1) t = .ok (BitVec.ofNat 16 (v.toNat / 256)) ∧
      (s.reg .pc = a → ∃ w1 w2, fetch t = .ok (v, w1, w2)) ∧
      (∀ b, b ≠ a → b ≠ a + 1 → t.byte b = s.byte b) ∧ ∀ r, t.reg r = s.reg r

/-- R50: each read returns the value of the most recent write to that byte, in any sequence of byte writes. -/
def Obligations.ReadReturnsTheMostRecentWrite : Prop :=
  ∀ (s : State) (before : List (Word × Byte)) (a : Word) (b : Byte) (after : List (Word × Byte)), s.mem.wf = true →
    (∀ p ∈ after, p.1 ≠ a) →
    ((before ++ (a, b) :: after).foldl (fun u p => u.setByte p.1 p.2) s).byte a = b ∧
    (after.foldl (fun u p => u.setByte p.1 p.2) s).byte a = s.byte a

/-! ## Flags and arithmetic -/

/-- R26, R23: each flag with a new value is written into its bit of SR, C into bit 0, Z into bit 1, N into bit 2 and V into
bit 8, each flag without one keeps its bit, and no other bit of SR, no other register, no byte and not the latch changes;
the flags are read at the same bits. The bits of N and V are the spec's decision D3. -/
def Obligations.FlagUpdatesTouchTheirBitsOnly : Prop :=
  ∀ (u : FlagUpdate) (s : State),
    ((applyFlags u s).reg .sr).getLsbD 0 = u.c.getD ((s.reg .sr).getLsbD 0) ∧
    ((applyFlags u s).reg .sr).getLsbD 1 = u.z.getD ((s.reg .sr).getLsbD 1) ∧
    ((applyFlags u s).reg .sr).getLsbD 2 = u.n.getD ((s.reg .sr).getLsbD 2) ∧
    ((applyFlags u s).reg .sr).getLsbD 8 = u.v.getD ((s.reg .sr).getLsbD 8) ∧
    s.flagC = (s.reg .sr).getLsbD 0 ∧ s.flagZ = (s.reg .sr).getLsbD 1 ∧ s.flagN = (s.reg .sr).getLsbD 2 ∧
    s.flagV = (s.reg .sr).getLsbD 8 ∧
    (∀ k, k ≠ 0 → k ≠ 1 → k ≠ 2 → k ≠ 8 → ((applyFlags u s).reg .sr).getLsbD k = (s.reg .sr).getLsbD k) ∧
    (∀ r, r ≠ .sr → (applyFlags u s).reg r = s.reg r) ∧ (∀ a, (applyFlags u s).byte a = s.byte a) ∧
    (applyFlags u s).faultLatch = s.faultLatch

/-- R177: `AddW` is the exact sum narrowed to w bits, C the carry out of bit w − 1, and V "equals msb(d) = msb(s) and msb(r) ≠ msb(d)",
which the spec marks as derived. Z and N are its decision D9. -/
def Obligations.AddWNarrowsTheExactSum : Prop :=
  ∀ (w : Width) (d s : Word) (c : Bool), d.toNat < w.modulus → s.toNat < w.modulus →
    let a := addW w d s c
    a.value.toNat < w.modulus ∧
    a.flags.c = some (decide (w.modulus ≤ d.toNat + s.toNat + c.toNat)) ∧
    (a.flags.c = some true → a.value.toNat + w.modulus = d.toNat + s.toNat + c.toNat) ∧
    (a.flags.c = some false → a.value.toNat = d.toNat + s.toNat + c.toNat) ∧
    a.flags.v = some (decide (w.msb d = w.msb s ∧ w.msb a.value ≠ w.msb d)) ∧
    a.flags.z = some (decide (a.value.toNat = 0)) ∧
    a.flags.n = some (decide (w.modulus / 2 ≤ a.value.toNat))

/-- R178: `SubW(d, s, 1 − c)` equals `AddW(d, NOT_w(s), c)` in the result and all four flags, which the spec marks as
derived. -/
def Obligations.SubWIsAddWOfTheComplement : Prop :=
  ∀ (w : Width) (d s : Word) (c : Bool), d.toNat < w.modulus → s.toNat < w.modulus →
    subW w d s (!c) = addW w d (w.trunc (~~~s)) c

/-- R185 and R187, which the spec marks as derived: ADD then ADDC, and SUB then SUBC, on the pairs (R4:R5) and (R6:R7) are
32-bit addition and subtraction, with C the carry out of bit 31, or no borrow out of it, and V, for the sum, its signed
overflow. -/
def Obligations.MultiWordChains : Prop :=
  ∀ s : State, s.mem.wf = true →
    let x := (s.reg .r4).toNat * 65536 + (s.reg .r5).toNat
    let y := (s.reg .r6).toNat * 65536 + (s.reg .r7).toNat
    let signedX := (s.reg .r4).toInt * 65536 + ((s.reg .r5).toNat : Int)
    let signedY := (s.reg .r6).toInt * 65536 + ((s.reg .r7).toNat : Int)
    (∃ t u, exec (.add .word (.reg .r7) (.reg .r5)) s = .next t ∧ exec (.addc .word (.reg .r6) (.reg .r4)) t = .next u ∧
      (u.reg .r4).toNat * 65536 + (u.reg .r5).toNat = (x + y) % 2 ^ 32 ∧ u.flagC = decide (2 ^ 32 ≤ x + y) ∧
      u.flagV = decide (signedX + signedY < -2 ^ 31 ∨ 2 ^ 31 ≤ signedX + signedY)) ∧
    (∃ t u, exec (.sub .word (.reg .r7) (.reg .r5)) s = .next t ∧ exec (.subc .word (.reg .r6) (.reg .r4)) t = .next u ∧
      (u.reg .r4).toNat * 65536 + (u.reg .r5).toNat = (x + 2 ^ 32 - y) % 2 ^ 32 ∧ u.flagC = decide (y ≤ x))

/-! ## Double-operand instructions

Each holds for every source and destination form: where an operand does not resolve, `OperandFaultsAreLatched` says what
happens. `Effect` gives every register and every byte, so each of these is also the instruction's frame. -/

/-- R180: MOV writes the source value to the destination and no flag (decision D10); a nonzero value for R3 faults (decision
D5). Byte semantics are decision D7. -/
def Obligations.MovWritesTheSourceValue : Prop :=
  ∀ (w : Width) (src : SrcOp) (dst : DstOp) (s : State) (sv : SrcStage) (dv : DstStage), s.mem.wf = true →
    resolveSrc w src s = .ok sv → resolveDst w dst s = .ok dv →
    ((dst = .reg .cg → sv.val = 0) →
      Completes (.mov w src dst) s
        { extWords := sv.usesExt.toNat + dv.usesExt.toNat, autoInc := sv.autoInc, result := some (dv.loc, w, sv.val) }) ∧
    (dst = .reg .cg → sv.val ≠ 0 → Faults (.mov w src dst) s .constantRegisterWrite)

/-- R182, R177: ADD writes dst + src mod 2^w and the four flags (Z and N: decision D9). -/
def Obligations.AddWritesTheSum : Prop :=
  ∀ (w : Width) (src : SrcOp) (dst : DstOp) (s : State) (sv : SrcStage) (dv : DstStage), s.mem.wf = true →
    resolveSrc w src s = .ok sv → resolveDst w dst s = .ok dv →
    let exact := dv.val.toNat + sv.val.toNat
    let signedExact := w.signed dv.val + w.signed sv.val
    let r := BitVec.ofNat 16 (exact % w.modulus)
    ((dst = .reg .cg → r = 0) →
      Completes (.add w src dst) s
        { extWords := sv.usesExt.toNat + dv.usesExt.toNat, autoInc := sv.autoInc, result := some (dv.loc, w, r)
          flags := { c := some (decide (w.modulus ≤ exact)), z := some (decide (r = 0)), n := some (w.msb r)
                     v := some (decide (signedExact < -(w.modulus / 2 : Int) ∨ (w.modulus / 2 : Int) - 1 < signedExact)) } }) ∧
    (dst = .reg .cg → r ≠ 0 → Faults (.add w src dst) s .constantRegisterWrite)

/-- R184, R177: ADDC writes dst + src + C mod 2^w and the four flags (the carry-in, Z and N: decision D9). -/
def Obligations.AddcWritesTheSumWithCarry : Prop :=
  ∀ (w : Width) (src : SrcOp) (dst : DstOp) (s : State) (sv : SrcStage) (dv : DstStage), s.mem.wf = true →
    resolveSrc w src s = .ok sv → resolveDst w dst s = .ok dv →
    let c : Nat := if s.flagC then 1 else 0
    let exact := dv.val.toNat + sv.val.toNat + c
    let signedExact := w.signed dv.val + w.signed sv.val + (c : Int)
    let r := BitVec.ofNat 16 (exact % w.modulus)
    ((dst = .reg .cg → r = 0) →
      Completes (.addc w src dst) s
        { extWords := sv.usesExt.toNat + dv.usesExt.toNat, autoInc := sv.autoInc, result := some (dv.loc, w, r)
          flags := { c := some (decide (w.modulus ≤ exact)), z := some (decide (r = 0)), n := some (w.msb r)
                     v := some (decide (signedExact < -(w.modulus / 2 : Int) ∨ (w.modulus / 2 : Int) - 1 < signedExact)) } }) ∧
    (dst = .reg .cg → r ≠ 0 → Faults (.addc w src dst) s .constantRegisterWrite)

/-- R186, R178: SUBC writes dst − src − (1 − C) mod 2^w; C is "NOT borrow-occurred" (the borrow-in, V, Z and N: decision
D9). -/
def Obligations.SubcWritesTheDifferenceWithBorrow : Prop :=
  ∀ (w : Width) (src : SrcOp) (dst : DstOp) (s : State) (sv : SrcStage) (dv : DstStage), s.mem.wf = true →
    resolveSrc w src s = .ok sv → resolveDst w dst s = .ok dv →
    let b : Int := if s.flagC then 0 else 1
    let exact := (dv.val.toNat : Int) - (sv.val.toNat : Int) - b
    let signedExact := w.signed dv.val - w.signed sv.val - b
    let r := BitVec.ofInt 16 (exact % (w.modulus : Int))
    ((dst = .reg .cg → r = 0) →
      Completes (.subc w src dst) s
        { extWords := sv.usesExt.toNat + dv.usesExt.toNat, autoInc := sv.autoInc, result := some (dv.loc, w, r)
          flags := { c := some (decide (0 ≤ exact)), z := some (decide (r = 0)), n := some (w.msb r)
                     v := some (decide (signedExact < -(w.modulus / 2 : Int) ∨ (w.modulus / 2 : Int) - 1 < signedExact)) } }) ∧
    (dst = .reg .cg → r ≠ 0 → Faults (.subc w src dst) s .constantRegisterWrite)

/-- R188, R178, R189: SUB writes dst − src mod 2^w; C is 1 exactly when dst ≥ src unsigned (V, Z and N: decision D9). -/
def Obligations.SubWritesTheDifference : Prop :=
  ∀ (w : Width) (src : SrcOp) (dst : DstOp) (s : State) (sv : SrcStage) (dv : DstStage), s.mem.wf = true →
    resolveSrc w src s = .ok sv → resolveDst w dst s = .ok dv →
    let exact := (dv.val.toNat : Int) - (sv.val.toNat : Int)
    let signedExact := w.signed dv.val - w.signed sv.val
    let r := BitVec.ofInt 16 (exact % (w.modulus : Int))
    ((dst = .reg .cg → r = 0) →
      Completes (.sub w src dst) s
        { extWords := sv.usesExt.toNat + dv.usesExt.toNat, autoInc := sv.autoInc, result := some (dv.loc, w, r)
          flags := { c := some (decide (sv.val.toNat ≤ dv.val.toNat)), z := some (decide (r = 0)), n := some (w.msb r)
                     v := some (decide (signedExact < -(w.modulus / 2 : Int) ∨ (w.modulus / 2 : Int) - 1 < signedExact)) } }) ∧
    (dst = .reg .cg → r ≠ 0 → Faults (.sub w src dst) s .constantRegisterWrite)

/-- R190, R191: CMP sets the flags of the difference and writes no result, whatever its destination (V, Z and N: decision
D9). -/
def Obligations.CmpSetsTheFlagsOnly : Prop :=
  ∀ (w : Width) (src : SrcOp) (dst : DstOp) (s : State) (sv : SrcStage) (dv : DstStage), s.mem.wf = true →
    resolveSrc w src s = .ok sv → resolveDst w dst s = .ok dv →
    let signedExact := w.signed dv.val - w.signed sv.val
    let r := BitVec.ofInt 16 (((dv.val.toNat : Int) - (sv.val.toNat : Int)) % (w.modulus : Int))
    Completes (.cmp w src dst) s
      { extWords := sv.usesExt.toNat + dv.usesExt.toNat, autoInc := sv.autoInc
        flags := { c := some (decide (sv.val.toNat ≤ dv.val.toNat)), z := some (decide (sv.val = dv.val)), n := some (w.msb r)
                   v := some (decide (signedExact < -(w.modulus / 2 : Int) ∨ (w.modulus / 2 : Int) - 1 < signedExact)) } }

/-- R193: BIT sets the flags of src AND dst and writes no result (decision D10; Z and N: decision D9). -/
def Obligations.BitSetsTheFlagsOnly : Prop :=
  ∀ (w : Width) (src : SrcOp) (dst : DstOp) (s : State) (sv : SrcStage) (dv : DstStage), s.mem.wf = true →
    resolveSrc w src s = .ok sv → resolveDst w dst s = .ok dv →
    let r := sv.val &&& dv.val
    Completes (.bit w src dst) s
      { extWords := sv.usesExt.toNat + dv.usesExt.toNat, autoInc := sv.autoInc
        flags := { c := some (decide (r ≠ 0)), z := some (decide (r = 0)), n := some (w.msb sv.val && w.msb dv.val), v := some false } }

/-- R194: BIC writes (NOT src) AND dst and touches no flag. -/
def Obligations.BicClearsTheSourceBits : Prop :=
  ∀ (w : Width) (src : SrcOp) (dst : DstOp) (s : State) (sv : SrcStage) (dv : DstStage), s.mem.wf = true →
    resolveSrc w src s = .ok sv → resolveDst w dst s = .ok dv →
    let r := ~~~sv.val &&& dv.val
    ((dst = .reg .cg → r = 0) →
      Completes (.bic w src dst) s
        { extWords := sv.usesExt.toNat + dv.usesExt.toNat, autoInc := sv.autoInc, result := some (dv.loc, w, r) }) ∧
    (dst = .reg .cg → r ≠ 0 → Faults (.bic w src dst) s .constantRegisterWrite)

/-- R195: BIS writes src OR dst and touches no flag. -/
def Obligations.BisSetsTheSourceBits : Prop :=
  ∀ (w : Width) (src : SrcOp) (dst : DstOp) (s : State) (sv : SrcStage) (dv : DstStage), s.mem.wf = true →
    resolveSrc w src s = .ok sv → resolveDst w dst s = .ok dv →
    let r := sv.val ||| dv.val
    ((dst = .reg .cg → r = 0) →
      Completes (.bis w src dst) s
        { extWords := sv.usesExt.toNat + dv.usesExt.toNat, autoInc := sv.autoInc, result := some (dv.loc, w, r) }) ∧
    (dst = .reg .cg → r ≠ 0 → Faults (.bis w src dst) s .constantRegisterWrite)

/-- R196: XOR writes src XOR dst; V is set exactly when both sign bits are (Z and N: decision D9). -/
def Obligations.XorWritesTheExclusiveOr : Prop :=
  ∀ (w : Width) (src : SrcOp) (dst : DstOp) (s : State) (sv : SrcStage) (dv : DstStage), s.mem.wf = true →
    resolveSrc w src s = .ok sv → resolveDst w dst s = .ok dv →
    let r := sv.val ^^^ dv.val
    ((dst = .reg .cg → r = 0) →
      Completes (.xor w src dst) s
        { extWords := sv.usesExt.toNat + dv.usesExt.toNat, autoInc := sv.autoInc, result := some (dv.loc, w, r)
          flags := { c := some (decide (sv.val ≠ dv.val)), z := some (decide (sv.val = dv.val))
                     n := some (w.msb sv.val ^^ w.msb dv.val), v := some (w.msb sv.val && w.msb dv.val) } }) ∧
    (dst = .reg .cg → r ≠ 0 → Faults (.xor w src dst) s .constantRegisterWrite)

/-- R197: AND writes src AND dst; "carry = result≠0; overflow forced false" (Z and N: decision D9). -/
def Obligations.AndWritesTheConjunction : Prop :=
  ∀ (w : Width) (src : SrcOp) (dst : DstOp) (s : State) (sv : SrcStage) (dv : DstStage), s.mem.wf = true →
    resolveSrc w src s = .ok sv → resolveDst w dst s = .ok dv →
    let r := sv.val &&& dv.val
    ((dst = .reg .cg → r = 0) →
      Completes (.and w src dst) s
        { extWords := sv.usesExt.toNat + dv.usesExt.toNat, autoInc := sv.autoInc, result := some (dv.loc, w, r)
          flags := { c := some (decide (r ≠ 0)), z := some (decide (r = 0)), n := some (w.msb sv.val && w.msb dv.val), v := some false } }) ∧
    (dst = .reg .cg → r ≠ 0 → Faults (.and w src dst) s .constantRegisterWrite)

/-- R192: DADD faults with UNSUPPORTED_OPCODE whatever its operand fields, and so does a step on any of its 4096 words,
before any operand is resolved; nothing but the latch changes. -/
def Obligations.DaddIsUnsupported : Prop :=
  (∀ (fields : BitVec 12) (s : State), exec (.dadd fields) s =
    .next { s with faultLatch := some { kind := .unsupportedOpcode, pc := s.reg .pc, w0 := BitVec.ofNat 16 (0xA000 + fields.toNat) } }) ∧
  ∀ s : State, s.faultLatch = none → (s.reg .pc).toNat % 2 = 0 →
    0xA000 ≤ (s.word (s.reg .pc)).toNat → (s.word (s.reg .pc)).toNat < 0xB000 →
    step s = .next { s with faultLatch := some { kind := .unsupportedOpcode, pc := s.reg .pc, w0 := s.word (s.reg .pc) } }

/-! ## Single-operand instructions -/

/-- R141: RRC shifts right, the old carry entering at bit w − 1 and bit 0 leaving into C; V is 0 (Z, N: decision D9; the
byte form: D7); an operand with no location faults (D12). -/
def Obligations.RrcRotatesThroughCarry : Prop :=
  ∀ (w : Width) (op : SrcOp) (s : State) (sv : SrcStage), s.mem.wf = true → resolveSrc w op s = .ok sv →
    let r := BitVec.ofNat 16 (sv.val.toNat / 2 + (if s.flagC then w.modulus / 2 else 0))
    (sv.loc = none → Faults (.rrc w op) s .noOperandLocation) ∧
    (∀ loc, sv.loc = some loc → (loc = .reg .cg → r = 0) →
      Completes (.rrc w op) s
        { extWords := sv.usesExt.toNat, autoInc := sv.autoInc, result := some (loc, w, r)
          flags := { c := some (decide (sv.val.toNat % 2 = 1)), z := some (decide (r = 0)), n := some s.flagC, v := some false } }) ∧
    (sv.loc = some (.reg .cg) → r ≠ 0 → Faults (.rrc w op) s .constantRegisterWrite)

/-- R142: SWPB swaps the two bytes of a word and touches no flag; an operand with no location faults (D12). -/
def Obligations.SwpbSwapsTheBytes : Prop :=
  ∀ (op : SrcOp) (s : State) (sv : SrcStage), s.mem.wf = true → resolveSrc .word op s = .ok sv →
    let r := BitVec.ofNat 16 (sv.val.toNat % 256 * 256 + sv.val.toNat / 256)
    (sv.loc = none → Faults (.swpb op) s .noOperandLocation) ∧
    (∀ loc, sv.loc = some loc → (loc = .reg .cg → r = 0) →
      Completes (.swpb op) s { extWords := sv.usesExt.toNat, autoInc := sv.autoInc, result := some (loc, .word, r) }) ∧
    (sv.loc = some (.reg .cg) → r ≠ 0 → Faults (.swpb op) s .constantRegisterWrite)

/-- R143: RRA shifts right keeping the sign bit, bit 0 leaving into C; V is 0 (Z, N: decision D9; the byte form: D7); an
operand with no location faults (D12). -/
def Obligations.RraShiftsKeepingTheSign : Prop :=
  ∀ (w : Width) (op : SrcOp) (s : State) (sv : SrcStage), s.mem.wf = true → resolveSrc w op s = .ok sv →
    let r := BitVec.ofNat 16 (sv.val.toNat / 2 + (if w.msb sv.val then w.modulus / 2 else 0))
    (sv.loc = none → Faults (.rra w op) s .noOperandLocation) ∧
    (∀ loc, sv.loc = some loc → (loc = .reg .cg → r = 0) →
      Completes (.rra w op) s
        { extWords := sv.usesExt.toNat, autoInc := sv.autoInc, result := some (loc, w, r)
          flags := { c := some (decide (sv.val.toNat % 2 = 1)), z := some (decide (r = 0)), n := some (w.msb sv.val), v := some false } }) ∧
    (sv.loc = some (.reg .cg) → r ≠ 0 → Faults (.rra w op) s .constantRegisterWrite)

/-- R144: SXT sign-extends the low byte; "carry = result≠0" (Z, N, V: decision D9); an operand with no location faults
(D12). -/
def Obligations.SxtExtendsTheSign : Prop :=
  ∀ (op : SrcOp) (s : State) (sv : SrcStage), s.mem.wf = true → resolveSrc .word op s = .ok sv →
    let low := sv.val.toNat % 256
    let r := BitVec.ofNat 16 (if low < 128 then low else 0xFF00 + low)
    (sv.loc = none → Faults (.sxt op) s .noOperandLocation) ∧
    (∀ loc, sv.loc = some loc → (loc = .reg .cg → r = 0) →
      Completes (.sxt op) s
        { extWords := sv.usesExt.toNat, autoInc := sv.autoInc, result := some (loc, .word, r)
          flags := { c := some (decide (low ≠ 0)), z := some (decide (low = 0)), n := some (decide (128 ≤ low)), v := some false } }) ∧
    (sv.loc = some (.reg .cg) → r ≠ 0 → Faults (.sxt op) s .constantRegisterWrite)

/-- R145, R146: PUSH stores the operand at SP − 2, changes no flag, and its duplicate writeback changes nothing; the forms
the spec does not settle fault, and an odd SP faults at word width (decisions D13, D17). In a state with R3 = 0, as in every
run (`StepKeepsInvariant`). -/
def Obligations.PushStoresTheOperand : Prop :=
  ∀ (w : Width) (op : SrcOp) (s : State) (sv : SrcStage), s.mem.wf = true → s.reg .cg = 0 → resolveSrc w op s = .ok sv →
    let unsettled := op = .reg .sp ∨ op = .indirectInc .sp ∨ (w = .byte ∧ ∃ r, op = .reg r)
    let oddStack := w = .word ∧ (s.reg .sp).toNat % 2 = 1
    (unsettled → Faults (.push w op) s .unsettledStackForm) ∧
    (¬unsettled → oddStack → Faults (.push w op) s .misalignedAccess) ∧
    (¬unsettled → ¬oddStack →
      Completes (.push w op) s { extWords := sv.usesExt.toNat, autoInc := sv.autoInc, push := some (w, sv.val) })

/-- R147: CALL stores the return address pc + 2 at SP − 2 and continues at the operand value + 2, changing no flag and not its
operand (decision D14); CALL @SP+, a zero target and an odd SP fault, in that order (decisions D13, D16, D17). -/
def Obligations.CallStoresTheReturnAddress : Prop :=
  ∀ (op : SrcOp) (s : State) (sv : SrcStage), s.mem.wf = true → resolveSrc .word op s = .ok sv →
    let oddStack := (s.reg .sp).toNat % 2 = 1
    (op = .indirectInc .sp → Faults (.call op) s .unsettledStackForm) ∧
    (op ≠ .indirectInc .sp → sv.val = 0 → Faults (.call op) s .zeroTransferTarget) ∧
    (op ≠ .indirectInc .sp → sv.val ≠ 0 → oddStack → Faults (.call op) s .misalignedAccess) ∧
    (op ≠ .indirectInc .sp → sv.val ≠ 0 → ¬oddStack →
      Completes (.call op) s
        { extWords := sv.usesExt.toNat, autoInc := sv.autoInc, push := some (.word, s.reg .pc + 2), newValue := some sv.val })

/-- R149: RETI faults with UNSUPPORTED_OPCODE whatever its low bits, and so does a step on any of its 128 words; nothing but
the latch changes. -/
def Obligations.RetiIsUnsupported : Prop :=
  (∀ (low : BitVec 7) (s : State), exec (.reti low) s =
    .next { s with faultLatch := some { kind := .unsupportedOpcode, pc := s.reg .pc, w0 := BitVec.ofNat 16 (0x1300 + low.toNat) } }) ∧
  ∀ s : State, s.faultLatch = none → (s.reg .pc).toNat % 2 = 0 →
    0x1300 ≤ (s.word (s.reg .pc)).toNat → (s.word (s.reg .pc)).toNat < 0x1380 →
    step s = .next { s with faultLatch := some { kind := .unsupportedOpcode, pc := s.reg .pc, w0 := s.word (s.reg .pc) } }

/-! ## Jumps -/

/-- R160, R161, R162 to R169: the eight jumps, taken and not taken, with their conditions on SR before the instruction. A
taken jump to a zero new value faults (decision D16). -/
def Obligations.JumpsFollowTheirConditions : Prop :=
  ∀ (offset : BitVec 10) (s : State),
    JumpsWhen (.jne offset) offset s (!s.flagZ) ∧ JumpsWhen (.jeq offset) offset s s.flagZ ∧
    JumpsWhen (.jnc offset) offset s (!s.flagC) ∧ JumpsWhen (.jc offset) offset s s.flagC ∧
    JumpsWhen (.jn offset) offset s s.flagN ∧ JumpsWhen (.jge offset) offset s (s.flagN == s.flagV) ∧
    JumpsWhen (.jl offset) offset s (s.flagN != s.flagV) ∧ JumpsWhen (.jmp offset) offset s true

/-! ## Faults -/

/-- R208 items 4 and 5, R200: an operand that faults is the instruction's fault, the source's before the destination's and
both before anything of stage 4 or 5. The order is the spec's decision D18. -/
def Obligations.OperandFaultsAreLatched : Prop :=
  ∀ (i : Instr) (s : State) (k : FaultKind),
    (∀ w src dst, i.double? = some (w, src, dst) → resolveSrc w src s = .error k → Faults i s k) ∧
    (∀ w src dst sv, i.double? = some (w, src, dst) → resolveSrc w src s = .ok sv → resolveDst w dst s = .error k →
      Faults i s k) ∧
    (∀ w op, i.single? = some (w, op) → resolveSrc w op s = .error k → Faults i s k)

/-- R45, R119, R121, R200: every instruction takes the one fault that `outcome` names, with nothing of it committed, or
commits the whole of the one effect that `outcome` names: its flags, its auto-increment, its stack write, its result and its
transfer, with every other register, byte and the latch unchanged. In a state with R3 = 0, as in every run
(`StepKeepsInvariant`). The formulas of each effect are the ALU tables', stated one by one above. -/
def Obligations.ExecIsAllOrNothing : Prop :=
  ∀ (i : Instr) (s : State), s.mem.wf = true → s.reg .cg = 0 →
    (∀ k, outcome i s = .error k → Faults i s k) ∧ ∀ e, outcome i s = .ok e → Completes i s e

/-! ## The step -/

/-- R130: where the latch is clear, PC is even and the three words at PC decode to `i`, a step is `exec i`; nothing stands
around it. -/
def Obligations.StepRunsTheDecodedInstruction : Prop :=
  ∀ (s : State) (i : Instr), s.faultLatch = none → (s.reg .pc).toNat % 2 = 0 →
    decode (s.word (s.reg .pc)) (s.word (s.reg .pc + 2)) (s.word (s.reg .pc + 4)) = .ok i → step s = exec i s

/-- R101, R102: an odd PC faults before any word is used, with w0 = 0 (decision D17), and three words that are no instruction
fault with ILLEGAL_ENCODING (decision D11). -/
def Obligations.StepFaultsBeforeAnyInstruction : Prop :=
  ∀ s : State, s.faultLatch = none →
    ((s.reg .pc).toNat % 2 = 1 →
      step s = .next { s with faultLatch := some { kind := .misalignedFetch, pc := s.reg .pc, w0 := 0 } }) ∧
    (∀ e, (s.reg .pc).toNat % 2 = 0 →
      decode (s.word (s.reg .pc)) (s.word (s.reg .pc + 2)) (s.word (s.reg .pc + 4)) = .error e →
      step s = .next { s with faultLatch := some { kind := .illegalEncoding, pc := s.reg .pc, w0 := s.word (s.reg .pc) } })

/-- R200, R201, R207: a running machine always answers a next state; it still runs, or nothing but the latch changed, and the
record holds PC and the word at PC, or 0 for MISALIGNED_FETCH, which is the fault of an odd PC and of nothing else. The
record's contents are the spec's decision D18. -/
def Obligations.StepFaultsArePrecise : Prop :=
  ∀ s : State, s.faultLatch = none → ∃ t, step s = .next t ∧
    (t.faultLatch = none ∨ ∃ k, (k = .misalignedFetch ↔ (s.reg .pc).toNat % 2 = 1) ∧
      t = { s with faultLatch := some { kind := k, pc := s.reg .pc,
                                        w0 := if (s.reg .pc).toNat % 2 = 1 then 0 else s.word (s.reg .pc) } })

/-- R204: a fault leaves the committed state untouched; after it the machine refuses to step, every execute call returns the
state unchanged, no host operation changes the latch, and construction clears it. -/
def Obligations.StoppedMachineStaysStopped : Prop :=
  (∀ s t : State, s.faultLatch = none → step s = .next t → t.faultLatch ≠ none → t.regs = s.regs ∧ t.mem = s.mem) ∧
  (∀ (s : State) (record : FaultRecord), s.faultLatch = some record →
    step s = .fault (.stopped record) ∧ executeOne s = s ∧ (∀ k, executeN k s = s) ∧
      ∀ ops, (HostOp.applyAll ops s).faultLatch = some record) ∧
  ∀ (image : List Byte) (t : State), construct image = some t → t.faultLatch = none

/-! ## Invariants -/

/-- The invariant holds at reset. -/
def Obligations.ResetMeetsInvariant : Prop := State.reset.Inv

/-- Every step keeps the invariant: memory in canonical form, R3 = 0 (R24), and a latch that matches the stopped machine
(R200, R207). From every state that meets it, reachable or not. -/
def Obligations.StepKeepsInvariant : Prop :=
  ∀ s t : State, s.Inv → step s = .next t → t.Inv

/-- Construction from any image gives a state that meets the invariant, each host operation keeps it from every state that
meets it, execute-one and execute-N among them, and so does any sequence of them. -/
def Obligations.HostRunsKeepInvariant : Prop :=
  (∀ (image : List Byte) (s : State), construct image = some s → s.Inv) ∧
  (∀ (s : State) (op : HostOp), s.Inv → (op.apply s).Inv) ∧
  ∀ (s : State) (ops : List HostOp), s.Inv → (HostOp.applyAll ops s).Inv

/-! ## Frames -/

/-- Every register but PC is unchanged by an instruction that does not name it as its destination register, its
auto-incremented register, SR of a flag-setting instruction, or SP of PUSH and CALL (R21, R26, R112, R145, R147, R176). -/
def Obligations.OnlyNamedRegistersChange : Prop :=
  ∀ (i : Instr) (s t : State) (r : Reg), i.wf = true → s.mem.wf = true → exec i s = .next t → r ≠ .pc → i.mayWrite r = false →
    t.reg r = s.reg r

/-- Every byte outside the bytes an instruction stores is unchanged: the bytes at its memory destination or operand, computed
as stages 2 and 3 compute it, or at SP − 2 for PUSH and CALL; every byte for a form that stores nothing (R44). PUSH's
duplicate writeback changes no byte (R146). -/
def Obligations.OnlyStoredBytesChange : Prop :=
  ∀ (i : Instr) (s t : State) (a : Word), i.wf = true → s.mem.wf = true → exec i s = .next t →
    (∀ w ea, i.store? s = some (w, ea) → inStore w ea a = false) → t.byte a = s.byte a

/-- Table R27, R26: an instruction whose destination is not SR changes no bit of SR but C, Z, N and V (bits 0, 1, 2 and 8),
and none at all unless it is one of the eleven that set flags. The bits of N and V are the spec's decision D3. -/
def Obligations.OnlyNamedFlagsChange : Prop :=
  ∀ (i : Instr) (s t : State), i.wf = true → s.mem.wf = true → exec i s = .next t → i.destReg ≠ some .sr →
    (∀ k, k ≠ 0 → k ≠ 1 → k ≠ 2 → k ≠ 8 → (t.reg .sr).getLsbD k = (s.reg .sr).getLsbD k) ∧
    (i.setsFlags = false → t.reg .sr = s.reg .sr)

/-! ## Programs' idioms -/

/-- R171, which the spec marks as derived: `JMP $` (0x3FFF) leaves the whole state unchanged at any even PC but 0x0002, where
it faults. -/
def Obligations.SelfJumpIsAFixedPoint : Prop :=
  ∀ s : State, s.faultLatch = none → (s.reg .pc).toNat % 2 = 0 → s.word (s.reg .pc) = 0x3FFF →
    (s.reg .pc ≠ 2 → step s = .next s) ∧
    (s.reg .pc = 2 → step s = .next { s with faultLatch := some { kind := .zeroTransferTarget, pc := 2, w0 := 0x3FFF } })

/-- R148, R181, which the spec marks as derived: `MOV @SP+,PC`, run on the stack a CALL left, continues at the CALL's address
+ 4 with SP as before the CALL: the next instruction after a 4-byte CALL, and 2 bytes past it after a 2-byte one. -/
def Obligations.ReturnContinuesAfterTheCall : Prop :=
  ∀ (s t u : State) (op : SrcOp) (sv : SrcStage), s.mem.wf = true → u.mem.wf = true → (s.reg .sp).toNat % 2 = 0 →
    op.wf = true → op ≠ .indirectInc .sp → resolveSrc .word op s = .ok sv → sv.val ≠ 0 →
    exec (.call op) s = .next t → u.reg .sp = t.reg .sp → u.word (u.reg .sp) = t.word (t.reg .sp) →
    t.reg .pc = sv.val + 2 ∧
    ∃ x, exec (.mov .word (.indirectInc .sp) (.reg .pc)) u = .next x ∧ x.reg .pc = s.reg .pc + 4 ∧ x.reg .sp = s.reg .sp

/-- R164, R165, R167, R168: after CMP src,dst the conditions compare dst with src: JC and JNC unsigned, JGE and JL signed,
JEQ and JNE for equality. -/
def Obligations.CompareThenBranch : Prop :=
  ∀ (w : Width) (src : SrcOp) (dst : DstOp) (s : State) (sv : SrcStage) (dv : DstStage), s.mem.wf = true → src.wf = true →
    resolveSrc w src s = .ok sv → resolveDst w dst s = .ok dv →
    ∃ t, exec (.cmp w src dst) s = .next t ∧
      JumpCond.c.holds t = decide (sv.val.toNat ≤ dv.val.toNat) ∧ JumpCond.nc.holds t = decide (dv.val.toNat < sv.val.toNat) ∧
      JumpCond.ge.holds t = decide (w.signed sv.val ≤ w.signed dv.val) ∧
      JumpCond.l.holds t = decide (w.signed dv.val < w.signed sv.val) ∧
      JumpCond.eq.holds t = decide (dv.val = sv.val) ∧ JumpCond.ne.holds t = decide (dv.val ≠ sv.val)

/-- R53, R231, which the spec marks as derived: `MOV R4,&a`, with a the address of the next instruction, completes, and the
next step fetches the stored word: where it decodes to `i`, the step is `exec i`. -/
def Obligations.StoreIsSeenByTheNextFetch : Prop :=
  ∀ s : State, s.mem.wf = true → s.faultLatch = none → (s.reg .pc).toNat % 2 = 0 →
    ∃ t, exec (.mov .word (.reg .r4) (.absolute (s.reg .pc + 4))) s = .next t ∧ t.reg .pc = s.reg .pc + 4 ∧
      ∀ i, decode (s.reg .r4) (t.word (s.reg .pc + 6)) (t.word (s.reg .pc + 8)) = .ok i → step t = exec i t

/-! ## Reset and the host -/

/-- R37: after construction with no image byte, every register is 0, every byte is 0 and the latch is clear. -/
def Obligations.ResetLeavesZeros : Prop :=
  (∀ r, State.reg State.reset r = 0) ∧ (∀ a, State.byte State.reset a = 0) ∧ State.reset.faultLatch = none ∧
    construct [] = some State.reset ∧ core.reset = State.reset

/-- R225, R37: construction puts image byte a at address a and zero after the image, clears every register and the latch, and
refuses an image over 65536 bytes (the refusal and the zeros past the image are decision D21). -/
def Obligations.ConstructionPlacesTheImage : Prop :=
  ∀ image : List Byte,
    (65536 < image.length → construct image = none) ∧
    (image.length ≤ 65536 → ∃ s, construct image = some s ∧ s.mem.wf = true ∧ (∀ r, s.reg r = 0) ∧ s.faultLatch = none ∧
      ∀ a : Word, s.byte a = image.getD a.toNat 0)

/-- R214: execute-N(k) equals k execute-one calls. -/
def Obligations.ExecuteNIsNExecuteOnes : Prop :=
  ∀ (s : State) (k : Nat), executeN k s = executeOne^[k] s

/-- R55, R215, R218: the switch and button accessors write the bytes 0x8A00 to 0x8A02 and change nothing else, and the LED and
framebuffer accessors read the bytes at 0x8A04, 0x8A05 and 0x8000 to 0x895F. That the host writes nothing else is decision
D19. -/
def Obligations.HostAccessorsTouchTheirBytes : Prop :=
  ∀ (s : State) (v : Word) (b : Byte), s.mem.wf = true →
    (writeSwitch v s).word 0x8A00 = v ∧ (∀ a, a ≠ 0x8A00 → a ≠ 0x8A01 → (writeSwitch v s).byte a = s.byte a) ∧
    (∀ r, (writeSwitch v s).reg r = s.reg r) ∧ (writeSwitch v s).faultLatch = s.faultLatch ∧
    (writeButton b s).byte 0x8A02 = b ∧ (∀ a, a ≠ 0x8A02 → (writeButton b s).byte a = s.byte a) ∧
    (∀ r, (writeButton b s).reg r = s.reg r) ∧ (writeButton b s).faultLatch = s.faultLatch ∧
    readLed s = s.word 0x8A04 ∧
    (readFramebuffer s).length = 2400 ∧
    ∀ k, k < 2400 → (readFramebuffer s)[k]? = some (s.byte (BitVec.ofNat 16 (0x8000 + k)))

/-! ## The toolchain -/

/-- R81, R82, R83, R67, R68: the fields and the extension word the encoder gives an operand decode to the operand meant. An
immediate, folded or not, has its value, and exactly the six constants take no word; an indexed operand, normalised, has the
same address as before; a register or indirect operand takes no word; an absolute operand always takes its address as its
word; a label operand always takes a word, the label's, and is never folded (decision D25). A destination takes the register,
indexed and absolute forms, and every other one, a zero index among them, is refused (decision D24). For the base registers
the memory rows admit, and R3 = 0 as in every run. -/
def Obligations.EncodedOperandsDecodeAsMeant : Prop :=
  ∀ (w : Width) (s : State) (v : Word) (r q p : Reg) (label : Toolchain.Label), s.reg .cg = 0 → r.sourceBase = true →
    p.destBase = true →
    (∀ c, c = (Toolchain.Operand.immediate (.num v)).normalise.asSource →
      (c.ext = none ↔ v = 0 ∨ v = 1 ∨ v = 2 ∨ v = 4 ∨ v = 8 ∨ v = 0xFFFF) ∧ (c.ext ≠ none → c.ext = some (.num v)) ∧
      ∀ x, (c.ext = none ∨ c.ext = some (.num x)) →
        ∃ sv, resolveSrc w (decodeSrc c.as c.reg x) s = .ok sv ∧ sv.val = w.trunc v ∧ sv.usesExt = c.ext.isSome) ∧
    (∀ c, c = (Toolchain.Operand.indexed r v).normalise.asSource →
      (c.ext = none ↔ v = 0) ∧ (c.ext ≠ none → c.ext = some (.num v)) ∧
      ∀ x, (c.ext = none ∨ c.ext = some (.num x)) →
        srcAddr (decodeSrc c.as c.reg x) s = some (s.reg r + v) ∧ (decodeSrc c.as c.reg x).ext.isSome = c.ext.isSome) ∧
    (∀ c, c = (Toolchain.Operand.absolute (.num v)).normalise.asSource →
      ∃ x, c.ext = some (.num x) ∧ decodeSrc c.as c.reg x = .absolute v) ∧
    (∀ c, c = (Toolchain.Operand.reg q).normalise.asSource → c.ext = none ∧ ∀ x, decodeSrc c.as c.reg x = .reg q) ∧
    (∀ c, c = (Toolchain.Operand.indirect r).normalise.asSource → c.ext = none ∧ ∀ x, decodeSrc c.as c.reg x = .indirect r) ∧
    (∀ c, c = (Toolchain.Operand.indirectInc r).normalise.asSource →
      c.ext = none ∧ ∀ x, decodeSrc c.as c.reg x = .indirectInc r) ∧
    (∀ c, c = (Toolchain.Operand.immediate (.label label)).normalise.asSource →
      c.ext = some (.label label) ∧ ∀ x, decodeSrc c.as c.reg x = .immediate x) ∧
    (∀ c, c = (Toolchain.Operand.absolute (.label label)).normalise.asSource →
      c.ext = some (.label label) ∧ ∀ x, decodeSrc c.as c.reg x = .absolute x) ∧
    (∃ d, (Toolchain.Operand.reg q).normalise.asDest = .ok d ∧ d.ext = none ∧ ∀ x, decodeDst d.ad d.reg x = .reg q) ∧
    (v ≠ 0 → ∃ d x, (Toolchain.Operand.indexed p v).normalise.asDest = .ok d ∧ d.ext = some (.num x) ∧
      decodeDst d.ad d.reg x = .indexed p v) ∧
    (∃ d x, (Toolchain.Operand.absolute (.num v)).normalise.asDest = .ok d ∧ d.ext = some (.num x) ∧
      decodeDst d.ad d.reg x = .absolute v) ∧
    (∃ d, (Toolchain.Operand.absolute (.label label)).normalise.asDest = .ok d ∧ d.ext = some (.label label) ∧
      ∀ x, decodeDst d.ad d.reg x = .absolute x) ∧
    (Toolchain.Operand.indexed q 0).normalise.asDest = .error .disallowedDestination ∧
    (Toolchain.Operand.indirect q).normalise.asDest = .error .disallowedDestination ∧
    (Toolchain.Operand.indirectInc q).normalise.asDest = .error .disallowedDestination ∧
    ∀ value, (Toolchain.Operand.immediate value).normalise.asDest = .error .disallowedDestination

/-- R92, R86, R160: the PC-relative relocation of a jump at byte offset J, for a label with table value L, is an error unless
L − J is even and from −512 to 511 words (decision D23); otherwise it changes no byte but the jump word's two, and the
patched word decodes to the same jump with offset (L − J)/2, which, where its condition holds, goes to L + 2, the label's
address (R89). For all eight conditions. A label without a table value is an error (R80). -/
def Obligations.RelocatedJumpReachesItsLabel : Prop :=
  ∀ (cond : JumpCond) (labels : List (Toolchain.Label × Nat)) (label : Toolchain.Label) (bs : List Byte) (j : Nat),
    j + 2 ≤ bs.length → wordAt bs j = jumpWord (Toolchain.condCode cond) 0 →
    (labels.lookup label = none → Toolchain.resolveOne labels bs (.pcRelative j label) = .error (.unresolvedLabel label)) ∧
    ∀ l : Nat, labels.lookup label = some l →
      let d : Int := (l : Int) - j
      ((d % 2 ≠ 0 ∨ d < -1024 ∨ 1022 < d) →
        Toolchain.resolveOne labels bs (.pcRelative j label) = .error (.displacement j)) ∧
      (d % 2 = 0 → -1024 ≤ d → d ≤ 1022 → ∃ out, Toolchain.resolveOne labels bs (.pcRelative j label) = .ok out ∧
        out.length = bs.length ∧ (∀ n, n ≠ j → n ≠ j + 1 → out[n]? = bs[n]?) ∧
        (∀ w1 w2, decode (wordAt out j) w1 w2 = .ok (cond.instr (BitVec.ofInt 10 (d / 2)))) ∧
        ∀ s : State, s.reg .pc = BitVec.ofNat 16 j → BitVec.ofNat 16 l ≠ 0 → cond.holds s = true →
          ∃ t, exec (cond.instr (BitVec.ofInt 10 (d / 2))) s = .next t ∧ t.faultLatch = s.faultLatch ∧
            t.reg .pc = BitVec.ofNat 16 l + 2)

/-- R84, R92, R227: every image the encoder makes begins with the bootstrap: `MOV #BOOT_SP,SP`, then a `JMP` whose low ten
bits are the relocation to `main`, k = (table value of `main` − 4)/2, an exact division, from −512 to 511; and where `main`
is a code label, that table value is its byte address − 2 (R89). -/
def Obligations.EveryImageBeginsWithTheBootstrap : Prop :=
  ∀ (p : Toolchain.Params) (globals : List Toolchain.Global) (code : List Toolchain.Line) (image : List Byte),
    Toolchain.assemble p globals code = .ok image →
    6 ≤ image.length ∧ wordAt image 0 = 0x4031 ∧ wordAt image 2 = p.bootSp ∧
    ∃ (e : Toolchain.Emission) (main : Nat) (k : Int), Toolchain.emit p globals code = .ok e ∧
      e.labels.lookup .main = some main ∧ (main : Int) - 4 = 2 * k ∧ -512 ≤ k ∧ k ≤ 511 ∧
      wordAt image 4 = BitVec.ofNat 16 (0x3C00 + (k % 1024).toNat) ∧
      ∀ before after, code = before ++ .label .main :: after →
        ∃ e', Toolchain.emit p globals before = .ok e' ∧ main + 2 = e'.bytes.length

/-- R227, which the spec marks as derived: two execute calls from construction of an image that begins with the bootstrap load
SP with BOOT_SP, go to `main`, and change no other register and no byte. -/
def Obligations.BootstrapRunsToMain : Prop :=
  ∀ (image : List Byte) (bootSp : Word) (k : BitVec 10) (s : State), construct image = some s → 6 ≤ image.length →
    wordAt image 0 = 0x4031 → wordAt image 2 = bootSp → wordAt image 4 = BitVec.ofNat 16 (0x3C00 + k.toNat) →
    (4 : Word) + BitVec.ofInt 16 (2 * k.toInt) ≠ 0 →
    let t := executeN 2 s
    t.faultLatch = none ∧ t.reg .sp = bootSp ∧ t.reg .pc = 6 + BitVec.ofInt 16 (2 * k.toInt) ∧
      (∀ r, r ≠ .sp → r ≠ .pc → t.reg r = 0) ∧ ∀ a, t.byte a = s.byte a

/-- R63, R64, R66, R86, R87, R88, R91, R92: a line the encoder emits after any bytes, once relocated, leaves those bytes and
adds exactly the words of the instruction it stands for: the mnemonic's opcode number, the operands' fields, the source's
word before the destination's, and a label's table value as its word. A jump gets its displacement. DADD and RETI are refused
(R90). `x(R3)` with x ≠ 0, and `@PC+`, as a source are left to the spec's conflict C4: their fields decode with another
number of words. -/
def Obligations.EmittedLinesDecodeAsMeant : Prop :=
  ∀ (labels : List (Toolchain.Label × Nat)) (bs : List Byte),
    (∀ (op : Toolchain.DoubleOp) (w : Width) (src dst : Toolchain.Operand) (d : Toolchain.DstCode) (x y : Word) (i : Instr),
      let c := src.normalise.asSource;
      op.instr? w (decodeSrc c.as c.reg x) (decodeDst d.ad d.reg y) = some i → dst.normalise.asDest = .ok d →
      (∀ k, k ≠ 0 → src ≠ .indexed .cg k) → src ≠ .indirectInc .pc →
      (∀ u, c.ext = some u → u.word? labels = some x) → (∀ u, d.ext = some u → u.word? labels = some y) →
      Toolchain.Emits labels bs (.double op w src dst) i) ∧
    (∀ (op : Toolchain.SingleOp) (operand : Toolchain.Operand) (x : Word),
      let c := operand.normalise.asSource;
      (∀ k, k ≠ 0 → operand ≠ .indexed .cg k) → operand ≠ .indirectInc .pc →
      (∀ u, c.ext = some u → u.word? labels = some x) →
      Toolchain.Emits labels bs (.single op operand) (op.instr (decodeSrc c.as c.reg x))) ∧
    (∀ (cond : JumpCond) (target : Toolchain.Label) (l : Nat) (k : Int), labels.lookup target = some l →
      (l : Int) - bs.length = 2 * k → -512 ≤ k → k ≤ 511 →
      Toolchain.Emits labels bs (.jump cond target) (cond.instr (BitVec.ofInt 10 k))) ∧
    ∀ (e : Toolchain.Emission) (w : Width) (src dst : Toolchain.Operand),
      e.line (.double .dadd w src dst) = .error .unsupportedOpcode ∧ e.line .reti = .error .unsupportedOpcode
end

