-- ==== Sys2Proof/Laws/Encoding.lean ====
section
/-! SUPPORT. The laws of the instruction words: what each field of a word built from fields is, that a word is its fields
put together, and that codes and operand fields read back what they were written from. -/

namespace Sys2Proof

/-! ## Codes -/

@[simp] theorem Reg.ofCode_code (r : Reg) : Reg.ofCode r.code = r := by cases r <;> rfl

@[simp] theorem Reg.code_ofCode (c : BitVec 4) : (Reg.ofCode c).code = c := by
  revert c; decide

@[simp] theorem Width.ofCode_code (w : Width) : Width.ofCode w.code = w := by cases w <;> rfl

@[simp] theorem Width.code_ofCode (b : BitVec 1) : (Width.ofCode b).code = b := by
  revert b; decide

/-! ## Operand fields -/

/-- The fields of a source form read back the form, if the word decoded with them is the one it takes. -/
theorem decodeSrc_fields {o : SrcOp} (h : o.wf = true) {x : Word} (hx : ∀ y, o.ext = some y → y = x) :
    decodeSrc o.fields.1 o.fields.2 x = o := by
  cases o with
  | reg r => rfl
  | symbolic y => cases hx y rfl; rfl
  | absolute y => cases hx y rfl; rfl
  | immediate y => cases hx y rfl; rfl
  | indirectPc => rfl
  | const k => cases k <;> rfl
  | indexed r y => cases hx y rfl; cases r <;> first | rfl | cases h
  | indirect r => cases r <;> first | rfl | cases h
  | indirectInc r => cases r <;> first | rfl | cases h

/-- The fields of a decoded source form are the ones it was decoded from. -/
@[simp] theorem fields_decodeSrc (as : BitVec 2) (r : Reg) (x : Word) : (decodeSrc as r x).fields = (as, r) := by
  have h : as = 0 ∨ as = 1 ∨ as = 2 ∨ as = 3 := by revert as; decide
  rcases h with rfl | rfl | rfl | rfl <;> cases r <;> rfl

@[simp] theorem wf_decodeSrc (as : BitVec 2) (r : Reg) (x : Word) : (decodeSrc as r x).wf = true := by
  have h : as = 0 ∨ as = 1 ∨ as = 2 ∨ as = 3 := by revert as; decide
  rcases h with rfl | rfl | rfl | rfl <;> cases r <;> rfl

theorem ext_decodeSrc {as : BitVec 2} {r : Reg} {x y : Word} (h : (decodeSrc as r x).ext = some y) : y = x := by
  have h4 : as = 0 ∨ as = 1 ∨ as = 2 ∨ as = 3 := by clear h; revert as; decide
  rcases h4 with rfl | rfl | rfl | rfl <;> cases r <;> cases h <;> rfl

/-- `n_src` of R70. -/
theorem isSome_ext_decodeSrc (as : BitVec 2) (r : Reg) (x : Word) :
    (decodeSrc as r x).ext.isSome = decide ((as = 1 ∧ r ≠ .cg) ∨ (as = 3 ∧ r = .pc)) := by
  have h : as = 0 ∨ as = 1 ∨ as = 2 ∨ as = 3 := by revert as; decide
  rcases h with rfl | rfl | rfl | rfl <;> cases r <;> rfl

theorem decodeDst_fields {o : DstOp} (h : o.wf = true) {x : Word} (hx : ∀ y, o.ext = some y → y = x) :
    decodeDst o.fields.1 o.fields.2 x = o := by
  cases o with
  | reg r => rfl
  | symbolic y => cases hx y rfl; rfl
  | absolute y => cases hx y rfl; rfl
  | indexed r y => cases hx y rfl; cases r <;> first | rfl | cases h

@[simp] theorem fields_decodeDst (ad : BitVec 1) (r : Reg) (x : Word) : (decodeDst ad r x).fields = (ad, r) := by
  have h : ad = 0 ∨ ad = 1 := by revert ad; decide
  rcases h with rfl | rfl <;> cases r <;> rfl

@[simp] theorem wf_decodeDst (ad : BitVec 1) (r : Reg) (x : Word) : (decodeDst ad r x).wf = true := by
  have h : ad = 0 ∨ ad = 1 := by revert ad; decide
  rcases h with rfl | rfl <;> cases r <;> rfl

theorem ext_decodeDst {ad : BitVec 1} {r : Reg} {x y : Word} (h : (decodeDst ad r x).ext = some y) : y = x := by
  have h2 : ad = 0 ∨ ad = 1 := by clear h; revert ad; decide
  rcases h2 with rfl | rfl <;> cases r <;> cases h <;> rfl

/-- `n_dst` of R70. -/
theorem isSome_ext_decodeDst (ad : BitVec 1) (r : Reg) (x : Word) : (decodeDst ad r x).ext.isSome = decide (ad = 1) := by
  have h : ad = 0 ∨ ad = 1 := by revert ad; decide
  rcases h with rfl | rfl <;> cases r <;> rfl

/-! ## The fields of a word -/

/-- Two words with the same bits are the same, bit by bit below their width. -/
theorem extract_append_high {m n k : Nat} (x : BitVec m) (y : BitVec n) (start : Nat) (h : n ≤ start) :
    (x ++ y).extractLsb' start k = x.extractLsb' (start - n) k := by
  apply BitVec.eq_of_getLsbD_eq
  intro i hi
  rw [BitVec.getLsbD_extractLsb', BitVec.getLsbD_extractLsb', BitVec.getLsbD_append]
  simp [hi, show ¬(start + i < n) by omega, show start + i - n = start - n + i by omega]

theorem extract_append_low {m n k : Nat} (x : BitVec m) (y : BitVec n) (start : Nat) (h : start + k ≤ n) :
    (x ++ y).extractLsb' start k = y.extractLsb' start k := by
  apply BitVec.eq_of_getLsbD_eq
  intro i hi
  rw [BitVec.getLsbD_extractLsb', BitVec.getLsbD_extractLsb', BitVec.getLsbD_append]
  simp [hi, show start + i < n by omega]

theorem extract_self {n : Nat} (x : BitVec n) : x.extractLsb' 0 n = x := by
  apply BitVec.eq_of_getLsbD_eq
  intro i hi
  simp [hi]

/-- The fields of a double-operand word (R63). -/
theorem doubleWord_fields (opcode sreg : BitVec 4) (ad bw : BitVec 1) (as : BitVec 2) (dreg : BitVec 4) :
    let x := doubleWord opcode sreg ad bw as dreg
    x.extractLsb' 12 4 = opcode ∧ x.extractLsb' 8 4 = sreg ∧ x.extractLsb' 7 1 = ad ∧ x.extractLsb' 6 1 = bw ∧
      x.extractLsb' 4 2 = as ∧ x.extractLsb' 0 4 = dreg := by
  refine ⟨?_, ?_, ?_, ?_, ?_, ?_⟩ <;>
    simp only [doubleWord] <;>
    repeat (first
      | rw [extract_self]
      | rw [extract_append_low _ _ _ (by decide)]
      | (rw [extract_append_high _ _ _ (by decide)]; simp only [Nat.reduceSub]))

/-- The fields of a single-operand word (R64). -/
theorem singleWord_fields (opcode : BitVec 3) (bw : BitVec 1) (as : BitVec 2) (reg : BitVec 4) :
    let x := singleWord opcode bw as reg
    x.extractLsb' 10 6 = 0b000100#6 ∧ x.extractLsb' 7 3 = opcode ∧ x.extractLsb' 6 1 = bw ∧ x.extractLsb' 4 2 = as ∧
      x.extractLsb' 0 4 = reg := by
  refine ⟨?_, ?_, ?_, ?_, ?_⟩ <;>
    simp only [singleWord] <;>
    repeat (first
      | rw [extract_self]
      | rw [extract_append_low _ _ _ (by decide)]
      | (rw [extract_append_high _ _ _ (by decide)]; simp only [Nat.reduceSub]))

/-- The fields of a jump word (R65). -/
theorem jumpWord_fields (cond : BitVec 3) (offset : BitVec 10) :
    let x := jumpWord cond offset
    x.extractLsb' 13 3 = 0b001#3 ∧ x.extractLsb' 10 3 = cond ∧ x.extractLsb' 0 10 = offset := by
  refine ⟨?_, ?_, ?_⟩ <;>
    simp only [jumpWord] <;>
    repeat (first
      | rw [extract_self]
      | rw [extract_append_low _ _ _ (by decide)]
      | (rw [extract_append_high _ _ _ (by decide)]; simp only [Nat.reduceSub]))

/-- Two adjacent fields are one field. -/
theorem extract_append_extract {m : Nat} (x : BitVec m) (start k l : Nat) :
    x.extractLsb' (start + l) k ++ x.extractLsb' start l = x.extractLsb' start (k + l) := by
  apply BitVec.eq_of_getLsbD_eq
  intro i hi
  rw [BitVec.getLsbD_append]
  simp only [BitVec.getLsbD_extractLsb']
  by_cases h : i < l
  · simp [h, hi]
  · simp [h, hi, show i - l < k by omega, show start + l + (i - l) = start + i by omega]

/-- A word is its double-operand fields put together (R63). -/
theorem doubleWord_of_fields (x : Word) :
    doubleWord (x.extractLsb' 12 4) (x.extractLsb' 8 4) (x.extractLsb' 7 1) (x.extractLsb' 6 1) (x.extractLsb' 4 2)
      (x.extractLsb' 0 4) = x := by
  have h1 := extract_append_extract x 8 4 4
  have h2 := extract_append_extract x 7 8 1
  have h3 := extract_append_extract x 6 9 1
  have h4 := extract_append_extract x 4 10 2
  have h5 := extract_append_extract x 0 12 4
  simp only [Nat.reduceAdd] at h1 h2 h3 h4 h5
  simp only [doubleWord, h1, h2, h3, h4, h5]
  exact extract_self x

/-- A word with the single-operand tag is its fields put together (R64). -/
theorem singleWord_of_fields (x : Word) (h : x.extractLsb' 10 6 = 0b000100#6) :
    singleWord (x.extractLsb' 7 3) (x.extractLsb' 6 1) (x.extractLsb' 4 2) (x.extractLsb' 0 4) = x := by
  have h1 := extract_append_extract x 7 6 3
  have h2 := extract_append_extract x 6 9 1
  have h3 := extract_append_extract x 4 10 2
  have h4 := extract_append_extract x 0 12 4
  simp only [Nat.reduceAdd] at h1 h2 h3 h4
  simp only [singleWord, ← h, h1, h2, h3, h4]
  exact extract_self x

/-- A word with the jump tag is its fields put together (R65). -/
theorem jumpWord_of_fields (x : Word) (h : x.extractLsb' 13 3 = 0b001#3) :
    jumpWord (x.extractLsb' 10 3) (x.extractLsb' 0 10) = x := by
  have h1 := extract_append_extract x 10 3 3
  have h2 := extract_append_extract x 0 6 10
  simp only [Nat.reduceAdd] at h1 h2
  simp only [jumpWord, ← h, h1, h2]
  exact extract_self x

/-! ## The family -/

/-- The top bits of a word as a number. -/
theorem toNat_extract_top (x : Word) (start k : Nat) (h : start + k = 16) : (x.extractLsb' start k).toNat = x.toNat / 2 ^ start := by
  have hx := x.isLt
  rw [BitVec.extractLsb'_toNat, Nat.shiftRight_eq_div_pow]
  apply Nat.mod_eq_of_lt
  rw [Nat.div_lt_iff_lt_mul (Nat.two_pow_pos _), ← Nat.pow_add, show k + start = 16 by omega]
  exact hx

/-- R61 on the word as a number. -/
theorem familyOf_eq (x : Word) : familyOf x =
    if x.toNat < 0x2000 then .singleOrNoOperand else if x.toNat < 0x4000 then .jump else .doubleOperand := by
  have h3 : x.extractLsb' 13 3 = 0#3 ↔ x.toNat < 0x2000 := by
    rw [← BitVec.toNat_inj, toNat_extract_top x 13 3 rfl]
    simp
  have h2 : x.extractLsb' 14 2 = 0#2 ↔ x.toNat < 0x4000 := by
    rw [← BitVec.toNat_inj, toNat_extract_top x 14 2 rfl]
    simp
  simp only [familyOf, BitVec.ofNat_eq_ofNat, h3, h2]

theorem toNat_append {m n : Nat} (x : BitVec m) (y : BitVec n) : (x ++ y).toNat = x.toNat * 2 ^ n + y.toNat := by
  rw [BitVec.toNat_append, Nat.shiftLeft_eq, Nat.mul_comm, Nat.two_pow_add_eq_or_of_lt y.isLt]

theorem doubleWord_toNat_ge (opcode sreg : BitVec 4) (ad bw : BitVec 1) (as : BitVec 2) (dreg : BitVec 4) :
    opcode.toNat * 4096 ≤ (doubleWord opcode sreg ad bw as dreg).toNat := by
  simp only [doubleWord, toNat_append]; omega

theorem singleWord_toNat (opcode : BitVec 3) (bw : BitVec 1) (as : BitVec 2) (reg : BitVec 4) :
    (singleWord opcode bw as reg).toNat =
      0x1000 + opcode.toNat * 128 + bw.toNat * 64 + as.toNat * 16 + reg.toNat := by
  simp only [singleWord, toNat_append, BitVec.toNat_ofNat]; omega

theorem jumpWord_toNat (cond : BitVec 3) (offset : BitVec 10) :
    (jumpWord cond offset).toNat = 0x2000 + cond.toNat * 1024 + offset.toNat := by
  simp only [jumpWord, toNat_append, BitVec.toNat_ofNat]; omega

theorem familyOf_doubleWord (opcode sreg : BitVec 4) (ad bw : BitVec 1) (as : BitVec 2) (dreg : BitVec 4) (h : 4 ≤ opcode.toNat) :
    familyOf (doubleWord opcode sreg ad bw as dreg) = .doubleOperand := by
  have := doubleWord_toNat_ge opcode sreg ad bw as dreg
  rw [familyOf_eq, if_neg (by omega), if_neg (by omega)]

theorem familyOf_singleWord (opcode : BitVec 3) (bw : BitVec 1) (as : BitVec 2) (reg : BitVec 4) :
    familyOf (singleWord opcode bw as reg) = .singleOrNoOperand := by
  have h1 := opcode.isLt
  have h2 := bw.isLt
  have h3 := as.isLt
  have h4 := reg.isLt
  rw [familyOf_eq, singleWord_toNat, if_pos (by omega)]

theorem familyOf_jumpWord (cond : BitVec 3) (offset : BitVec 10) : familyOf (jumpWord cond offset) = .jump := by
  have h1 := cond.isLt
  have h2 := offset.isLt
  rw [familyOf_eq, jumpWord_toNat, if_neg (by omega), if_pos (by omega)]

/-! ## Bytes -/

theorem wordAt_append_left (bs cs : List Byte) {k : Nat} (h : k + 1 < bs.length) : wordAt (bs ++ cs) k = wordAt bs k := by
  simp only [wordAt, List.getD_eq_getElem?_getD]
  rw [List.getElem?_append_left (by omega), List.getElem?_append_left h]

@[simp] theorem wordAt_cons_cons (a b : Byte) (bs : List Byte) (k : Nat) : wordAt (a :: b :: bs) (k + 2) = wordAt bs k := rfl

/-- A word written low byte first is read back. -/
@[simp] theorem wordAt_wordBytes (v : Word) (bs : List Byte) : wordAt (wordBytes v ++ bs) 0 = v := by
  apply BitVec.eq_of_getLsbD_eq
  intro i hi
  change (highByte v ++ lowByte v : BitVec 16).getLsbD i = v.getLsbD i
  rw [BitVec.getLsbD_append, lowByte, highByte, BitVec.getLsbD_extractLsb', BitVec.getLsbD_extractLsb']
  by_cases h : i < 8
  · simp [h]
  · simp [h, show i - 8 < 8 by omega, show 8 + (i - 8) = i by omega]

@[simp] theorem wordAt_wordBytes_add (v : Word) (bs : List Byte) (k : Nat) : wordAt (wordBytes v ++ bs) (k + 2) = wordAt bs k := rfl

@[simp] theorem length_encodeBytes (i : Instr) : (encodeBytes i).length = i.byteLength := by
  simp only [encodeBytes, Instr.byteLength]
  induction encode i with
  | nil => rfl
  | cons w ws ih => simp only [List.flatMap_cons, List.length_append, ih, wordBytes, List.length_cons, List.length_nil]; omega

end Sys2Proof
end

