-- ==== Sys2Proof/Laws/State.lean ====
section
/-! SUPPORT. One lemma per field per update of State, and the laws of the register file: what a later proof rewrites with
instead of unfolding a record update. -/

namespace Sys2Proof.Machine

/-! ## The register file -/

@[simp] theorem RegFile.read_write_self (f : RegFile) (r : Reg) (v : Word) : (f.write r v).read r = v := by
  cases r <;> rfl

theorem RegFile.read_write_of_ne (f : RegFile) {r q : Reg} (v : Word) (h : q ≠ r) : (f.write r v).read q = f.read q := by
  cases r <;> cases q <;> first | rfl | exact absurd rfl h

theorem RegFile.read_write (f : RegFile) (r q : Reg) (v : Word) :
    (f.write r v).read q = if q = r then v else f.read q := by
  split
  · next h => subst h; simp
  · next h => exact f.read_write_of_ne v h

theorem RegFile.ext_read {f g : RegFile} (h : ∀ r, f.read r = g.read r) : f = g := by
  obtain ⟨⟩ := f
  obtain ⟨⟩ := g
  have hr := fun r => h r
  simp only [RegFile.mk.injEq]
  exact ⟨hr .pc, hr .sp, hr .sr, hr .cg, hr .r4, hr .r5, hr .r6, hr .r7, hr .r8, hr .r9, hr .r10, hr .r11, hr .r12,
    hr .r13, hr .r14, hr .r15⟩

@[simp] theorem RegFile.write_read (f : RegFile) (r : Reg) : f.write r (f.read r) = f := by
  cases r <;> rfl

/-! ## Registers of a state -/

@[simp] theorem State.setReg_mem (s : State) (r : Reg) (v : Word) : (s.setReg r v).mem = s.mem := rfl
@[simp] theorem State.setReg_faultLatch (s : State) (r : Reg) (v : Word) : (s.setReg r v).faultLatch = s.faultLatch := rfl
@[simp] theorem State.setReg_regs (s : State) (r : Reg) (v : Word) : (s.setReg r v).regs = s.regs.write r v := rfl
@[simp] theorem State.byte_setReg (s : State) (r : Reg) (v a : Word) : (s.setReg r v).byte a = s.byte a := rfl
@[simp] theorem State.word_setReg (s : State) (r : Reg) (v a : Word) : (s.setReg r v).word a = s.word a := rfl

@[simp] theorem State.reg_setReg_self (s : State) (r : Reg) (v : Word) : (s.setReg r v).reg r = v :=
  RegFile.read_write_self _ _ _

theorem State.reg_setReg (s : State) (r q : Reg) (v : Word) : (s.setReg r v).reg q = if q = r then v else s.reg q :=
  RegFile.read_write _ _ _ _

theorem State.reg_setReg_of_ne (s : State) {r q : Reg} (v : Word) (h : q ≠ r) : (s.setReg r v).reg q = s.reg q :=
  RegFile.read_write_of_ne _ _ h

@[simp] theorem State.setReg_reg (s : State) (r : Reg) : s.setReg r (s.reg r) = s := by
  simp [State.setReg, State.reg]

/-! ## Memory of a state -/

@[simp] theorem State.setByte_regs (s : State) (a : Word) (b : Byte) : (s.setByte a b).regs = s.regs := rfl
@[simp] theorem State.setByte_faultLatch (s : State) (a : Word) (b : Byte) : (s.setByte a b).faultLatch = s.faultLatch := rfl
@[simp] theorem State.setByte_mem (s : State) (a : Word) (b : Byte) : (s.setByte a b).mem = s.mem.write a.toNat b := rfl
@[simp] theorem State.reg_setByte (s : State) (a : Word) (b : Byte) (r : Reg) : (s.setByte a b).reg r = s.reg r := rfl
@[simp] theorem State.setWord_regs (s : State) (a v : Word) : (s.setWord a v).regs = s.regs := rfl
@[simp] theorem State.setWord_faultLatch (s : State) (a v : Word) : (s.setWord a v).faultLatch = s.faultLatch := rfl
@[simp] theorem State.reg_setWord (s : State) (a v : Word) (r : Reg) : (s.setWord a v).reg r = s.reg r := rfl

/-! ## The latch -/

@[simp] theorem State.reg_latch (s : State) (l : Option FaultRecord) (r : Reg) : ({ s with faultLatch := l } : State).reg r = s.reg r := rfl
@[simp] theorem State.byte_latch (s : State) (l : Option FaultRecord) (a : Word) : ({ s with faultLatch := l } : State).byte a = s.byte a := rfl
@[simp] theorem State.word_latch (s : State) (l : Option FaultRecord) (a : Word) : ({ s with faultLatch := l } : State).word a = s.word a := rfl

/-! ## Stage 5's sub-steps -/

@[simp] theorem applyFlags_mem (u : FlagUpdate) (s : State) : (applyFlags u s).mem = s.mem := rfl
@[simp] theorem applyFlags_faultLatch (u : FlagUpdate) (s : State) : (applyFlags u s).faultLatch = s.faultLatch := rfl
@[simp] theorem byte_applyFlags (u : FlagUpdate) (s : State) (a : Word) : (applyFlags u s).byte a = s.byte a := rfl
theorem reg_applyFlags (u : FlagUpdate) (s : State) (r : Reg) :
    (applyFlags u s).reg r = if r = .sr then u.apply (s.reg .sr) else s.reg r := State.reg_setReg _ _ _ _

@[simp] theorem applyDecSp_mem (d : Bool) (s : State) : (applyDecSp d s).mem = s.mem := by cases d <;> rfl
@[simp] theorem applyDecSp_faultLatch (d : Bool) (s : State) : (applyDecSp d s).faultLatch = s.faultLatch := by cases d <;> rfl
theorem reg_applyDecSp (d : Bool) (s : State) (r : Reg) :
    (applyDecSp d s).reg r = if d = true ∧ r = .sp then s.reg .sp - 2 else s.reg r := by
  cases d <;> simp [applyDecSp, State.reg_setReg]

@[simp] theorem applyAutoInc_mem (i : Option (Reg × Word)) (s : State) : (applyAutoInc i s).mem = s.mem := by
  rcases i with _ | ⟨_, _⟩ <;> rfl
@[simp] theorem applyAutoInc_faultLatch (i : Option (Reg × Word)) (s : State) : (applyAutoInc i s).faultLatch = s.faultLatch := by
  rcases i with _ | ⟨_, _⟩ <;> rfl

@[simp] theorem pcUpdate_mem (n : Nat) (v : Option Word) (s : State) : (pcUpdate n v s).mem = s.mem := by cases v <;> rfl
@[simp] theorem pcUpdate_faultLatch (n : Nat) (v : Option Word) (s : State) : (pcUpdate n v s).faultLatch = s.faultLatch := by
  cases v <;> rfl
@[simp] theorem byte_pcUpdate (n : Nat) (v : Option Word) (s : State) (a : Word) : (pcUpdate n v s).byte a = s.byte a := by
  cases v <;> rfl
theorem reg_pcUpdate (n : Nat) (v : Option Word) (s : State) (r : Reg) :
    (pcUpdate n v s).reg r =
      if r = .pc then (match v with | some x => x + 2 | none => s.reg .pc + BitVec.ofNat 16 (2 + 2 * n)) else s.reg r := by
  cases v <;> exact State.reg_setReg _ _ _ _

end Sys2Proof.Machine
end

