-- ==== Sys2Proof/Laws/Memory.lean ====
section
/-! SUPPORT. The laws of memory: read after write, the canonical form kept by every operation, and equal reads making equal
memories. -/

namespace Sys2Proof.Machine

/-! ## Reading and writing one address -/

theorem Memory.read_of_lt {lo : Nat} {m : Memory} (h : m.wfFrom lo = true) {a : Nat} (ha : a < lo) : m.read a = Memory.unlisted := by
  induction m generalizing lo with
  | nil => rfl
  | cons e rest ih =>
    obtain ⟨k, v⟩ := e
    simp only [Memory.wfFrom, Bool.and_eq_true, decide_eq_true_eq] at h
    obtain ⟨⟨⟨hlo, _⟩, _⟩, hrest⟩ := h
    rw [Memory.read, if_neg (by omega)]
    exact ih hrest (by omega)

theorem Memory.wfFrom_mono {lo hi : Nat} {m : Memory} (h : m.wfFrom hi = true) (hle : lo ≤ hi) : m.wfFrom lo = true := by
  cases m with
  | nil => rfl
  | cons e rest =>
    obtain ⟨k, v⟩ := e
    simp only [Memory.wfFrom, Bool.and_eq_true, decide_eq_true_eq] at h ⊢
    exact ⟨⟨⟨by omega, h.1.1.2⟩, h.1.2⟩, h.2⟩

theorem Memory.wfFrom_write {lo : Nat} {m : Memory} (h : m.wfFrom lo = true) {a : Nat} (ha : lo ≤ a) (hs : a < Config.memorySize) (b : Byte) :
    (m.write a b).wfFrom lo = true := by
  induction m generalizing lo with
  | nil =>
    by_cases hb : b = Memory.unlisted <;> simp [Memory.write, Memory.wfFrom, hb, ha, hs]
  | cons e rest ih =>
    obtain ⟨k, v⟩ := e
    have h' := h
    simp only [Memory.wfFrom, Bool.and_eq_true, decide_eq_true_eq] at h
    obtain ⟨⟨⟨hlo, hk⟩, hv⟩, hrest⟩ := h
    simp only [Memory.write]
    split
    · next hlt =>
      split
      · exact h'
      · next hb => simp [Memory.wfFrom, ha, hs, hb, hk, hv, hrest]; omega
    · next hnlt =>
      split
      · next heq =>
        subst heq
        split
        · exact Memory.wfFrom_mono hrest (by omega)
        · next hb => simp [Memory.wfFrom, hlo, hk, hb, hrest]
      · next hne =>
        simp only [Memory.wfFrom, Bool.and_eq_true, decide_eq_true_eq]
        exact ⟨⟨⟨hlo, hk⟩, hv⟩, ih hrest (by omega)⟩

theorem Memory.read_write_of_wf {lo : Nat} {m : Memory} (h : m.wfFrom lo = true) (a : Nat) (b : Byte) (c : Nat) :
    (m.write a b).read c = if c = a then b else m.read c := by
  induction m generalizing lo with
  | nil =>
    by_cases hb : b = Memory.unlisted <;> by_cases hc : c = a <;> simp [Memory.write, Memory.read, hb, hc]
  | cons e rest ih =>
    obtain ⟨k, v⟩ := e
    simp only [Memory.wfFrom, Bool.and_eq_true, decide_eq_true_eq] at h
    obtain ⟨⟨⟨_, _⟩, _⟩, hrest⟩ := h
    simp only [Memory.write]
    split
    · next hlt =>
      split
      · next hb =>
        by_cases hc : c = a
        · subst hc
          simp [Memory.read, hb, Nat.ne_of_lt hlt, Memory.read_of_lt hrest (Nat.lt_succ_of_lt hlt)]
        · simp [hc]
      · simp [Memory.read]
    · next hnlt =>
      split
      · next heq =>
        subst heq
        split
        · next hb =>
          by_cases hc : c = a
          · subst hc; simp [hb, Memory.read_of_lt hrest (Nat.lt_succ_self c)]
          · simp [Memory.read, hc]
        · by_cases hc : c = a <;> simp [Memory.read, hc]
      · next hne =>
        by_cases hc : c = k
        · subst hc; simp [Memory.read, Ne.symm hne]
        · simp [Memory.read, hc, ih hrest]

theorem Memory.wf_write {m : Memory} (h : m.wf = true) {a : Nat} (ha : a < Config.memorySize) (b : Byte) : (m.write a b).wf = true :=
  Memory.wfFrom_write h (Nat.zero_le a) ha b

theorem Memory.read_write {m : Memory} (h : m.wf = true) (a : Nat) (b : Byte) (c : Nat) :
    (m.write a b).read c = if c = a then b else m.read c :=
  Memory.read_write_of_wf h a b c

theorem Memory.read_of_ge {lo : Nat} {m : Memory} (h : m.wfFrom lo = true) {a : Nat} (ha : Config.memorySize ≤ a) :
    m.read a = Memory.unlisted := by
  induction m generalizing lo with
  | nil => rfl
  | cons e rest ih =>
    obtain ⟨k, v⟩ := e
    simp only [Memory.wfFrom, Bool.and_eq_true, decide_eq_true_eq] at h
    rw [Memory.read, if_neg (by omega)]
    exact ih h.2

/-- Two memories in canonical form that read the same everywhere are the same list. -/
theorem Memory.ext_read {lo : Nat} {m n : Memory} (hm : m.wfFrom lo = true) (hn : n.wfFrom lo = true)
    (h : ∀ a, m.read a = n.read a) : m = n := by
  induction m generalizing lo n with
  | nil =>
    cases n with
    | nil => rfl
    | cons e rest =>
      obtain ⟨k, v⟩ := e
      simp only [Memory.wfFrom, Bool.and_eq_true, decide_eq_true_eq] at hn
      have := h k
      simp only [Memory.read, if_true] at this
      exact absurd this.symm hn.1.2
  | cons e rest ih =>
    obtain ⟨k, v⟩ := e
    have hm' := hm
    simp only [Memory.wfFrom, Bool.and_eq_true, decide_eq_true_eq] at hm
    obtain ⟨⟨⟨hlo, hk⟩, hv⟩, hrest⟩ := hm
    cases n with
    | nil =>
      have := h k
      simp only [Memory.read, if_true] at this
      exact absurd this hv
    | cons e' rest' =>
      obtain ⟨k', v'⟩ := e'
      have hn' := hn
      simp only [Memory.wfFrom, Bool.and_eq_true, decide_eq_true_eq] at hn
      obtain ⟨⟨⟨hlo', hk'⟩, hv'⟩, hrest'⟩ := hn
      have hkk : k = k' := by
        rcases Nat.lt_trichotomy k k' with hlt | heq | hgt
        · have := h k
          simp only [Memory.read, if_true, if_neg (Nat.ne_of_lt hlt)] at this
          rw [Memory.read_of_lt hrest' (by omega)] at this
          exact absurd this hv
        · exact heq
        · have := h k'
          simp only [Memory.read, if_true, if_neg (Nat.ne_of_lt hgt)] at this
          rw [Memory.read_of_lt hrest (by omega)] at this
          exact absurd this.symm hv'
      subst hkk
      have hvv : v = v' := by simpa [Memory.read] using h k
      subst hvv
      congr 1
      refine ih hrest hrest' fun a => ?_
      by_cases ha : a = k
      · subst ha
        rw [Memory.read_of_lt hrest (Nat.lt_succ_self a), Memory.read_of_lt hrest' (Nat.lt_succ_self a)]
      · simpa [Memory.read, ha] using h a

/-! ## Bytes and words of a state -/

theorem word_toNat_lt (a : Word) : a.toNat < Config.memorySize := a.isLt

theorem State.wf_setByte {s : State} (h : s.mem.wf = true) (a : Word) (b : Byte) : (s.setByte a b).mem.wf = true :=
  Memory.wf_write h (word_toNat_lt a) b

theorem State.byte_setByte {s : State} (h : s.mem.wf = true) (a : Word) (b : Byte) (c : Word) :
    (s.setByte a b).byte c = if c = a then b else s.byte c := by
  simp only [State.byte, State.setByte_mem, Memory.read_write h, BitVec.toNat_inj]

theorem State.wf_setWord {s : State} (h : s.mem.wf = true) (a v : Word) : (s.setWord a v).mem.wf = true :=
  State.wf_setByte (State.wf_setByte h _ _) _ _

theorem word_ne_succ (a : Word) : a ≠ a + 1 := by
  intro h
  simp at h

theorem State.byte_setWord {s : State} (h : s.mem.wf = true) (a v c : Word) :
    (s.setWord a v).byte c = if c = a then lowByte v else if c = a + 1 then highByte v else s.byte c := by
  rw [State.setWord, State.byte_setByte (State.wf_setByte h _ _), State.byte_setByte h]
  by_cases hc : c = a
  · subst hc; simp
  · simp [hc]

@[simp] theorem wordOfBytes_low_high (v : Word) : wordOfBytes (lowByte v) (highByte v) = v := by
  apply BitVec.eq_of_getLsbD_eq
  intro i hi
  simp only [wordOfBytes, lowByte, highByte, BitVec.getLsbD_append, BitVec.getLsbD_extractLsb']
  by_cases h8 : i < 8
  · simp [h8]
  · simp [h8, show i - 8 < 8 by omega, show 8 + (i - 8) = i by omega]

@[simp] theorem lowByte_wordOfBytes (lo hi : Byte) : lowByte (wordOfBytes lo hi) = lo := by
  apply BitVec.eq_of_getLsbD_eq
  intro i h8
  have h : (wordOfBytes lo hi).getLsbD i = (hi ++ lo).getLsbD i := rfl
  rw [lowByte, BitVec.getLsbD_extractLsb', Nat.zero_add, h, BitVec.getLsbD_append]
  simp [h8]

@[simp] theorem highByte_wordOfBytes (lo hi : Byte) : highByte (wordOfBytes lo hi) = hi := by
  apply BitVec.eq_of_getLsbD_eq
  intro i h8
  have h : (wordOfBytes lo hi).getLsbD (8 + i) = (hi ++ lo).getLsbD (8 + i) := rfl
  rw [highByte, BitVec.getLsbD_extractLsb', h, BitVec.getLsbD_append]
  simp [h8]

theorem State.word_setWord_self {s : State} (h : s.mem.wf = true) (a v : Word) : (s.setWord a v).word a = v := by
  rw [State.word, State.byte_setWord h, State.byte_setWord h]
  simp

/-- Two states in canonical form with the same registers, bytes and latch are the same state. -/
theorem State.ext_reads {s t : State} (hs : s.mem.wf = true) (ht : t.mem.wf = true) (hr : ∀ r, s.reg r = t.reg r)
    (hb : ∀ a, s.byte a = t.byte a) (hl : s.faultLatch = t.faultLatch) : s = t := by
  obtain ⟨rs, ms, ls⟩ := s
  obtain ⟨rt, mt, lt⟩ := t
  have h1 : rs = rt := RegFile.ext_read hr
  have h2 : ms = mt := by
    refine Memory.ext_read hs ht fun a => ?_
    by_cases ha : a < 65536
    · have := hb (BitVec.ofNat 16 a)
      simpa [State.byte, Nat.mod_eq_of_lt ha] using this
    · rw [Memory.read_of_ge hs (Nat.le_of_not_lt ha), Memory.read_of_ge ht (Nat.le_of_not_lt ha)]
  subst h1 h2
  congr

/-! ## The primitives of R42 -/

@[simp] theorem State.store_regs (s : State) (w : Width) (a v : Word) : (s.store w a v).regs = s.regs := by cases w <;> rfl
@[simp] theorem State.store_faultLatch (s : State) (w : Width) (a v : Word) : (s.store w a v).faultLatch = s.faultLatch := by
  cases w <;> rfl
@[simp] theorem State.reg_store (s : State) (w : Width) (a v : Word) (r : Reg) : (s.store w a v).reg r = s.reg r := by
  cases w <;> rfl

theorem State.wf_store {s : State} (h : s.mem.wf = true) (w : Width) (a v : Word) : (s.store w a v).mem.wf = true := by
  cases w
  · exact State.wf_setWord h a v
  · exact State.wf_setByte h a _

@[simp] theorem misaligned_byte (a : Word) : misaligned .byte a = false := rfl
@[simp] theorem misaligned_word (a : Word) : misaligned .word a = oddAddr a := rfl

theorem memRead_ok {w : Width} {a v : Word} {s : State} (h : memRead w a s = .ok v) : misaligned w a = false ∧ v = s.load w a := by
  simp only [memRead] at h
  split at h
  · cases h
  · next hm => cases h; exact ⟨by simpa using hm, rfl⟩

theorem memRead_error {w : Width} {a : Word} {s : State} {k : FaultKind} (h : memRead w a s = .error k) :
    misaligned w a = true ∧ k = .misalignedAccess := by
  simp only [memRead] at h
  split at h
  · next hm => cases h; exact ⟨hm, rfl⟩
  · cases h

theorem memRead_of_aligned {w : Width} {a : Word} (s : State) (h : misaligned w a = false) : memRead w a s = .ok (s.load w a) := by
  simp [memRead, h]

theorem memRead_of_misaligned {w : Width} {a : Word} (s : State) (h : misaligned w a = true) :
    memRead w a s = .error .misalignedAccess := by
  simp [memRead, h]

/-- A store that completes was aligned, and its state is `store`'s. -/
theorem memWrite_ok {w : Width} {a v : Word} {s t : State} (h : memWrite w a v s = .ok t) :
    misaligned w a = false ∧ t = s.store w a v := by
  simp only [memWrite] at h
  split at h
  · cases h
  · next hm => cases h; exact ⟨by simpa using hm, rfl⟩

theorem memWrite_of_aligned {w : Width} {a : Word} (v : Word) (s : State) (h : misaligned w a = false) :
    memWrite w a v s = .ok (s.store w a v) := by
  simp [memWrite, h]

theorem memWrite_of_misaligned {w : Width} {a : Word} (v : Word) (s : State) (h : misaligned w a = true) :
    memWrite w a v s = .error .misalignedAccess := by
  simp [memWrite, h]

end Sys2Proof.Machine
end

