-- ==== Sys2Proof/Laws/Operands.lean ====
section
/-! SUPPORT. Stages 2 and 3 once and for all: when an operand resolves, to what, and how it faults. -/

namespace Sys2Proof

/-! ## Truncation -/

@[simp] theorem Width.trunc_word (v : Word) : Width.trunc .word v = v := rfl

@[simp] theorem Width.trunc_trunc (w : Width) (v : Word) : w.trunc (w.trunc v) = w.trunc v := by
  cases w
  · rfl
  · simp [Width.trunc, BitVec.setWidth_setWidth_of_le]

theorem Width.toNat_trunc (w : Width) (v : Word) : (w.trunc v).toNat = v.toNat % w.modulus := by
  cases w
  · simp only [Width.trunc, Width.modulus, Width.bits]; omega
  · simp only [Width.trunc, Width.modulus, Width.bits, BitVec.toNat_setWidth]; omega

theorem Width.trunc_eq_self_iff (w : Width) (v : Word) : w.trunc v = v ↔ v.toNat < w.modulus := by
  rw [← BitVec.toNat_inj, Width.toNat_trunc]
  exact Nat.mod_eq_iff_lt (by cases w <;> decide)

namespace Machine

@[simp] theorem trunc_load (w : Width) (s : State) (a : Word) : w.trunc (s.load w a) = s.load w a := by
  cases w
  · rfl
  · simp [Width.trunc, State.load]

/-! ## The source operand -/

/-- The location a source form designates (R12, R67). -/
def srcLoc (o : SrcOp) (s : State) : Option Loc :=
  match o with
  | .reg r => some (.reg r)
  | o => (srcAddr o s).map .mem

/-- The value a source form has, where it resolves. -/
def srcVal (w : Width) (o : SrcOp) (s : State) : Word :=
  match o with
  | .reg r => w.trunc (s.reg r)
  | .const k => w.trunc k.value
  | .immediate v => w.trunc v
  | .indexed r x => s.load w (s.reg r + x)
  | .absolute a => s.load w a
  | .indirect r | .indirectInc r => s.load w (s.reg r)
  | .symbolic _ | .indirectPc => 0

/-- Everything a source operand that resolves says of the stage context. -/
theorem resolveSrc_ok {w : Width} {o : SrcOp} {s : State} {sv : SrcStage} (h : resolveSrc w o s = .ok sv) :
    sv.loc = srcLoc o s ∧ sv.val = srcVal w o s ∧ sv.usesExt = o.ext.isSome ∧
      sv.autoInc = o.incReg.map (fun r => (r, autoIncStep w r)) ∧
      (∀ ea, srcAddr o s = some ea → misaligned w ea = false) ∧ w.trunc sv.val = sv.val := by
  have hm : ∀ {ea u inc}, memSource w ea u inc s = .ok sv →
      sv.loc = some (.mem ea) ∧ sv.val = s.load w ea ∧ sv.usesExt = u ∧ sv.autoInc = inc ∧ misaligned w ea = false ∧
        w.trunc sv.val = sv.val := by
    intro ea u inc hh
    simp only [memSource] at hh
    split at hh
    · cases hh
    · next v hv =>
      cases hh
      obtain ⟨ha, rfl⟩ := memRead_ok hv
      exact ⟨rfl, rfl, rfl, rfl, ha, trunc_load _ _ _⟩
  cases o with
  | reg r => cases h; exact ⟨rfl, rfl, rfl, rfl, nofun, w.trunc_trunc _⟩
  | const k => cases h; exact ⟨rfl, rfl, rfl, rfl, nofun, w.trunc_trunc _⟩
  | immediate v => cases h; exact ⟨rfl, rfl, rfl, rfl, nofun, w.trunc_trunc _⟩
  | symbolic x => cases h
  | indirectPc => cases h
  | indexed r x =>
    obtain ⟨h1, h2, h3, h4, h5, h6⟩ := hm h
    exact ⟨h1, h2, h3, h4, fun ea he => by cases he; exact h5, h6⟩
  | absolute a =>
    obtain ⟨h1, h2, h3, h4, h5, h6⟩ := hm h
    exact ⟨h1, h2, h3, h4, fun ea he => by cases he; exact h5, h6⟩
  | indirect r =>
    obtain ⟨h1, h2, h3, h4, h5, h6⟩ := hm h
    exact ⟨h1, h2, h3, h4, fun ea he => by cases he; exact h5, h6⟩
  | indirectInc r =>
    obtain ⟨h1, h2, h3, h4, h5, h6⟩ := hm h
    exact ⟨h1, h2, h3, h4, fun ea he => by cases he; exact h5, h6⟩

/-- The two ways a source operand faults (R108, R43). -/
theorem resolveSrc_error {w : Width} {o : SrcOp} {s : State} {k : FaultKind} (h : resolveSrc w o s = .error k) :
    (k = .unsupportedAddressing ∧ ((∃ x, o = .symbolic x) ∨ o = .indirectPc)) ∨
      (k = .misalignedAccess ∧ ∃ ea, srcAddr o s = some ea ∧ misaligned w ea = true) := by
  have hm : ∀ {ea u inc}, memSource w ea u inc s = .error k → misaligned w ea = true ∧ k = .misalignedAccess := by
    intro ea u inc hh
    simp only [memSource] at hh
    split at hh
    · next e he => cases hh; exact memRead_error he
    · cases hh
  cases o with
  | reg r => cases h
  | const k => cases h
  | immediate v => cases h
  | symbolic x => cases h; exact .inl ⟨rfl, .inl ⟨_, rfl⟩⟩
  | indirectPc => cases h; exact .inl ⟨rfl, .inr rfl⟩
  | indexed r x => exact .inr ⟨(hm h).2, _, rfl, (hm h).1⟩
  | absolute a => exact .inr ⟨(hm h).2, _, rfl, (hm h).1⟩
  | indirect r => exact .inr ⟨(hm h).2, _, rfl, (hm h).1⟩
  | indirectInc r => exact .inr ⟨(hm h).2, _, rfl, (hm h).1⟩

/-! ## The destination operand -/

/-- The location a destination form designates (R68). -/
def dstLoc (o : DstOp) (s : State) : Loc :=
  match o with
  | .reg r => .reg r
  | .indexed r x => .mem (s.reg r + x)
  | .absolute a => .mem a
  | .symbolic x => .mem x

/-- The value a destination form has before the instruction, where it resolves. -/
def dstVal (w : Width) (o : DstOp) (s : State) : Word :=
  match o with
  | .reg r => w.trunc (s.reg r)
  | .indexed r x => s.load w (s.reg r + x)
  | .absolute a => s.load w a
  | .symbolic _ => 0

/-- Everything a destination operand that resolves says of the stage context. -/
theorem resolveDst_ok {w : Width} {o : DstOp} {s : State} {dv : DstStage} (h : resolveDst w o s = .ok dv) :
    dv.loc = dstLoc o s ∧ dv.val = dstVal w o s ∧ dv.usesExt = o.ext.isSome ∧
      (∀ ea, dstAddr o s = some ea → dv.loc = .mem ea ∧ misaligned w ea = false) ∧ w.trunc dv.val = dv.val := by
  have hm : ∀ {ea}, memDest w ea s = .ok dv →
      dv.loc = .mem ea ∧ dv.val = s.load w ea ∧ dv.usesExt = true ∧ misaligned w ea = false ∧ w.trunc dv.val = dv.val := by
    intro ea hh
    simp only [memDest] at hh
    split at hh
    · cases hh
    · next v hv =>
      cases hh
      obtain ⟨ha, rfl⟩ := memRead_ok hv
      exact ⟨rfl, rfl, rfl, ha, trunc_load _ _ _⟩
  cases o with
  | reg r => cases h; exact ⟨rfl, rfl, rfl, nofun, w.trunc_trunc _⟩
  | symbolic x => cases h
  | indexed r x =>
    obtain ⟨h1, h2, h3, h4, h5⟩ := hm h
    exact ⟨h1, h2, h3, fun ea he => by cases he; exact ⟨h1, h4⟩, h5⟩
  | absolute a =>
    obtain ⟨h1, h2, h3, h4, h5⟩ := hm h
    exact ⟨h1, h2, h3, fun ea he => by cases he; exact ⟨h1, h4⟩, h5⟩

/-- The two ways a destination operand faults (R115, R43). -/
theorem resolveDst_error {w : Width} {o : DstOp} {s : State} {k : FaultKind} (h : resolveDst w o s = .error k) :
    (k = .unsupportedAddressing ∧ ∃ x, o = .symbolic x) ∨
      (k = .misalignedAccess ∧ ∃ ea, dstAddr o s = some ea ∧ misaligned w ea = true) := by
  have hm : ∀ {ea}, memDest w ea s = .error k → misaligned w ea = true ∧ k = .misalignedAccess := by
    intro ea hh
    simp only [memDest] at hh
    split at hh
    · next e he => cases hh; exact memRead_error he
    · cases hh
  cases o with
  | reg r => cases h
  | symbolic x => cases h; exact .inl ⟨rfl, _, rfl⟩
  | indexed r x => exact .inr ⟨(hm h).2, _, rfl, (hm h).1⟩
  | absolute a => exact .inr ⟨(hm h).2, _, rfl, (hm h).1⟩

/-- Where a destination's result goes: its register, or its aligned memory bytes. -/
theorem resultReady_dst {w : Width} {o : DstOp} {s : State} {dv : DstStage} (h : resolveDst w o s = .ok dv) :
    (∃ r, o = .reg r ∧ dv.loc = .reg r) ∨ ∃ ea, dstAddr o s = some ea ∧ dv.loc = .mem ea ∧ misaligned w ea = false := by
  obtain ⟨h1, _, _, h4, _⟩ := resolveDst_ok h
  cases o with
  | reg r => exact .inl ⟨r, rfl, h1⟩
  | symbolic x => cases h
  | indexed r x => exact .inr ⟨_, rfl, h4 _ rfl⟩
  | absolute a => exact .inr ⟨_, rfl, h4 _ rfl⟩

end Machine

end Sys2Proof
end

