-- ==== Sys2Proof/Laws/Flags.lean ====
section
/-! SUPPORT. The laws of the flags and of the arithmetic under them: the bits a flag update writes, and a value's sign bit,
signed value and overflow as numbers. -/

namespace Sys2Proof

/-! ## Widths as numbers -/

theorem Width.modulus_cases (w : Width) : (w = .word ∧ w.modulus = 65536) ∨ (w = .byte ∧ w.modulus = 256) := by
  cases w
  · exact .inl ⟨rfl, rfl⟩
  · exact .inr ⟨rfl, rfl⟩

theorem getLsbD_eq_decide (v : Word) (k : Nat) : v.getLsbD k = decide (v.toNat / 2 ^ k % 2 = 1) := by
  rw [← BitVec.testBit_toNat, Nat.testBit_eq_decide_div_mod_eq]

/-- The sign bit says that the value is in the upper half. -/
theorem Width.msb_eq_decide {w : Width} {v : Word} (h : v.toNat < w.modulus) : w.msb v = decide (w.modulus / 2 ≤ v.toNat) := by
  cases w
  · simp only [Width.msb, Width.modulus, Width.bits, getLsbD_eq_decide] at h ⊢
    exact decide_eq_decide.mpr (by omega)
  · simp only [Width.msb, Width.modulus, Width.bits, getLsbD_eq_decide] at h ⊢
    exact decide_eq_decide.mpr (by omega)

/-- The signed value as a number. -/
theorem Width.signed_eq {w : Width} {v : Word} (h : v.toNat < w.modulus) :
    w.signed v = if 2 * v.toNat < w.modulus then (v.toNat : Int) else (v.toNat : Int) - (w.modulus : Int) := by
  cases w
  · simp only [Width.signed, Width.modulus, Width.bits, BitVec.toInt_eq_toNat_cond]; rfl
  · simp only [Width.modulus, Width.bits] at h
    simp only [Width.signed, Width.modulus, Width.bits, BitVec.toInt_eq_toNat_cond, BitVec.toNat_setWidth]
    rw [Nat.mod_eq_of_lt h]
    rfl

theorem Width.toNat_lt_of_trunc {w : Width} {v : Word} (h : w.trunc v = v) : v.toNat < w.modulus :=
  (w.trunc_eq_self_iff v).mp h

/-- A number narrowed to w bits is a value of width w. -/
@[simp] theorem Width.trunc_ofNat_mod (w : Width) (n : Nat) :
    w.trunc (BitVec.ofNat 16 (n % w.modulus)) = BitVec.ofNat 16 (n % w.modulus) := by
  rw [w.trunc_eq_self_iff]
  rcases w.modulus_cases with ⟨_, h⟩ | ⟨_, h⟩ <;> simp only [h, BitVec.toNat_ofNat] <;> omega

theorem Width.toNat_ofNat_mod (w : Width) (n : Nat) : (BitVec.ofNat 16 (n % w.modulus)).toNat = n % w.modulus := by
  rcases w.modulus_cases with ⟨_, h⟩ | ⟨_, h⟩ <;> simp only [h, BitVec.toNat_ofNat] <;> omega

theorem Width.toNat_ofInt_mod (w : Width) (n : Int) :
    ((BitVec.ofInt 16 (n % (w.modulus : Int))).toNat : Int) = n % (w.modulus : Int) := by
  rcases w.modulus_cases with ⟨_, h⟩ | ⟨_, h⟩ <;> simp only [h, BitVec.toNat_ofInt] <;> omega

@[simp] theorem Width.trunc_ofInt_mod (w : Width) (n : Int) :
    w.trunc (BitVec.ofInt 16 (n % (w.modulus : Int))) = BitVec.ofInt 16 (n % (w.modulus : Int)) := by
  have h := w.toNat_ofInt_mod n
  rw [w.trunc_eq_self_iff]
  rcases w.modulus_cases with ⟨_, hm⟩ | ⟨_, hm⟩ <;> simp only [hm] at h ⊢ <;> omega

theorem Width.trunc_and {w : Width} {a b : Word} (hb : w.trunc b = b) : w.trunc (a &&& b) = a &&& b := by
  cases w
  · rfl
  · rw [← hb]; simp only [Width.trunc]
    apply BitVec.eq_of_getLsbD_eq; intro i hi
    simp only [BitVec.getLsbD_setWidth, BitVec.getLsbD_and]
    by_cases h : i < 8 <;> simp [h, hi]

theorem Width.trunc_or {w : Width} {a b : Word} (ha : w.trunc a = a) (hb : w.trunc b = b) : w.trunc (a ||| b) = a ||| b := by
  cases w
  · rfl
  · rw [← ha, ← hb]; simp only [Width.trunc]
    apply BitVec.eq_of_getLsbD_eq; intro i hi
    simp only [BitVec.getLsbD_setWidth, BitVec.getLsbD_or]
    by_cases h : i < 8 <;> simp [h, hi]

theorem Width.trunc_xor {w : Width} {a b : Word} (ha : w.trunc a = a) (hb : w.trunc b = b) : w.trunc (a ^^^ b) = a ^^^ b := by
  cases w
  · rfl
  · rw [← ha, ← hb]; simp only [Width.trunc]
    apply BitVec.eq_of_getLsbD_eq; intro i hi
    simp only [BitVec.getLsbD_setWidth, BitVec.getLsbD_xor]
    by_cases h : i < 8 <;> simp [h, hi]

@[simp] theorem Width.msb_and (w : Width) (a b : Word) : w.msb (a &&& b) = (w.msb a && w.msb b) := by
  cases w <;> simp [Width.msb]

@[simp] theorem Width.msb_xor (w : Width) (a b : Word) : w.msb (a ^^^ b) = (w.msb a ^^ w.msb b) := by
  cases w <;> simp [Width.msb]

namespace Machine

/-! ## Flag bits -/

/-- One bit of SR after one flag's update. -/
theorem getLsbD_putBit (k : Nat) (hk : k < 16) (x : Option Bool) (sr : Word) (i : Nat) :
    (putBit k x sr).getLsbD i = if i = k then x.getD (sr.getLsbD i) else sr.getLsbD i := by
  rcases x with _ | _ | _
  · simp [putBit]
  · simp only [putBit, BitVec.getLsbD_and, BitVec.getLsbD_not, BitVec.getLsbD_shiftLeft, BitVec.getLsbD_one]
    by_cases h : i = k
    · subst h; simp [hk]
    · by_cases hi : i < 16
      · by_cases hlt : i < k
        · simp [h, hi, hlt]
        · simp [h, hi, hlt, show ¬(i - k = 0) by omega]
      · simp [h, hi, BitVec.getLsbD_of_ge sr i (by omega)]
  · simp only [putBit, BitVec.getLsbD_or, BitVec.getLsbD_shiftLeft, BitVec.getLsbD_one]
    by_cases h : i = k
    · subst h; simp [hk]
    · by_cases hlt : i < k
      · simp [h, hlt]
      · simp [h, show ¬(i - k = 0) by omega]

/-- Each bit of SR after W1. -/
theorem getLsbD_apply (u : FlagUpdate) (sr : Word) (i : Nat) :
    (u.apply sr).getLsbD i =
      if i = bitC then u.c.getD (sr.getLsbD i) else if i = bitZ then u.z.getD (sr.getLsbD i)
      else if i = bitN then u.n.getD (sr.getLsbD i) else if i = bitV then u.v.getD (sr.getLsbD i) else sr.getLsbD i := by
  simp only [FlagUpdate.apply, getLsbD_putBit _ (by decide : bitC < 16), getLsbD_putBit _ (by decide : bitZ < 16),
    getLsbD_putBit _ (by decide : bitN < 16), getLsbD_putBit _ (by decide : bitV < 16)]
  have h : bitC = 0 ∧ bitZ = 1 ∧ bitN = 2 ∧ bitV = 8 := ⟨rfl, rfl, rfl, rfl⟩
  obtain ⟨hc, hz, hn, hv⟩ := h
  rw [hc, hz, hn, hv]
  split
  · next h => subst h; simp
  · split
    · next h => subst h; simp
    · split
      · next h => subst h; simp
      · rfl

@[simp] theorem apply_none (sr : Word) : ({} : FlagUpdate).apply sr = sr := rfl

theorem flagC_of_sr {s : State} {u : FlagUpdate} {sr : Word} (h : s.reg .sr = u.apply sr) : s.flagC = u.c.getD (sr.getLsbD bitC) := by
  rw [State.flagC, h, getLsbD_apply]; rfl

theorem flagZ_of_sr {s : State} {u : FlagUpdate} {sr : Word} (h : s.reg .sr = u.apply sr) : s.flagZ = u.z.getD (sr.getLsbD bitZ) := by
  rw [State.flagZ, h, getLsbD_apply]; rfl

theorem flagN_of_sr {s : State} {u : FlagUpdate} {sr : Word} (h : s.reg .sr = u.apply sr) : s.flagN = u.n.getD (sr.getLsbD bitN) := by
  rw [State.flagN, h, getLsbD_apply]; rfl

theorem flagV_of_sr {s : State} {u : FlagUpdate} {sr : Word} (h : s.reg .sr = u.apply sr) : s.flagV = u.v.getD (sr.getLsbD bitV) := by
  rw [State.flagV, h, getLsbD_apply]; rfl

/-! ## Overflow -/

theorem signedOverflow_eq_decide (w : Width) (x : Int) :
    signedOverflow w x = decide (x < -(w.modulus / 2 : Int) ∨ (w.modulus / 2 : Int) - 1 < x) := by
  simp only [signedOverflow]
  by_cases h1 : -(w.modulus / 2 : Int) ≤ x <;> by_cases h2 : x ≤ (w.modulus / 2 : Int) - 1 <;> simp only [h1, h2] <;> simp <;> omega

@[simp] theorem trunc_addW_value (w : Width) (d s : Word) (c : Bool) : w.trunc (addW w d s c).value = (addW w d s c).value :=
  Width.trunc_ofNat_mod w _

@[simp] theorem trunc_subW_value (w : Width) (d s : Word) (b : Bool) : w.trunc (subW w d s b).value = (subW w d s b).value :=
  Width.trunc_ofInt_mod w _

end Machine

end Sys2Proof
end

