-- ==== Sys2Proof/Laws/Writeback.lean ====
section
/-! SUPPORT. Stage 5 once and for all: what a completed writeback leaves in every register and every byte (`writeback_ok`), and
when it completes and how it faults (`writeback_cases`). -/

namespace Sys2Proof.Machine

/-- The effect of a stage-4 outcome. -/
def stageEffect (w : Width) (n : Nat) (inc : Option (Reg × Word)) (e : ExecStage) : Effect :=
  { extWords := n
    flags := e.flags
    autoInc := inc
    push := e.stackVal
    result := e.result.bind fun v => e.target.map fun l => (l, w, v)
    newValue := e.newValue }

/-- The state after W1 to W3. -/
def upToInc (inc : Option (Reg × Word)) (e : ExecStage) (s : State) : State :=
  applyAutoInc inc (applyDecSp e.decSp (applyFlags e.flags s))

@[simp] theorem upToInc_mem (inc : Option (Reg × Word)) (e : ExecStage) (s : State) : (upToInc inc e s).mem = s.mem := by
  simp [upToInc]

@[simp] theorem upToInc_faultLatch (inc : Option (Reg × Word)) (e : ExecStage) (s : State) :
    (upToInc inc e s).faultLatch = s.faultLatch := by simp [upToInc]

@[simp] theorem upToInc_byte (inc : Option (Reg × Word)) (e : ExecStage) (s : State) (a : Word) :
    (upToInc inc e s).byte a = s.byte a := by simp [State.byte]

theorem upToInc_reg {w : Width} {n : Nat} {inc : Option (Reg × Word)} {e : ExecStage} {s : State} (hd : e.decSp = e.stackVal.isSome)
    (r : Reg) : (upToInc inc e s).reg r = (stageEffect w n inc e).midway s r := by
  have hdec : (applyDecSp e.decSp (applyFlags e.flags s)).reg r =
      if r = .sr then e.flags.apply (s.reg .sr)
      else if r = .sp then s.reg .sp - (if e.stackVal.isSome then 2 else 0)
      else s.reg r := by
    rw [reg_applyDecSp, reg_applyFlags, reg_applyFlags, hd]
    cases r <;> cases e.stackVal <;> simp
  have hm : (stageEffect w n inc e).midway s r =
      (applyDecSp e.decSp (applyFlags e.flags s)).reg r + (stageEffect w n inc e).incFor r := by
    rw [hdec]; rfl
  rw [hm, upToInc]
  rcases inc with _ | ⟨q, k⟩
  · simp [applyAutoInc, stageEffect, Effect.incFor]
  · simp only [applyAutoInc, State.reg_setReg, stageEffect, Effect.incFor]
    by_cases h : r = q
    · subst h; simp
    · simp [h, Ne.symm h]

/-- A byte store and a word store as one lookup. -/
theorem byte_store {s : State} (hs : s.mem.wf = true) (w : Width) (ea v a : Word) :
    (s.store w ea v).byte a = (storedByte w ea v a).getD (s.byte a) := by
  cases w
  · simp only [State.store, State.byte_setWord hs, storedByte]
    split
    · rfl
    · split <;> rfl
  · simp only [State.store, State.byte_setByte hs, storedByte]
    split <;> rfl

/-- W4, when it completes. -/
theorem stackWrite_ok {e : Option (Width × Word)} {s t : State} (hs : s.mem.wf = true) (h : stackWrite e s = .ok t) :
    t.mem.wf = true ∧ t.regs = s.regs ∧ t.faultLatch = s.faultLatch ∧
      ∀ a, t.byte a = (e.bind fun p => storedByte p.1 (s.reg .sp) p.2 a).getD (s.byte a) := by
  rcases e with _ | ⟨w, v⟩
  · cases h; exact ⟨hs, rfl, rfl, fun _ => rfl⟩
  · obtain ⟨_, rfl⟩ := memWrite_ok h
    exact ⟨State.wf_store hs _ _ _, by simp, by simp, byte_store hs w _ v⟩

/-- W5, when it completes: the result register or the result bytes. -/
theorem resultWrite_ok {w : Width} {v : Option Word} {l : Option Loc} {s t : State} (hs : s.mem.wf = true)
    (h : resultWrite w v l s = .ok t) :
    let e : Effect := { result := v.bind fun x => l.map fun y => (y, w, x) }
    t.mem.wf = true ∧ t.faultLatch = s.faultLatch ∧ (∀ r, t.reg r = (e.resultFor r).getD (s.reg r)) ∧
      ∀ a, t.byte a = (e.resultByte a).getD (s.byte a) := by
  rcases v with _ | v
  · cases h; exact ⟨hs, rfl, fun _ => rfl, fun _ => rfl⟩
  · rcases l with _ | l | ea
    · cases h; exact ⟨hs, rfl, fun _ => rfl, fun _ => rfl⟩
    · simp only [resultWrite, writeReg] at h
      split at h
      · cases h
      · cases h
        refine ⟨hs, rfl, fun r => ?_, fun _ => rfl⟩
        simp only [State.reg_setReg, Effect.resultFor, Option.bind_some, Option.map_some]
        by_cases hr : r = l
        · subst hr; simp
        · rw [if_neg hr, if_neg (Ne.symm hr), Option.getD_none]
    · obtain ⟨_, rfl⟩ := memWrite_ok h
      exact ⟨State.wf_store hs _ _ _, by simp, fun r => by rw [State.reg_store]; rfl, byte_store hs w ea v⟩

/-- Stage 5, when it completes: the latch, the canonical form, every register and every byte. -/
theorem writeback_ok {w : Width} {n : Nat} {inc : Option (Reg × Word)} {e : ExecStage} {s t : State} (hs : s.mem.wf = true)
    (hd : e.decSp = e.stackVal.isSome) (h : writeback w n inc e s = .ok t) :
    t.mem.wf = true ∧ t.faultLatch = s.faultLatch ∧ (∀ r, t.reg r = (stageEffect w n inc e).regAfter s r) ∧
      ∀ a, t.byte a = (stageEffect w n inc e).byteAfter s a := by
  have hu : (upToInc inc e s).mem.wf = true := by simpa using hs
  simp only [writeback] at h
  change (do
    let s4 ← stackWrite e.stackVal (upToInc inc e s)
    let s5 ← resultWrite w e.result e.target s4
    return pcUpdate n e.newValue s5) = Except.ok t at h
  cases h4 : stackWrite e.stackVal (upToInc inc e s) with
  | error k => rw [h4] at h; cases h
  | ok s4 =>
    rw [h4] at h
    cases h5 : resultWrite w e.result e.target s4 with
    | error k => simp only [bind, Except.bind, h5] at h; cases h
    | ok s5 =>
      simp only [bind, Except.bind, h5, pure, Except.pure] at h
      cases h
      obtain ⟨w4, r4, l4, b4⟩ := stackWrite_ok hu h4
      obtain ⟨w5, l5, r5, b5⟩ := resultWrite_ok w4 h5
      have hreg : ∀ r, s5.reg r = ((stageEffect w n inc e).resultFor r).getD ((stageEffect w n inc e).midway s r) := by
        intro r
        rw [r5 r, ← upToInc_reg (w := w) (n := n) hd r]
        simp only [State.reg, r4]
        rfl
      refine ⟨by simpa using w5, by simp [l5, l4], fun r => ?_, fun a => ?_⟩
      · rw [reg_pcUpdate, hreg, hreg]
        by_cases hp : r = .pc
        · subst hp
          simp only [if_true, Effect.regAfter, stageEffect]
          cases e.newValue <;> rfl
        · simp only [if_neg hp, Effect.regAfter]
      · rw [byte_pcUpdate, b5, b4]
        simp only [Effect.byteAfter, upToInc_byte, Effect.stackByte, upToInc_reg (w := w) (n := n) hd]
        have hp : (stageEffect w n inc e).push = e.stackVal := rfl
        rw [hp]
        cases e.stackVal <;> rfl

/-- W4 can complete: no stack write, or a byte, or a word at an even SP. -/
def stackReady (e : Effect) (s : State) : Bool :=
  match e.push with
  | some (w, _) => !misaligned w (e.midway s .sp)
  | none => true

/-- W5 can complete: no result, or a register that is not R3 or a zero for R3, or an aligned memory location. -/
def resultReady (e : Effect) : Bool :=
  match e.result with
  | some (.reg r, w, v) => decide (r = .cg → w.trunc v = 0)
  | some (.mem ea, w, _) => !misaligned w ea
  | none => true

/-- Stage 5 in every case: it completes, or W4 finds an odd SP, or W5 finds an odd address or a nonzero value for R3. -/
theorem writeback_cases (w : Width) (n : Nat) (inc : Option (Reg × Word)) (e : ExecStage) (s : State)
    (hd : e.decSp = e.stackVal.isSome) :
    if stackReady (stageEffect w n inc e) s = false then writeback w n inc e s = .error .misalignedAccess
    else if resultReady (stageEffect w n inc e) = false then
      writeback w n inc e s = .error (match e.target with | some (.reg _) => .constantRegisterWrite | _ => .misalignedAccess)
    else ∃ t, writeback w n inc e s = .ok t := by
  have hsp := upToInc_reg (w := w) (n := n) (inc := inc) (s := s) hd .sp
  have hwb : writeback w n inc e s = (do
    let s4 ← stackWrite e.stackVal (upToInc inc e s)
    let s5 ← resultWrite w e.result e.target s4
    return pcUpdate n e.newValue s5) := rfl
  have hres : ∀ s4 : State, if resultReady (stageEffect w n inc e) = false then
      resultWrite w e.result e.target s4 = .error (match e.target with | some (.reg _) => .constantRegisterWrite | _ => .misalignedAccess)
      else ∃ t, resultWrite w e.result e.target s4 = .ok t := by
    intro s4
    rcases hr : e.result with _ | v
    · simp [resultWrite, resultReady, stageEffect, hr]
    · rcases ht : e.target with _ | r | ea
      · simp [resultWrite, resultReady, stageEffect, hr, ht]
      · by_cases hc : r = .cg <;> by_cases hz : w.trunc v = 0#16 <;>
          simp [resultWrite, writeReg, resultReady, stageEffect, hr, ht, hc, hz]
      · cases hm : misaligned w ea <;> simp [resultWrite, memWrite, resultReady, stageEffect, hr, ht, hm]
  have hstack : if stackReady (stageEffect w n inc e) s = false then
      stackWrite e.stackVal (upToInc inc e s) = .error .misalignedAccess
      else ∃ t, stackWrite e.stackVal (upToInc inc e s) = .ok t := by
    simp only [stackReady, ← hsp]
    have hp : (stageEffect w n inc e).push = e.stackVal := rfl
    rw [hp]
    rcases e.stackVal with _ | ⟨sw, v⟩
    · simp [stackWrite]
    · cases hm : misaligned sw ((upToInc inc e s).reg .sp) <;> simp [stackWrite, memWrite, hm]
  rw [hwb]
  split at hstack
  · next h => rw [if_pos h, hstack]; rfl
  · next h =>
    rw [if_neg h]
    obtain ⟨s4, h4⟩ := hstack
    rw [h4]
    have h5 := hres s4
    simp only [bind, Except.bind]
    split at h5
    · next h' => rw [if_pos h', h5]
    · next h' =>
      rw [if_neg h']
      obtain ⟨s5, h5⟩ := h5
      rw [h5]
      exact ⟨_, rfl⟩

end Sys2Proof.Machine
end

