-- ==== Sys2Proof/Laws/Shapes.lean ====
section
/-! SUPPORT. The three shapes of an instruction once and for all: when a double-operand, single-operand or jump instruction
completes, with what effect, and when it faults. -/

namespace Sys2Proof.Machine

@[simp] theorem finish_ok (w0 : Word) (s t : State) : finish w0 s (.ok t) = .next t := rfl

@[simp] theorem finish_error (w0 : Word) (s : State) (k : FaultKind) : finish w0 s (.error k) = .next (latched k w0 s) := rfl

/-- An instruction ends in the state it commits, or in the fault taken in the state before it. -/
theorem finish_cases (w0 : Word) (s : State) (x : Except FaultKind State) :
    (∃ t, x = .ok t ∧ finish w0 s x = .next t) ∨ ∃ k, x = .error k ∧ finish w0 s x = .next (latched k w0 s) := by
  cases x with
  | ok t => exact .inl ⟨t, rfl, rfl⟩
  | error k => exact .inr ⟨k, rfl, rfl⟩

/-- The next state of an instruction with an effect. -/
def Leaves (s : State) (e : Effect) (t : State) : Prop :=
  t.mem.wf = true ∧ t.faultLatch = s.faultLatch ∧ (∀ r, t.reg r = e.regAfter s r) ∧ ∀ a, t.byte a = e.byteAfter s a

theorem completes_of_leaves {i : Instr} {s t : State} {e : Effect} (h : exec i s = .next t) (hl : Leaves s e t) : Completes i s e :=
  ⟨t, h, hl.2⟩

/-- Stage 5 on a stage-4 outcome that W4 and W5 accept. -/
theorem writeback_leaves {w : Width} {n : Nat} {inc : Option (Reg × Word)} {x : ExecStage} {s : State} (hs : s.mem.wf = true)
    (hd : x.decSp = x.stackVal.isSome) (h4 : stackReady (stageEffect w n inc x) s = true)
    (h5 : resultReady (stageEffect w n inc x) = true) :
    ∃ t, writeback w n inc x s = .ok t ∧ Leaves s (stageEffect w n inc x) t := by
  have h := writeback_cases w n inc x s hd
  rw [h4, h5] at h
  obtain ⟨t, ht⟩ := h
  exact ⟨t, ht, writeback_ok hs hd ht⟩

theorem writeback_inv {w : Width} {n : Nat} {inc : Option (Reg × Word)} {x : ExecStage} {s t : State}
    (hd : x.decSp = x.stackVal.isSome) (h : writeback w n inc x s = .ok t) :
    stackReady (stageEffect w n inc x) s = true ∧ resultReady (stageEffect w n inc x) = true := by
  have hc := writeback_cases w n inc x s hd
  split at hc
  · rw [h] at hc; cases hc
  · next h4 =>
    split at hc
    · rw [h] at hc; cases hc
    · next h5 => exact ⟨by simpa using h4, by simpa using h5⟩

/-! ## The kinds of fault: MISALIGNED_FETCH is stage 0's alone (R205) -/

theorem resolveSrc_kind {w : Width} {o : SrcOp} {s : State} {k : FaultKind} (h : resolveSrc w o s = .error k) :
    k ≠ .misalignedFetch := by
  rcases resolveSrc_error h with ⟨rfl, _⟩ | ⟨rfl, _⟩ <;> nofun

theorem resolveDst_kind {w : Width} {o : DstOp} {s : State} {k : FaultKind} (h : resolveDst w o s = .error k) :
    k ≠ .misalignedFetch := by
  rcases resolveDst_error h with ⟨rfl, _⟩ | ⟨rfl, _⟩ <;> nofun

theorem writeback_kind {w : Width} {n : Nat} {inc : Option (Reg × Word)} {x : ExecStage} {s : State} {k : FaultKind}
    (hd : x.decSp = x.stackVal.isSome) (h : writeback w n inc x s = .error k) : k ≠ .misalignedFetch := by
  have hc := writeback_cases w n inc x s hd
  split at hc
  · rw [h] at hc; cases hc; nofun
  · split at hc
    · rw [h] at hc; cases hc; split <;> nofun
    · obtain ⟨t, ht⟩ := hc; rw [h] at ht; cases ht

/-- Stage 5 never touches the latch. -/
theorem writeback_latch {w : Width} {n : Nat} {inc : Option (Reg × Word)} {x : ExecStage} {s t : State}
    (h : writeback w n inc x s = .ok t) : t.faultLatch = s.faultLatch := by
  have h : (do
    let s4 ← stackWrite x.stackVal (upToInc inc x s)
    let s5 ← resultWrite w x.result x.target s4
    return pcUpdate n x.newValue s5) = Except.ok t := h
  cases h4 : stackWrite x.stackVal (upToInc inc x s) with
  | error k => rw [h4] at h; cases h
  | ok s4 =>
    rw [h4] at h
    cases h5 : resultWrite w x.result x.target s4 with
    | error k => simp only [bind, Except.bind, h5] at h; cases h
    | ok s5 =>
      simp only [bind, Except.bind, h5, pure, Except.pure] at h
      cases h
      have l4 : s4.faultLatch = s.faultLatch := by
        rcases hs : x.stackVal with _ | ⟨sw, v⟩
        · rw [hs] at h4; cases h4; simp
        · rw [hs] at h4
          obtain ⟨_, rfl⟩ := memWrite_ok h4
          simp
      have l5 : s5.faultLatch = s4.faultLatch := by
        rcases hr : x.result with _ | v
        · rw [hr] at h5; cases h5; rfl
        · rcases ht : x.target with _ | r | ea
          · rw [hr, ht] at h5; cases h5; rfl
          · rw [hr, ht] at h5
            simp only [resultWrite, writeReg] at h5
            split at h5
            · cases h5
            · cases h5; rfl
          · rw [hr, ht] at h5
            obtain ⟨_, rfl⟩ := memWrite_ok h5
            simp
      simp [l5, l4]

/-! ## Double operand -/

/-- The effect of a double-operand instruction. -/
def doubleEffect (w : Width) (sv : SrcStage) (dv : DstStage) (x : ExecStage) : Effect :=
  stageEffect w (extCount sv.usesExt dv.usesExt) sv.autoInc x

theorem runDouble_eq {w0 : Word} {w : Width} {src : SrcOp} {dst : DstOp} {alu : SrcStage → DstStage → ExecStage} {s : State}
    {sv : SrcStage} {dv : DstStage} (h2 : resolveSrc w src s = .ok sv) (h3 : resolveDst w dst s = .ok dv) :
    runDouble w0 w src dst alu s = finish w0 s (writeback w (extCount sv.usesExt dv.usesExt) sv.autoInc (alu sv dv) s) := by
  simp only [runDouble, h2, h3]; rfl

theorem runDouble_src_error {w0 : Word} {w : Width} {src : SrcOp} {dst : DstOp} {alu : SrcStage → DstStage → ExecStage} {s : State}
    {k : FaultKind} (h2 : resolveSrc w src s = .error k) : runDouble w0 w src dst alu s = .next (latched k w0 s) := by
  simp only [runDouble, h2]; rfl

theorem runDouble_dst_error {w0 : Word} {w : Width} {src : SrcOp} {dst : DstOp} {alu : SrcStage → DstStage → ExecStage} {s : State}
    {sv : SrcStage} {k : FaultKind} (h2 : resolveSrc w src s = .ok sv) (h3 : resolveDst w dst s = .error k) :
    runDouble w0 w src dst alu s = .next (latched k w0 s) := by
  simp only [runDouble, h2, h3]; rfl

/-- A flags-only instruction completes as soon as its operands resolve. -/
theorem runDouble_flagsOnly {w0 : Word} {w : Width} {src : SrcOp} {dst : DstOp} {alu : SrcStage → DstStage → AluResult} {s : State}
    {sv : SrcStage} {dv : DstStage} (hs : s.mem.wf = true) (h2 : resolveSrc w src s = .ok sv) (h3 : resolveDst w dst s = .ok dv) :
    ∃ t, runDouble w0 w src dst (fun sv dv => flagsOnly (alu sv dv)) s = .next t ∧
      Leaves s (doubleEffect w sv dv (flagsOnly (alu sv dv))) t := by
  rw [runDouble_eq h2 h3]
  obtain ⟨t, ht, hl⟩ := writeback_leaves (w := w) (n := extCount sv.usesExt dv.usesExt) (inc := sv.autoInc)
    (x := flagsOnly (alu sv dv)) hs rfl rfl rfl
  exact ⟨t, by rw [ht]; rfl, hl⟩

/-- An instruction that writes its destination completes as soon as its operands resolve, but for a nonzero value for R3. -/
theorem runDouble_toDest {w0 : Word} {w : Width} {src : SrcOp} {dst : DstOp} {alu : SrcStage → DstStage → AluResult} {s : State}
    {sv : SrcStage} {dv : DstStage} (hs : s.mem.wf = true) (h2 : resolveSrc w src s = .ok sv) (h3 : resolveDst w dst s = .ok dv)
    (hcg : dst = .reg .cg → w.trunc (alu sv dv).value = 0) :
    ∃ t, runDouble w0 w src dst (fun sv dv => toDest dv (alu sv dv)) s = .next t ∧
      Leaves s (doubleEffect w sv dv (toDest dv (alu sv dv))) t := by
  rw [runDouble_eq h2 h3]
  have h5 : resultReady (stageEffect w (extCount sv.usesExt dv.usesExt) sv.autoInc (toDest dv (alu sv dv))) = true := by
    rcases resultReady_dst h3 with ⟨r, rfl, hl⟩ | ⟨ea, _, hl, ha⟩
    · simp only [resultReady, stageEffect, toDest, hl, Option.bind_some, Option.map_some, decide_eq_true_eq]
      rintro rfl; exact hcg rfl
    · simp [resultReady, stageEffect, toDest, hl, ha]
  obtain ⟨t, ht, hl⟩ := writeback_leaves (w := w) (n := extCount sv.usesExt dv.usesExt) (inc := sv.autoInc)
    (x := toDest dv (alu sv dv)) hs rfl rfl h5
  exact ⟨t, by rw [ht]; rfl, hl⟩

/-- A nonzero value for R3 faults (R122). -/
theorem runDouble_cg {w0 : Word} {w : Width} {src : SrcOp} {alu : SrcStage → DstStage → AluResult} {s : State}
    {sv : SrcStage} {dv : DstStage} (h2 : resolveSrc w src s = .ok sv) (h3 : resolveDst w (.reg .cg) s = .ok dv)
    (hcg : w.trunc (alu sv dv).value ≠ 0) :
    runDouble w0 w src (.reg .cg) (fun sv dv => toDest dv (alu sv dv)) s = .next (latched .constantRegisterWrite w0 s) := by
  rw [runDouble_eq h2 h3]
  have h := writeback_cases w (extCount sv.usesExt dv.usesExt) sv.autoInc (toDest dv (alu sv dv)) s rfl
  have h4 : stackReady (stageEffect w (extCount sv.usesExt dv.usesExt) sv.autoInc (toDest dv (alu sv dv))) s = true := rfl
  have hl : dv.loc = .reg .cg := (resolveDst_ok h3).1
  have h5 : resultReady (stageEffect w (extCount sv.usesExt dv.usesExt) sv.autoInc (toDest dv (alu sv dv))) = false := by
    simp only [resultReady, stageEffect, toDest, hl, Option.bind_some, Option.map_some, decide_eq_false_iff_not]
    exact fun hh => hcg (hh trivial)
  rw [h4, h5] at h
  simp only [toDest, hl] at h
  have : writeback w (extCount sv.usesExt dv.usesExt) sv.autoInc (toDest dv (alu sv dv)) s = .error .constantRegisterWrite := by
    simpa [toDest, hl] using h
  rw [this]; rfl

/-- Everything a double-operand instruction can do. -/
theorem runDouble_cases {w0 : Word} {w : Width} {src : SrcOp} {dst : DstOp} {alu : SrcStage → DstStage → ExecStage} {s t : State}
    (hs : s.mem.wf = true) (hd : ∀ sv dv, (alu sv dv).decSp = (alu sv dv).stackVal.isSome)
    (h : runDouble w0 w src dst alu s = .next t) :
    (∃ k, k ≠ .misalignedFetch ∧ t = latched k w0 s) ∨ ∃ sv dv, resolveSrc w src s = .ok sv ∧ resolveDst w dst s = .ok dv ∧
      resultReady (doubleEffect w sv dv (alu sv dv)) = true ∧ Leaves s (doubleEffect w sv dv (alu sv dv)) t := by
  cases h2 : resolveSrc w src s with
  | error k => rw [runDouble_src_error h2] at h; cases h; exact .inl ⟨k, resolveSrc_kind h2, rfl⟩
  | ok sv =>
    cases h3 : resolveDst w dst s with
    | error k => rw [runDouble_dst_error h2 h3] at h; cases h; exact .inl ⟨k, resolveDst_kind h3, rfl⟩
    | ok dv =>
      rw [runDouble_eq h2 h3] at h
      rcases finish_cases w0 s (writeback w (extCount sv.usesExt dv.usesExt) sv.autoInc (alu sv dv) s) with ⟨u, hu, hf⟩ | ⟨k, hk, hf⟩
      · rw [hf] at h; cases h
        exact .inr ⟨sv, dv, rfl, rfl, (writeback_inv (hd sv dv) hu).2, writeback_ok hs (hd sv dv) hu⟩
      · rw [hf] at h; cases h; exact .inl ⟨k, writeback_kind (hd sv dv) hk, rfl⟩

/-- In every state, the latch stays as it was or is the only thing that changes. -/
theorem runDouble_latch {w0 : Word} {w : Width} {src : SrcOp} {dst : DstOp} {alu : SrcStage → DstStage → ExecStage} {s t : State}
    (hd : ∀ sv dv, (alu sv dv).decSp = (alu sv dv).stackVal.isSome) (h : runDouble w0 w src dst alu s = .next t) :
    t.faultLatch = s.faultLatch ∨ ∃ k, k ≠ .misalignedFetch ∧ t = latched k w0 s := by
  cases h2 : resolveSrc w src s with
  | error k => rw [runDouble_src_error h2] at h; cases h; exact .inr ⟨k, resolveSrc_kind h2, rfl⟩
  | ok sv =>
    cases h3 : resolveDst w dst s with
    | error k => rw [runDouble_dst_error h2 h3] at h; cases h; exact .inr ⟨k, resolveDst_kind h3, rfl⟩
    | ok dv =>
      rw [runDouble_eq h2 h3] at h
      rcases finish_cases w0 s (writeback w (extCount sv.usesExt dv.usesExt) sv.autoInc (alu sv dv) s) with ⟨u, hu, hf⟩ | ⟨k, hk, hf⟩
      · rw [hf] at h; cases h; exact .inl (writeback_latch hu)
      · rw [hf] at h; cases h; exact .inr ⟨k, writeback_kind (hd sv dv) hk, rfl⟩

/-! ## Single operand -/

/-- The effect of a single-operand instruction. -/
def singleEffect (w : Width) (sv : SrcStage) (x : ExecStage) : Effect := stageEffect w (extCount sv.usesExt false) sv.autoInc x

theorem runSingle_eq {w0 : Word} {w : Width} {op : SrcOp} {alu : SrcStage → Except FaultKind ExecStage} {s : State} {sv : SrcStage}
    {x : ExecStage} (h2 : resolveSrc w op s = .ok sv) (h4 : alu sv = .ok x) :
    runSingle w0 w op alu s = finish w0 s (writeback w (extCount sv.usesExt false) sv.autoInc x s) := by
  simp only [runSingle, h2]
  change finish w0 s (do let e ← alu sv; writeback w (extCount sv.usesExt false) sv.autoInc e s) = _
  rw [h4]; rfl

theorem runSingle_src_error {w0 : Word} {w : Width} {op : SrcOp} {alu : SrcStage → Except FaultKind ExecStage} {s : State}
    {k : FaultKind} (h2 : resolveSrc w op s = .error k) : runSingle w0 w op alu s = .next (latched k w0 s) := by
  simp only [runSingle, h2]; rfl

theorem runSingle_alu_error {w0 : Word} {w : Width} {op : SrcOp} {alu : SrcStage → Except FaultKind ExecStage} {s : State}
    {sv : SrcStage} {k : FaultKind} (h2 : resolveSrc w op s = .ok sv) (h4 : alu sv = .error k) :
    runSingle w0 w op alu s = .next (latched k w0 s) := by
  simp only [runSingle, h2]
  change finish w0 s (do let e ← alu sv; writeback w (extCount sv.usesExt false) sv.autoInc e s) = _
  rw [h4]; rfl

/-- Everything a single-operand instruction can do. -/
theorem runSingle_cases {w0 : Word} {w : Width} {op : SrcOp} {alu : SrcStage → Except FaultKind ExecStage} {s t : State}
    (hs : s.mem.wf = true) (hd : ∀ sv x, alu sv = .ok x → x.decSp = x.stackVal.isSome)
    (hk4 : ∀ sv k, alu sv = .error k → k ≠ .misalignedFetch) (h : runSingle w0 w op alu s = .next t) :
    (∃ k, k ≠ .misalignedFetch ∧ t = latched k w0 s) ∨ ∃ sv x, resolveSrc w op s = .ok sv ∧ alu sv = .ok x ∧
      stackReady (singleEffect w sv x) s = true ∧ resultReady (singleEffect w sv x) = true ∧ Leaves s (singleEffect w sv x) t := by
  cases h2 : resolveSrc w op s with
  | error k => rw [runSingle_src_error h2] at h; cases h; exact .inl ⟨k, resolveSrc_kind h2, rfl⟩
  | ok sv =>
    cases h4 : alu sv with
    | error k => rw [runSingle_alu_error h2 h4] at h; cases h; exact .inl ⟨k, hk4 sv k h4, rfl⟩
    | ok x =>
      rw [runSingle_eq h2 h4] at h
      rcases finish_cases w0 s (writeback w (extCount sv.usesExt false) sv.autoInc x s) with ⟨u, hu, hf⟩ | ⟨k, hk, hf⟩
      · rw [hf] at h; cases h
        have hi := writeback_inv (hd sv x h4) hu
        exact .inr ⟨sv, x, rfl, h4, hi.1, hi.2, writeback_ok hs (hd sv x h4) hu⟩
      · rw [hf] at h; cases h; exact .inl ⟨k, writeback_kind (hd sv x h4) hk, rfl⟩

/-- In every state, the latch stays as it was or is the only thing that changes. -/
theorem runSingle_latch {w0 : Word} {w : Width} {op : SrcOp} {alu : SrcStage → Except FaultKind ExecStage} {s t : State}
    (hd : ∀ sv x, alu sv = .ok x → x.decSp = x.stackVal.isSome) (hk4 : ∀ sv k, alu sv = .error k → k ≠ .misalignedFetch)
    (h : runSingle w0 w op alu s = .next t) :
    t.faultLatch = s.faultLatch ∨ ∃ k, k ≠ .misalignedFetch ∧ t = latched k w0 s := by
  cases h2 : resolveSrc w op s with
  | error k => rw [runSingle_src_error h2] at h; cases h; exact .inr ⟨k, resolveSrc_kind h2, rfl⟩
  | ok sv =>
    cases h4 : alu sv with
    | error k => rw [runSingle_alu_error h2 h4] at h; cases h; exact .inr ⟨k, hk4 sv k h4, rfl⟩
    | ok x =>
      rw [runSingle_eq h2 h4] at h
      rcases finish_cases w0 s (writeback w (extCount sv.usesExt false) sv.autoInc x s) with ⟨u, hu, hf⟩ | ⟨k, hk, hf⟩
      · rw [hf] at h; cases h; exact .inl (writeback_latch hu)
      · rw [hf] at h; cases h; exact .inr ⟨k, writeback_kind (hd sv x h4) hk, rfl⟩

/-- Stage 4 of RRC, SWPB, RRA and SXT (R140). -/
theorem toOperand_ok {sv : SrcStage} {a : AluResult} {x : ExecStage} (h : toOperand sv a = .ok x) :
    ∃ l, sv.loc = some l ∧ x = { result := some a.value, target := some l, flags := a.flags } := by
  simp only [toOperand] at h
  split at h
  · cases h
  · next l hl => cases h; exact ⟨l, hl, rfl⟩

theorem toOperand_kind {sv : SrcStage} {a : AluResult} {k : FaultKind} (h : toOperand sv a = .error k) : k ≠ .misalignedFetch := by
  simp only [toOperand] at h
  split at h
  · cases h; nofun
  · cases h

/-! ## Jumps -/

/-- Everything a jump can do (R160). -/
theorem runJump_eq (w0 : Word) (k : JumpCond) (offset : BitVec 10) (s : State) :
    runJump w0 k offset s =
      if k.holds s then
        (if jumpValue offset s = 0 then .next (latched .zeroTransferTarget w0 s)
          else .next (s.setReg .pc (jumpValue offset s + 2)))
      else .next (s.setReg .pc (s.reg .pc + 2)) := by
  have hflags : applyFlags {} s = s := by
    simp [applyFlags, FlagUpdate.apply, putBit]
  have hwb : ∀ v : Option Word, writeback .word 0 none { newValue := v } s = .ok (pcUpdate 0 v s) := by
    intro v
    simp [writeback, stackWrite, resultWrite, applyDecSp, applyAutoInc, hflags]
    rfl
  simp only [runJump, jumpStage]
  cases k.holds s
  · simp only [Bool.false_eq_true, if_false]
    have := hwb none
    change finish w0 s (writeback .word 0 none {} s) = _
    rw [this]; rfl
  · simp only [if_true]
    split
    · rfl
    · change finish w0 s (writeback .word 0 none { newValue := some (jumpValue offset s) } s) = _
      rw [hwb]; rfl

end Sys2Proof.Machine
end

