-- ==== Sys2Proof/Laws/Exec.lean ====
section
/-! SUPPORT. What `exec` can do, said once for all 27 instructions (`exec_cases`): it takes a fault, or leaves one effect
whose parts the instruction's syntax bounds (`EffectOf`). PUSH's duplicate writeback is shown to write nothing new, so its
effect is the stack write alone. -/

namespace Sys2Proof.Machine

/-- What the syntax of an instruction says of its effect in `s`. -/
structure EffectOf (i : Instr) (s : State) (e : Effect) : Prop where
  flags : i.setsFlags = false → e.flags = {}
  autoInc : ∀ r k, e.autoInc = some (r, k) → i.operand?.bind SrcOp.incReg = some r
  pushes : e.push.isSome = true → i.pushes = true
  pushAt : ∀ w v, e.push = some (w, v) → i.store? s = some (w, e.midway s .sp) ∧ misaligned w (e.midway s .sp) = false
  resultReg : ∀ r w v, e.result = some (.reg r, w, v) → i.destReg = some r ∧ (r = .cg → w.trunc v = 0)
  resultMem : ∀ ea w v, e.result = some (.mem ea, w, v) → i.store? s = some (w, ea) ∧ misaligned w ea = false

/-! ## PUSH -/

/-- What stage 4 of PUSH hands over, its duplicate writeback included (R145). -/
def pushExec (w : Width) (sv : SrcStage) : ExecStage :=
  { decSp := true, stackVal := some (w, sv.val), result := sv.loc.map fun _ => sv.val, target := sv.loc }

/-- Stage 4 of PUSH, where it does not fault. -/
theorem pushStage_ok {w : Width} {op : SrcOp} {sv : SrcStage} {x : ExecStage} (h : pushStage w op sv = .ok x) :
    pushUnsettled w op = false ∧ x = pushExec w sv := by
  simp only [pushStage] at h
  split at h
  · cases h
  · next hu => cases h; exact ⟨by simpa using hu, rfl⟩

/-- Storing at an aligned address what the bytes there already hold changes no byte; so the duplicate writeback of PUSH
stores only what is there before the instruction or what the stack write put there (R146). -/
theorem storedByte_load {w : Width} {s : State} {ea a : Word} {b : Byte} (h : storedByte w ea (s.load w ea) a = some b) :
    b = s.byte a := by
  cases w
  · simp only [storedByte, State.load, State.word, lowByte_wordOfBytes, highByte_wordOfBytes] at h
    split at h
    · next he => subst he; cases h; rfl
    · split at h
      · next he => subst he; cases h; rfl
      · cases h
  · simp only [storedByte, State.load] at h
    split at h
    · next he =>
      subst he; cases h
      apply BitVec.eq_of_getLsbD_eq
      intro i hi
      simp only [lowByte, BitVec.getLsbD_extractLsb', BitVec.getLsbD_setWidth]
      simp [hi, show i < 16 by omega]
    · cases h

/-- Two aligned words that share a byte are one word. -/
theorem storedByte_overlap {w : Width} {p q v a : Word} {b c : Byte} (hp : misaligned w p = false) (hq : misaligned w q = false)
    (h1 : storedByte w p v a = some b) (h2 : storedByte w q v a = some c) : b = c := by
  cases w
  · have hodd : ∀ x : Word, oddAddr (x + 1) = !oddAddr x := by
      intro x
      simp only [oddAddr, getLsbD_eq_decide, BitVec.toNat_add]
      have := x.isLt
      by_cases hx : x.toNat % 2 = 1 <;> simp [hx] <;> omega
    simp only [misaligned_word] at hp hq
    simp only [storedByte] at h1 h2
    by_cases hap : a = p
    · by_cases haq : a = q
      · rw [if_pos hap] at h1; rw [if_pos haq] at h2; exact Option.some.inj (h1.symm.trans h2)
      · rw [if_neg haq] at h2
        split at h2
        · next e => have := hodd q; rw [← e, hap, hp, hq] at this; cases this
        · cases h2
    · rw [if_neg hap] at h1
      split at h1
      · next e =>
        by_cases haq : a = q
        · have := hodd p; rw [← e, haq, hp, hq] at this; cases this
        · rw [if_neg haq] at h2
          split at h2
          · exact Option.some.inj (h1.symm.trans h2)
          · cases h2
      · cases h1
  · simp only [storedByte] at h1 h2
    split at h1
    · split at h2
      · exact Option.some.inj (h1.symm.trans h2)
      · cases h2
    · cases h1

/-- The effect of PUSH that the spec names: the stack write alone. -/
def pushEffect (w : Width) (sv : SrcStage) : Effect :=
  { extWords := extCount sv.usesExt false, autoInc := sv.autoInc, push := some (w, sv.val) }

/-- PUSH leaves its stack write and nothing else: the duplicate writeback changes no register and no byte (R146). -/
theorem push_leaves {w : Width} {op : SrcOp} {s t : State} {sv : SrcStage} {x : ExecStage} (h2 : resolveSrc w op s = .ok sv)
    (h4 : pushStage w op sv = .ok x) (hstack : stackReady (singleEffect w sv x) s = true) (hl : Leaves s (singleEffect w sv x) t) :
    Leaves s (pushEffect w sv) t := by
  obtain ⟨hu, rfl⟩ := pushStage_ok h4
  obtain ⟨hloc, hval, _, hinc, hal, _⟩ := resolveSrc_ok h2
  obtain ⟨hw, hlatch, hr, hb⟩ := hl
  refine ⟨hw, hlatch, fun r => ?_, fun a => ?_⟩
  · rw [hr r]
    have hmid : ∀ q, (singleEffect w sv (pushExec w sv)).midway s q = (pushEffect w sv).midway s q := fun q => rfl
    have hres : ((singleEffect w sv (pushExec w sv)).resultFor r).getD ((pushEffect w sv).midway s r) = (pushEffect w sv).midway s r := by
      rcases hl : sv.loc with _ | q | ea
      · simp [singleEffect, stageEffect, pushExec, Effect.resultFor, hl]
      · simp only [singleEffect, stageEffect, pushExec, Effect.resultFor, hl, Option.map_some, Option.bind_some]
        split
        · next hq =>
          subst hq
          rw [hloc] at hl
          cases op with
          | reg q' =>
            cases hl
            simp only [pushUnsettled, Bool.or_eq_false_iff, decide_eq_false_iff_not] at hu
            have hww : w = .word := by cases w; rfl; exact absurd rfl hu.2
            subst hww
            have hn : sv.autoInc = none := by rw [hinc]; rfl
            simp only [Option.getD_some, Width.trunc_word, hval, srcVal, Effect.midway, pushEffect, Effect.incFor, hn, if_neg hu.1,
              BitVec.ofNat_eq_ofNat, BitVec.add_zero]
            split
            · next h => rw [h]; rfl
            · rfl
          | _ => simp [srcLoc, srcAddr] at hl
        · rfl
      · simp [singleEffect, stageEffect, pushExec, Effect.resultFor, hl]
    simp only [Effect.regAfter, hmid, hres]
    rfl
  · rw [hb a]
    simp only [Effect.byteAfter]
    have hsb : (singleEffect w sv (pushExec w sv)).stackByte s a = (pushEffect w sv).stackByte s a := rfl
    rw [hsb]
    have hpush : (pushEffect w sv).resultByte a = none := rfl
    rw [hpush, Option.getD_none]
    rcases hl : sv.loc with _ | q | ea
    · simp [singleEffect, stageEffect, pushExec, Effect.resultByte, hl]
    · simp [singleEffect, stageEffect, pushExec, Effect.resultByte, hl]
    · simp only [singleEffect, stageEffect, pushExec, Effect.resultByte, hl, Option.map_some, Option.bind_some]
      cases hsby : storedByte w ea sv.val a with
      | none => rfl
      | some b =>
        have hea : srcAddr op s = some ea := by
          rw [hloc] at hl
          cases op <;> simp_all [srcLoc]
        have hv : sv.val = s.load w ea := by
          rw [hval]
          cases op <;> simp_all [srcAddr, srcVal]
        simp only [Option.getD_some]
        cases hst : (pushEffect w sv).stackByte s a with
        | none => rw [hv] at hsby; exact storedByte_load hsby
        | some c =>
          have hstack : misaligned w ((pushEffect w sv).midway s .sp) = false := by
            change (!misaligned w ((pushEffect w sv).midway s .sp)) = true at hstack
            simpa using hstack
          exact storedByte_overlap (hal _ hea) hstack hsby hst

/-! ## The parts of an effect -/

theorem incReg_of_autoInc {w : Width} {o : SrcOp} {s : State} {sv : SrcStage} (h : resolveSrc w o s = .ok sv) {r : Reg} {k : Word}
    (hi : sv.autoInc = some (r, k)) : o.incReg = some r := by
  rw [(resolveSrc_ok h).2.2.2.1] at hi
  cases ho : o.incReg with
  | none => rw [ho] at hi; cases hi
  | some q => rw [ho] at hi; cases hi; rfl

theorem dst_of_loc_reg {w : Width} {o : DstOp} {s : State} {dv : DstStage} (h : resolveDst w o s = .ok dv) {r : Reg}
    (hl : dv.loc = .reg r) : o = .reg r := by
  rcases resultReady_dst h with ⟨q, rfl, hq⟩ | ⟨ea, _, hm, _⟩
  · rw [hq] at hl; cases hl; rfl
  · rw [hm] at hl; cases hl

theorem dst_of_loc_mem {w : Width} {o : DstOp} {s : State} {dv : DstStage} (h : resolveDst w o s = .ok dv) {ea : Word}
    (hl : dv.loc = .mem ea) : dstAddr o s = some ea ∧ misaligned w ea = false := by
  rcases resultReady_dst h with ⟨q, rfl, hq⟩ | ⟨ea', ha, hm, hal⟩
  · rw [hq] at hl; cases hl
  · rw [hm] at hl; cases hl; exact ⟨ha, hal⟩

theorem src_of_loc_reg {w : Width} {o : SrcOp} {s : State} {sv : SrcStage} (h : resolveSrc w o s = .ok sv) {r : Reg}
    (hl : sv.loc = some (.reg r)) : o = .reg r := by
  rw [(resolveSrc_ok h).1] at hl
  cases o <;> simp_all [srcLoc, srcAddr]

theorem src_of_loc_mem {w : Width} {o : SrcOp} {s : State} {sv : SrcStage} (h : resolveSrc w o s = .ok sv) {ea : Word}
    (hl : sv.loc = some (.mem ea)) : srcAddr o s = some ea ∧ misaligned w ea = false := by
  have hm := (resolveSrc_ok h).2.2.2.2.1
  rw [(resolveSrc_ok h).1] at hl
  have ha : srcAddr o s = some ea := by cases o <;> simp_all [srcLoc]
  exact ⟨ha, hm _ ha⟩

/-- A double-operand instruction that writes its destination. -/
theorem effectOf_toDest {i : Instr} {w : Width} {src : SrcOp} {dst : DstOp} {a : AluResult} {s : State} {sv : SrcStage} {dv : DstStage}
    (h2 : resolveSrc w src s = .ok sv) (h3 : resolveDst w dst s = .ok dv) (hr : resultReady (doubleEffect w sv dv (toDest dv a)) = true)
    (hf : i.setsFlags = false → a.flags = {}) (ho : i.operand? = some src) (hd : ∀ r, dst = .reg r → i.destReg = some r)
    (hs : i.store? s = (dstAddr dst s).map fun x => (w, x)) : EffectOf i s (doubleEffect w sv dv (toDest dv a)) where
  flags := hf
  autoInc r k h := by rw [ho]; exact incReg_of_autoInc h2 h
  pushes h := by cases h
  pushAt w v h := by cases h
  resultReg r w' v h := by
    have hp : (dv.loc, w, a.value) = (.reg r, w', v) := Option.some.inj h
    have hl : dv.loc = .reg r := congrArg (·.1) hp
    refine ⟨hd r (dst_of_loc_reg h3 hl), fun hc => ?_⟩
    rw [resultReady, h] at hr
    simpa [hc] using hr
  resultMem ea w' v h := by
    have hp : (dv.loc, w, a.value) = (.mem ea, w', v) := Option.some.inj h
    have hl : dv.loc = .mem ea := congrArg (·.1) hp
    have hw : w = w' := congrArg (·.2.1) hp
    obtain ⟨ha, hal⟩ := dst_of_loc_mem h3 hl
    rw [hs, ha, ← hw]
    exact ⟨rfl, hal⟩

/-- CMP and BIT. -/
theorem effectOf_flagsOnly {i : Instr} {w : Width} {src : SrcOp} {a : AluResult} {s : State} {sv : SrcStage} {dv : DstStage}
    (h2 : resolveSrc w src s = .ok sv) (hf : i.setsFlags = true) (ho : i.operand? = some src) :
    EffectOf i s (doubleEffect w sv dv (flagsOnly a)) where
  flags h := by rw [hf] at h; cases h
  autoInc r k h := by rw [ho]; exact incReg_of_autoInc h2 h
  pushes h := by cases h
  pushAt w v h := by cases h
  resultReg r w v h := by cases h
  resultMem ea w v h := by cases h

/-- RRC, SWPB, RRA and SXT. -/
theorem effectOf_toOperand {i : Instr} {w : Width} {op : SrcOp} {a : AluResult} {s : State} {sv : SrcStage} {x : ExecStage}
    (h2 : resolveSrc w op s = .ok sv) (h4 : toOperand sv a = .ok x) (hr : resultReady (singleEffect w sv x) = true)
    (hf : i.setsFlags = false → a.flags = {}) (ho : i.operand? = some op) (hd : ∀ r, op = .reg r → i.destReg = some r)
    (hs : i.store? s = (srcAddr op s).map fun x => (w, x)) : EffectOf i s (singleEffect w sv x) := by
  obtain ⟨l, hl, rfl⟩ := toOperand_ok h4
  refine ⟨hf, fun r k h => by rw [ho]; exact incReg_of_autoInc h2 h, nofun, nofun, fun r w' v h => ?_, fun ea w' v h => ?_⟩
  · have hp : (l, w, a.value) = (.reg r, w', v) := Option.some.inj h
    have hlr : l = .reg r := congrArg (·.1) hp
    refine ⟨hd r (src_of_loc_reg h2 (hlr ▸ hl)), fun hc => ?_⟩
    rw [resultReady, h] at hr
    simpa [hc] using hr
  · have hp : (l, w, a.value) = (.mem ea, w', v) := Option.some.inj h
    have hlm : l = .mem ea := congrArg (·.1) hp
    have hw : w = w' := congrArg (·.2.1) hp
    obtain ⟨ha, hal⟩ := src_of_loc_mem h2 (hlm ▸ hl)
    rw [hs, ha, ← hw]
    exact ⟨rfl, hal⟩

/-- SP after W1 to W3 of a push: 2 less, because no settled form auto-increments it. -/
theorem midway_sp_of_push {e : Effect} {s : State} (hp : e.push.isSome = true) (hi : ∀ k, e.autoInc ≠ some (.sp, k)) :
    e.midway s .sp = s.reg .sp - 2 := by
  have hinc : e.incFor .sp = 0 := by
    rcases ha : e.autoInc with _ | ⟨q, k⟩
    · simp [Effect.incFor, ha]
    · have hq : q ≠ .sp := fun hq => hi k (by rw [ha, hq])
      simp [Effect.incFor, ha, hq]
  simp [Effect.midway, hinc, hp]

theorem effectOf_push {w : Width} {op : SrcOp} {s : State} {sv : SrcStage} {x : ExecStage} (h2 : resolveSrc w op s = .ok sv)
    (h4 : pushStage w op sv = .ok x) (hr : stackReady (singleEffect w sv x) s = true) :
    EffectOf (.push w op) s (pushEffect w sv) := by
  obtain ⟨hu, rfl⟩ := pushStage_ok h4
  have hsp : (pushEffect w sv).midway s .sp = s.reg .sp - 2 := by
    refine midway_sp_of_push rfl fun k hk => ?_
    have := incReg_of_autoInc h2 hk
    cases op <;> cases this
    simp [pushUnsettled] at hu
  refine ⟨fun _ => rfl, fun r k h => incReg_of_autoInc h2 h, fun _ => rfl, fun w' v h => ?_, nofun, nofun⟩
  cases h
  rw [hsp]
  refine ⟨rfl, ?_⟩
  rw [← hsp]
  change (!misaligned w ((pushEffect w sv).midway s .sp)) = true at hr
  simpa using hr

/-- Stage 4 of CALL, where it does not fault. -/
theorem callStage_ok {op : SrcOp} {pc : Word} {sv : SrcStage} {x : ExecStage} (h : callStage op pc sv = .ok x) :
    op ≠ .indirectInc .sp ∧ sv.val ≠ 0 ∧ x = { decSp := true, stackVal := some (.word, pc + 2), newValue := some sv.val } := by
  simp only [callStage] at h
  split at h
  · cases h
  · next h1 =>
    split at h
    · cases h
    · next h0 => cases h; exact ⟨h1, h0, rfl⟩

theorem pushStage_kind {w : Width} {op : SrcOp} {sv : SrcStage} {k : FaultKind} (h : pushStage w op sv = .error k) :
    k ≠ .misalignedFetch := by
  simp only [pushStage] at h
  split at h <;> cases h
  nofun

theorem callStage_kind {op : SrcOp} {pc : Word} {sv : SrcStage} {k : FaultKind} (h : callStage op pc sv = .error k) :
    k ≠ .misalignedFetch := by
  simp only [callStage] at h
  split at h
  · cases h; nofun
  · split at h <;> cases h
    nofun

theorem effectOf_call {op : SrcOp} {s : State} {sv : SrcStage} {x : ExecStage} (h2 : resolveSrc .word op s = .ok sv)
    (h4 : callStage op (s.reg .pc) sv = .ok x) (hr : stackReady (singleEffect .word sv x) s = true) :
    EffectOf (.call op) s (singleEffect .word sv x) := by
  obtain ⟨hne, _, rfl⟩ := callStage_ok h4
  have hsp : (singleEffect .word sv
      { decSp := true, stackVal := some (.word, s.reg .pc + 2), newValue := some sv.val }).midway s .sp = s.reg .sp - 2 := by
    refine midway_sp_of_push rfl fun k hk => ?_
    have := incReg_of_autoInc h2 hk
    cases op <;> cases this
    exact hne rfl
  refine ⟨fun _ => rfl, fun r k h => incReg_of_autoInc h2 h, fun _ => rfl, fun w' v h => ?_, nofun, nofun⟩
  cases h
  rw [hsp]
  refine ⟨rfl, ?_⟩
  rw [← hsp]
  simp only [stackReady] at hr
  change (!misaligned .word _) = true at hr
  simpa using hr

/-! ## Every instruction -/

/-- A jump moves PC and nothing else, or faults. -/
theorem runJump_cases {i : Instr} {w0 : Word} {k : JumpCond} {offset : BitVec 10} {s t : State} (hs : s.mem.wf = true)
    (h : runJump w0 k offset s = .next t) :
    (∃ k, k ≠ .misalignedFetch ∧ t = latched k w0 s) ∨ ∃ e, Leaves s e t ∧ EffectOf i s e := by
  rw [runJump_eq] at h
  have hmk : ∀ v : Option Word, Leaves s { newValue := v } (pcUpdate 0 v s) := by
    intro v
    refine ⟨by simpa using hs, by simp, fun r => ?_, fun a => by simp [Effect.byteAfter, Effect.resultByte, Effect.stackByte]⟩
    have hm : ∀ q, ({ newValue := v } : Effect).midway s q = s.reg q := by
      intro q; cases q <;> simp [Effect.midway, Effect.incFor]
    rw [reg_pcUpdate]
    simp only [Effect.regAfter, Effect.resultFor, Option.getD_none, hm]
    split
    · next hr => subst hr; cases v <;> rfl
    · rfl
  have he : ∀ v : Option Word, EffectOf i s { newValue := v } := fun v => ⟨fun _ => rfl, nofun, nofun, nofun, nofun, nofun⟩
  split at h
  · split at h
    · cases h; exact .inl ⟨.zeroTransferTarget, nofun, rfl⟩
    · cases h; exact .inr ⟨_, hmk (some _), he _⟩
  · cases h; exact .inr ⟨_, hmk none, he _⟩

/-- Every instruction answers a next state (R130). -/
theorem exec_next (i : Instr) (s : State) : ∃ t, exec i s = .next t := by
  have hf : ∀ w0 x, ∃ t, finish w0 s x = .next t := by
    intro w0 x
    rcases finish_cases w0 s x with ⟨t, _, h⟩ | ⟨k, _, h⟩ <;> exact ⟨_, h⟩
  cases i <;> first | exact hf _ _ | exact ⟨_, rfl⟩

/-- What `exec` can do: a fault, not stage 0's, taken in `s`, or one effect within the bounds of the instruction's syntax. -/
theorem exec_cases {i : Instr} {s t : State} (hs : s.mem.wf = true) (h : exec i s = .next t) :
    (∃ k, k ≠ .misalignedFetch ∧ t = latched k i.firstWord s) ∨ ∃ e, Leaves s e t ∧ EffectOf i s e := by
  have hdest : ∀ {w src dst} {alu : SrcStage → DstStage → AluResult},
      runDouble i.firstWord w src dst (fun sv dv => toDest dv (alu sv dv)) s = .next t →
      (∀ sv dv, i.setsFlags = false → (alu sv dv).flags = {}) → i.operand? = some src → (∀ r, dst = .reg r → i.destReg = some r) →
      i.store? s = ((dstAddr dst s).map fun x => (w, x)) →
      (∃ k, k ≠ .misalignedFetch ∧ t = latched k i.firstWord s) ∨ ∃ e, Leaves s e t ∧ EffectOf i s e := by
    intro w src dst alu h hf ho hd hst
    rcases runDouble_cases hs (fun _ _ => rfl) h with hk | ⟨sv, dv, h2, h3, hr, hl⟩
    · exact .inl hk
    · exact .inr ⟨_, hl, effectOf_toDest h2 h3 hr (hf sv dv) ho hd hst⟩
  have hflags : ∀ {w src dst} {alu : SrcStage → DstStage → AluResult},
      runDouble i.firstWord w src dst (fun sv dv => flagsOnly (alu sv dv)) s = .next t →
      i.setsFlags = true → i.operand? = some src →
      (∃ k, k ≠ .misalignedFetch ∧ t = latched k i.firstWord s) ∨ ∃ e, Leaves s e t ∧ EffectOf i s e := by
    intro w src dst alu h hf ho
    rcases runDouble_cases hs (fun _ _ => rfl) h with hk | ⟨sv, dv, h2, h3, hr, hl⟩
    · exact .inl hk
    · exact .inr ⟨_, hl, effectOf_flagsOnly h2 hf ho⟩
  have hone : ∀ {w op} {alu : SrcStage → AluResult},
      runSingle i.firstWord w op (fun sv => toOperand sv (alu sv)) s = .next t →
      (∀ sv, i.setsFlags = false → (alu sv).flags = {}) → i.operand? = some op → (∀ r, op = .reg r → i.destReg = some r) →
      i.store? s = ((srcAddr op s).map fun x => (w, x)) →
      (∃ k, k ≠ .misalignedFetch ∧ t = latched k i.firstWord s) ∨ ∃ e, Leaves s e t ∧ EffectOf i s e := by
    intro w op alu h hf ho hd hst
    rcases runSingle_cases hs (fun sv x hx => by obtain ⟨_, _, rfl⟩ := toOperand_ok hx; rfl)
      (fun sv k hk => toOperand_kind hk) h with hk | ⟨sv, x, h2, h4, _, hr, hl⟩
    · exact .inl hk
    · exact .inr ⟨_, hl, effectOf_toOperand h2 h4 hr (hf sv) ho hd hst⟩
  cases i with
  | mov w src dst => exact hdest h (fun _ _ _ => rfl) rfl (by rintro r rfl; rfl) rfl
  | add w src dst => exact hdest h (fun _ _ => nofun) rfl (by rintro r rfl; rfl) rfl
  | addc w src dst => exact hdest h (fun _ _ => nofun) rfl (by rintro r rfl; rfl) rfl
  | subc w src dst => exact hdest h (fun _ _ => nofun) rfl (by rintro r rfl; rfl) rfl
  | sub w src dst => exact hdest h (fun _ _ => nofun) rfl (by rintro r rfl; rfl) rfl
  | bic w src dst => exact hdest h (fun _ _ _ => rfl) rfl (by rintro r rfl; rfl) rfl
  | bis w src dst => exact hdest h (fun _ _ _ => rfl) rfl (by rintro r rfl; rfl) rfl
  | xor w src dst => exact hdest h (fun _ _ => nofun) rfl (by rintro r rfl; rfl) rfl
  | and w src dst => exact hdest h (fun _ _ => nofun) rfl (by rintro r rfl; rfl) rfl
  | cmp w src dst => exact hflags h rfl rfl
  | bit w src dst => exact hflags h rfl rfl
  | dadd fields => cases h; exact .inl ⟨.unsupportedOpcode, nofun, rfl⟩
  | reti low => cases h; exact .inl ⟨.unsupportedOpcode, nofun, rfl⟩
  | rrc w op => exact hone h (fun _ => nofun) rfl (by rintro r rfl; rfl) rfl
  | swpb op => exact hone h (fun _ _ => rfl) rfl (by rintro r rfl; rfl) rfl
  | rra w op => exact hone h (fun _ => nofun) rfl (by rintro r rfl; rfl) rfl
  | sxt op => exact hone h (fun _ => nofun) rfl (by rintro r rfl; rfl) rfl
  | push w op =>
    rcases runSingle_cases hs (fun sv x hx => by obtain ⟨_, rfl⟩ := pushStage_ok hx; rfl)
      (fun sv k hk => pushStage_kind hk) h with hk | ⟨sv, x, h2, h4, h5, _, hl⟩
    · exact .inl hk
    · exact .inr ⟨_, push_leaves h2 h4 h5 hl, effectOf_push h2 h4 h5⟩
  | call op =>
    rcases runSingle_cases hs (fun sv x hx => by obtain ⟨_, _, rfl⟩ := callStage_ok hx; rfl)
      (fun sv k hk => callStage_kind hk) h with hk | ⟨sv, x, h2, h4, h5, _, hl⟩
    · exact .inl hk
    · exact .inr ⟨_, hl, effectOf_call h2 h4 h5⟩
  | jne offset => exact runJump_cases hs h
  | jeq offset => exact runJump_cases hs h
  | jnc offset => exact runJump_cases hs h
  | jc offset => exact runJump_cases hs h
  | jn offset => exact runJump_cases hs h
  | jge offset => exact runJump_cases hs h
  | jl offset => exact runJump_cases hs h
  | jmp offset => exact runJump_cases hs h

/-- In every state, an instruction leaves the latch as it was, or it takes a fault, not stage 0's, and changes nothing else. -/
theorem exec_latch {i : Instr} {s t : State} (h : exec i s = .next t) :
    t.faultLatch = s.faultLatch ∨ ∃ k, k ≠ .misalignedFetch ∧ t = latched k i.firstWord s := by
  have hjump : ∀ {k offset}, runJump i.firstWord k offset s = .next t →
      t.faultLatch = s.faultLatch ∨ ∃ k, k ≠ .misalignedFetch ∧ t = latched k i.firstWord s := by
    intro k offset h
    rw [runJump_eq] at h
    split at h
    · split at h
      · cases h; exact .inr ⟨.zeroTransferTarget, nofun, rfl⟩
      · cases h; exact .inl rfl
    · cases h; exact .inl rfl
  have hone : ∀ {w op} {alu : SrcStage → AluResult}, runSingle i.firstWord w op (fun sv => toOperand sv (alu sv)) s = .next t →
      t.faultLatch = s.faultLatch ∨ ∃ k, k ≠ .misalignedFetch ∧ t = latched k i.firstWord s := fun h =>
    runSingle_latch (fun sv x hx => by obtain ⟨_, _, rfl⟩ := toOperand_ok hx; rfl) (fun sv k hk => toOperand_kind hk) h
  cases i with
  | mov w src dst => exact runDouble_latch (fun _ _ => rfl) h
  | add w src dst => exact runDouble_latch (fun _ _ => rfl) h
  | addc w src dst => exact runDouble_latch (fun _ _ => rfl) h
  | subc w src dst => exact runDouble_latch (fun _ _ => rfl) h
  | sub w src dst => exact runDouble_latch (fun _ _ => rfl) h
  | cmp w src dst => exact runDouble_latch (fun _ _ => rfl) h
  | bit w src dst => exact runDouble_latch (fun _ _ => rfl) h
  | bic w src dst => exact runDouble_latch (fun _ _ => rfl) h
  | bis w src dst => exact runDouble_latch (fun _ _ => rfl) h
  | xor w src dst => exact runDouble_latch (fun _ _ => rfl) h
  | and w src dst => exact runDouble_latch (fun _ _ => rfl) h
  | dadd fields => cases h; exact .inr ⟨.unsupportedOpcode, nofun, rfl⟩
  | reti low => cases h; exact .inr ⟨.unsupportedOpcode, nofun, rfl⟩
  | rrc w op => exact hone h
  | swpb op => exact hone h
  | rra w op => exact hone h
  | sxt op => exact hone h
  | push w op =>
    exact runSingle_latch (fun sv x hx => by obtain ⟨_, rfl⟩ := pushStage_ok hx; rfl) (fun sv k hk => pushStage_kind hk) h
  | call op =>
    exact runSingle_latch (fun sv x hx => by obtain ⟨_, _, rfl⟩ := callStage_ok hx; rfl) (fun sv k hk => callStage_kind hk) h
  | jne offset => exact hjump h
  | jeq offset => exact hjump h
  | jnc offset => exact hjump h
  | jc offset => exact hjump h
  | jn offset => exact hjump h
  | jge offset => exact hjump h
  | jl offset => exact hjump h
  | jmp offset => exact hjump h

end Sys2Proof.Machine
end

