-- ==== Sys2Proof/Laws/Outcome.lean ====
section
/-! SUPPORT. The outcome Safety.lean names for each shape of instruction is what that shape does (`Meets`): stage 5 checks
exactly what `Effect.checked` says, for a target that is aligned, as every resolved operand's is. -/

namespace Sys2Proof.Machine

/-- `x` is the next state that the outcome `o` of an instruction with first word `w0` asks for. -/
def Meets (s : State) (w0 : Word) (o : Except FaultKind Effect) (x : Host.Outcome State Fault Refusal) : Prop :=
  match o with
  | .error k => x = .next (latched k w0 s)
  | .ok e => ∃ t, x = .next t ∧ Leaves s e t

@[simp] theorem meets_error (s : State) (w0 : Word) (k : FaultKind) (x : Host.Outcome State Fault Refusal) :
    Meets s w0 (.error k) x ↔ x = .next (latched k w0 s) := Iff.rfl

@[simp] theorem meets_ok (s : State) (w0 : Word) (e : Effect) (x : Host.Outcome State Fault Refusal) :
    Meets s w0 (.ok e) x ↔ ∃ t, x = .next t ∧ Leaves s e t := Iff.rfl

/-- The two checks of `Effect.checked` are those of W4 and W5. -/
theorem checked_eq {w : Width} {n : Nat} {inc : Option (Reg × Word)} {x : ExecStage} (s : State)
    (ha : ∀ ea, x.target = some (.mem ea) → misaligned w ea = false) :
    (stageEffect w n inc x).checked s =
      if stackReady (stageEffect w n inc x) s = false then .error .misalignedAccess
      else if resultReady (stageEffect w n inc x) = false then .error .constantRegisterWrite
      else .ok (stageEffect w n inc x) := by
  have h1 : (stageEffect w n inc x).push.any (fun p => misaligned p.1 ((stageEffect w n inc x).midway s .sp)) =
      !stackReady (stageEffect w n inc x) s := by
    simp only [stackReady]
    cases (stageEffect w n inc x).push <;> simp
  have h2 : ((stageEffect w n inc x).resultFor .cg).getD 0 ≠ 0 ↔ resultReady (stageEffect w n inc x) = false := by
    have h0 : (stageEffect w n inc x).result = x.result.bind fun v => x.target.map fun l => (l, w, v) := rfl
    simp only [Effect.resultFor, resultReady, h0]
    rcases x.result with _ | v
    · simp
    · rcases ht : x.target with _ | r | ea
      · simp
      · by_cases hr : r = .cg <;> simp [hr]
      · simp [ha ea ht]
  simp only [Effect.checked, h1, h2, Bool.not_eq_true']

/-- Stage 5 does what the checked effect asks for. -/
theorem writeback_meets {w : Width} {n : Nat} {inc : Option (Reg × Word)} {x : ExecStage} {s : State} {e : Effect} (w0 : Word)
    (hs : s.mem.wf = true) (hd : x.decSp = x.stackVal.isSome)
    (ha : ∀ ea, x.target = some (.mem ea) → misaligned w ea = false) (he : e = stageEffect w n inc x) :
    Meets s w0 (e.checked s) (finish w0 s (writeback w n inc x s)) := by
  subst he
  have hc := writeback_cases w n inc x s hd
  rw [checked_eq s ha]
  split at hc
  · next h4 => rw [if_pos h4, hc]; rfl
  · next h4 =>
    rw [if_neg h4]
    split at hc
    · next h5 =>
      rw [if_pos h5, hc]
      rcases ht : x.target with _ | r | ea
      · have hr : (stageEffect w n inc x).result = none := by
          simp only [stageEffect, ht]; cases x.result <;> rfl
        simp [resultReady, hr] at h5
      · rfl
      · have hr : (stageEffect w n inc x).result = x.result.map fun v => (.mem ea, w, v) := by
          simp only [stageEffect, ht]; cases x.result <;> rfl
        rw [resultReady, hr] at h5
        cases hv : x.result <;> rw [hv] at h5 <;> simp [ha ea ht] at h5
    · next h5 =>
      rw [if_neg h5]
      obtain ⟨t, ht⟩ := hc
      exact ⟨t, by rw [ht]; rfl, writeback_ok hs hd ht⟩

/-! ## The shapes -/

theorem runDouble_toDest_meets {w : Width} {src : SrcOp} {dst : DstOp} {alu : Word → Word → AluResult} {s : State} (w0 : Word)
    (hs : s.mem.wf = true) :
    Meets s w0 (doubleOutcome w src dst true alu s) (runDouble w0 w src dst (fun sv dv => toDest dv (alu dv.val sv.val)) s) := by
  simp only [doubleOutcome]
  split
  · next h => exact runDouble_src_error h
  · next h2 h3 => exact runDouble_dst_error h2 h3
  · next sv dv h2 h3 =>
    rw [runDouble_eq h2 h3]
    refine writeback_meets w0 hs rfl (fun ea h => (dst_of_loc_mem h3 (Option.some.inj h)).2) ?_
    simp [stageEffect, toDest, extCount]

theorem runDouble_flagsOnly_meets {w : Width} {src : SrcOp} {dst : DstOp} {alu : Word → Word → AluResult} {s : State} (w0 : Word)
    (hs : s.mem.wf = true) :
    Meets s w0 (doubleOutcome w src dst false alu s) (runDouble w0 w src dst (fun sv dv => flagsOnly (alu dv.val sv.val)) s) := by
  simp only [doubleOutcome]
  split
  · next h => exact runDouble_src_error h
  · next h2 h3 => exact runDouble_dst_error h2 h3
  · next sv dv h2 h3 =>
    rw [runDouble_eq h2 h3]
    refine writeback_meets w0 hs rfl nofun ?_
    simp [stageEffect, flagsOnly, extCount]

theorem runSingle_meets {w : Width} {op : SrcOp} {alu : Word → AluResult} {s : State} (w0 : Word) (hs : s.mem.wf = true) :
    Meets s w0 (singleOutcome w op alu s) (runSingle w0 w op (fun sv => toOperand sv (alu sv.val)) s) := by
  simp only [singleOutcome]
  split
  · next h => exact runSingle_src_error h
  · next sv h2 =>
    split
    · next hl => exact runSingle_alu_error h2 (by rw [toOperand, hl])
    · next l hl =>
      rw [runSingle_eq h2 (x := { result := some (alu sv.val).value, target := some l, flags := (alu sv.val).flags })
        (by rw [toOperand, hl])]
      refine writeback_meets w0 hs rfl (fun ea h => (src_of_loc_mem h2 (hl.trans h)).2) ?_
      simp [stageEffect, extCount]

/-- PUSH: its duplicate writeback is always accepted, in a state with R3 = 0, and changes nothing (R146). -/
theorem push_meets {w : Width} {op : SrcOp} {s : State} (hs : s.mem.wf = true) (hc : s.reg .cg = 0) :
    Meets s (Instr.push w op).firstWord (outcome (.push w op) s) (exec (.push w op) s) := by
  simp only [outcome]
  change Meets _ _ _ (runSingle _ w op (pushStage w op) s)
  split
  · next h => exact runSingle_src_error h
  · next sv h2 =>
    split
    · next hu => exact runSingle_alu_error h2 (by rw [pushStage, if_pos hu])
    · next hu =>
      have h4 : pushStage w op sv = .ok (pushExec w sv) := by rw [pushStage, if_neg hu]; rfl
      rw [runSingle_eq h2 h4]
      have hr : resultReady (singleEffect w sv (pushExec w sv)) = true := by
        rcases hl : sv.loc with _ | q | ea
        · simp [singleEffect, stageEffect, pushExec, resultReady, hl]
        · obtain rfl := src_of_loc_reg h2 hl
          simp only [singleEffect, stageEffect, pushExec, resultReady, hl, Option.map_some, Option.bind_some, decide_eq_true_eq]
          rintro rfl
          rw [(resolveSrc_ok h2).2.1]
          cases w <;> simp [srcVal, hc]
          decide
        · simp [singleEffect, stageEffect, pushExec, resultReady, hl, (src_of_loc_mem h2 hl).2]
      have hm := writeback_meets (Instr.push w op).firstWord hs (n := extCount sv.usesExt false) (inc := sv.autoInc)
        (x := pushExec w sv) rfl (fun ea h => (src_of_loc_mem h2 h).2) rfl
      rw [checked_eq s (fun ea h => (src_of_loc_mem h2 h).2),
        show resultReady (stageEffect w (extCount sv.usesExt false) sv.autoInc (pushExec w sv)) = true from hr] at hm
      have he : ({ extWords := sv.usesExt.toNat, autoInc := sv.autoInc, push := some (w, sv.val) } : Effect) = pushEffect w sv := by
        simp [pushEffect, extCount]
      have hck : (pushEffect w sv).checked s = if stackReady (singleEffect w sv (pushExec w sv)) s = false then
          .error .misalignedAccess else .ok (pushEffect w sv) := by
        have hst : stackReady (singleEffect w sv (pushExec w sv)) s = stackReady (pushEffect w sv) s := rfl
        rw [hst]
        simp [Effect.checked, pushEffect, stackReady, Effect.resultFor]
      rw [he, hck]
      split at hm
      · next h => rw [if_pos (show stackReady (singleEffect w sv (pushExec w sv)) s = false from h)]; exact hm
      · next h =>
        have h' : stackReady (singleEffect w sv (pushExec w sv)) s = true := by simpa [singleEffect] using h
        rw [if_neg (by rw [h']; decide)]
        obtain ⟨t, ht, hl⟩ := hm
        exact ⟨t, ht, push_leaves h2 h4 h' hl⟩

/-- CALL. -/
theorem call_meets {op : SrcOp} {s : State} (hs : s.mem.wf = true) :
    Meets s (Instr.call op).firstWord (outcome (.call op) s) (exec (.call op) s) := by
  simp only [outcome]
  change Meets _ _ _ (runSingle _ .word op (callStage op (s.reg .pc)) s)
  split
  · next h => exact runSingle_src_error h
  · next sv h2 =>
    split
    · next h => exact runSingle_alu_error h2 (by rw [callStage, if_pos h])
    · next h =>
      split
      · next h0 => exact runSingle_alu_error h2 (by rw [callStage, if_neg h, if_pos h0])
      · next h0 =>
        rw [runSingle_eq h2 (x := { decSp := true, stackVal := some (.word, s.reg .pc + 2), newValue := some sv.val })
          (by rw [callStage, if_neg h, if_neg h0])]
        refine writeback_meets _ hs rfl nofun ?_
        simp [stageEffect, extCount]

/-- The new value of a jump over the integers. -/
theorem jumpValue_eq_ofInt (offset : BitVec 10) (s : State) : jumpValue offset s = s.reg .pc + BitVec.ofInt 16 (2 * offset.toInt) := by
  have h : (2 : Word) * offset.signExtend 16 = BitVec.ofInt 16 (2 * offset.toInt) := by
    rw [BitVec.ofInt_mul, BitVec.signExtend]; rfl
  rw [jumpValue, h]

/-- An effect with at most a new value. -/
theorem leaves_newValue {s : State} (hs : s.mem.wf = true) (v : Option Word) :
    Leaves s { newValue := v } (s.setReg .pc ((v.getD (s.reg .pc)) + 2)) := by
  refine ⟨hs, rfl, fun r => ?_, fun a => rfl⟩
  have hm : ∀ q, ({ newValue := v } : Effect).midway s q = s.reg q := by
    intro q; cases q <;> simp [Effect.midway, Effect.incFor]
  simp only [Effect.regAfter, Effect.resultFor, Option.getD_none, hm, State.reg_setReg]
  split
  · next hr => subst hr; cases v <;> rfl
  · rfl

theorem runJump_meets (w0 : Word) (k : JumpCond) (offset : BitVec 10) {s : State} (hs : s.mem.wf = true) :
    Meets s w0 (jumpOutcome (k.holds s) offset s) (runJump w0 k offset s) := by
  rw [runJump_eq]
  simp only [jumpOutcome, ← jumpValue_eq_ofInt]
  cases k.holds s
  · exact ⟨_, rfl, leaves_newValue hs none⟩
  · by_cases h : jumpValue offset s = 0
    · rw [if_neg (by decide), if_pos h, if_pos rfl, if_pos h]; rfl
    · rw [if_neg (by decide), if_neg h, if_pos rfl, if_neg h]
      exact ⟨_, rfl, leaves_newValue hs (some _)⟩

end Sys2Proof.Machine
end

