-- ==== Sys2Proof/Laws/PerInstr.lean ====
section
/-! SUPPORT. What holds of every instruction as syntax, one lemma per constructor: the top bits of its first word say its
family (R61, R66). -/

namespace Sys2Proof.Laws

/-- The family that the decoder reads from the first word of an instruction is the instruction's own. -/
def FamilyOfFirstWord.Statement (i : Instr) : Prop := familyOf i.firstWord = i.family

theorem FamilyOfFirstWord.mov (w : Width) (src : SrcOp) (dst : DstOp) : Statement (.mov w src dst) :=
  familyOf_doubleWord _ _ _ _ _ _ (by decide)

theorem FamilyOfFirstWord.add (w : Width) (src : SrcOp) (dst : DstOp) : Statement (.add w src dst) :=
  familyOf_doubleWord _ _ _ _ _ _ (by decide)

theorem FamilyOfFirstWord.addc (w : Width) (src : SrcOp) (dst : DstOp) : Statement (.addc w src dst) :=
  familyOf_doubleWord _ _ _ _ _ _ (by decide)

theorem FamilyOfFirstWord.subc (w : Width) (src : SrcOp) (dst : DstOp) : Statement (.subc w src dst) :=
  familyOf_doubleWord _ _ _ _ _ _ (by decide)

theorem FamilyOfFirstWord.sub (w : Width) (src : SrcOp) (dst : DstOp) : Statement (.sub w src dst) :=
  familyOf_doubleWord _ _ _ _ _ _ (by decide)

theorem FamilyOfFirstWord.cmp (w : Width) (src : SrcOp) (dst : DstOp) : Statement (.cmp w src dst) :=
  familyOf_doubleWord _ _ _ _ _ _ (by decide)

theorem FamilyOfFirstWord.dadd (fields : BitVec 12) : Statement (.dadd fields) := by
  have h := fields.isLt
  have hn : (0xA#4 ++ fields : BitVec 16).toNat = 0xA000 + fields.toNat := by
    rw [toNat_append]; simp
  change familyOf (0xA#4 ++ fields) = .doubleOperand
  rw [familyOf_eq, hn, if_neg (by omega), if_neg (by omega)]

theorem FamilyOfFirstWord.bit (w : Width) (src : SrcOp) (dst : DstOp) : Statement (.bit w src dst) :=
  familyOf_doubleWord _ _ _ _ _ _ (by decide)

theorem FamilyOfFirstWord.bic (w : Width) (src : SrcOp) (dst : DstOp) : Statement (.bic w src dst) :=
  familyOf_doubleWord _ _ _ _ _ _ (by decide)

theorem FamilyOfFirstWord.bis (w : Width) (src : SrcOp) (dst : DstOp) : Statement (.bis w src dst) :=
  familyOf_doubleWord _ _ _ _ _ _ (by decide)

theorem FamilyOfFirstWord.xor (w : Width) (src : SrcOp) (dst : DstOp) : Statement (.xor w src dst) :=
  familyOf_doubleWord _ _ _ _ _ _ (by decide)

theorem FamilyOfFirstWord.and (w : Width) (src : SrcOp) (dst : DstOp) : Statement (.and w src dst) :=
  familyOf_doubleWord _ _ _ _ _ _ (by decide)

theorem FamilyOfFirstWord.rrc (w : Width) (op : SrcOp) : Statement (.rrc w op) := familyOf_singleWord _ _ _ _

theorem FamilyOfFirstWord.swpb (op : SrcOp) : Statement (.swpb op) := familyOf_singleWord _ _ _ _

theorem FamilyOfFirstWord.rra (w : Width) (op : SrcOp) : Statement (.rra w op) := familyOf_singleWord _ _ _ _

theorem FamilyOfFirstWord.sxt (op : SrcOp) : Statement (.sxt op) := familyOf_singleWord _ _ _ _

theorem FamilyOfFirstWord.push (w : Width) (op : SrcOp) : Statement (.push w op) := familyOf_singleWord _ _ _ _

theorem FamilyOfFirstWord.call (op : SrcOp) : Statement (.call op) := familyOf_singleWord _ _ _ _

theorem FamilyOfFirstWord.reti (low : BitVec 7) : Statement (.reti low) := by
  have h := low.isLt
  have hn : (0b000100110#9 ++ low : BitVec 16).toNat = 0x1300 + low.toNat := by
    rw [toNat_append]; simp
  change familyOf (0b000100110#9 ++ low) = .singleOrNoOperand
  rw [familyOf_eq, hn, if_pos (by omega)]

theorem FamilyOfFirstWord.jne (offset : BitVec 10) : Statement (.jne offset) := familyOf_jumpWord _ _

theorem FamilyOfFirstWord.jeq (offset : BitVec 10) : Statement (.jeq offset) := familyOf_jumpWord _ _

theorem FamilyOfFirstWord.jnc (offset : BitVec 10) : Statement (.jnc offset) := familyOf_jumpWord _ _

theorem FamilyOfFirstWord.jc (offset : BitVec 10) : Statement (.jc offset) := familyOf_jumpWord _ _

theorem FamilyOfFirstWord.jn (offset : BitVec 10) : Statement (.jn offset) := familyOf_jumpWord _ _

theorem FamilyOfFirstWord.jge (offset : BitVec 10) : Statement (.jge offset) := familyOf_jumpWord _ _

theorem FamilyOfFirstWord.jl (offset : BitVec 10) : Statement (.jl offset) := familyOf_jumpWord _ _

theorem FamilyOfFirstWord.jmp (offset : BitVec 10) : Statement (.jmp offset) := familyOf_jumpWord _ _

end Sys2Proof.Laws
end

