-- ==== Sys2Proof/Laws/Step.lean ====
section
/-! SUPPORT. What `step` can do, and the host's operations built on it. -/

namespace Sys2Proof.Machine

theorem oddAddr_eq_decide (a : Word) : oddAddr a = decide (a.toNat % 2 = 1) := by
  rw [oddAddr, getLsbD_eq_decide]; simp

/-- A running machine's step, with stages 0 and 1 written out. -/
theorem step_eq {s : State} (h : s.faultLatch = none) :
    step s =
      if oddAddr (s.reg .pc) then .next (latched .misalignedFetch 0 s)
      else match decode (s.word (s.reg .pc)) (s.word (s.reg .pc + 2)) (s.word (s.reg .pc + 4)) with
        | .error _ => .next (latched .illegalEncoding (s.word (s.reg .pc)) s)
        | .ok i => exec i s := by
  simp only [step, h, fetchDecode, fetch]
  by_cases ho : oddAddr (s.reg .pc) = true
  · simp only [ho, if_true]; rfl
  · simp only [ho, Bool.false_eq_true, if_false]
    cases decode (s.word (s.reg .pc)) (s.word (s.reg .pc + 2)) (s.word (s.reg .pc + 4)) <;> rfl

/-- A running machine always answers a next state. -/
theorem step_next {s : State} (h : s.faultLatch = none) : ∃ t, step s = .next t := by
  rw [step_eq h]
  split
  · exact ⟨_, rfl⟩
  · split
    · exact ⟨_, rfl⟩
    · exact exec_next _ _

/-- Where a step answers a next state, execute-one returns it. -/
theorem executeOne_of_next {s t : State} (h : step s = .next t) : executeOne s = t := by
  simp only [executeOne, h]

/-- What execute-one returns: the step's next state, or the state itself where the machine is stopped. -/
theorem executeOne_cases (s : State) : (s.faultLatch ≠ none ∧ executeOne s = s) ∨ step s = .next (executeOne s) := by
  cases h : s.faultLatch with
  | none =>
    obtain ⟨t, ht⟩ := step_next h
    exact .inr (by rw [executeOne_of_next ht]; exact ht)
  | some r => exact .inl ⟨nofun, by simp only [executeOne, step, h]⟩

end Sys2Proof.Machine
end

