-- ==== Sys2Proof/Laws/Toolchain.lean ====
section
/-! SUPPORT. What the encoder's parts do, said once: `patch` rewrites one word; emission only appends, so that bytes, labels and
relocations already there stay, and a new relocation lies at a byte not yet emitted (`Emission.Extends`). -/

namespace Sys2Proof.Toolchain

open Sys2Proof.Machine (JumpCond)

/-! ## Patches -/

@[simp] theorem length_patch (bs : List Byte) (pos : Nat) (v : Word) : (patch bs pos v).length = bs.length := by simp [patch]

/-- Every byte but the two patched stays. -/
theorem getElem?_patch_ne {bs : List Byte} {pos n : Nat} {v : Word} (h0 : n ≠ pos) (h1 : n ≠ pos + 1) :
    (patch bs pos v)[n]? = bs[n]? := by
  rw [patch, List.getElem?_set_ne (by omega), List.getElem?_set_ne (by omega)]

/-- A patched word is the value patched in. -/
theorem wordAt_patch {bs : List Byte} {pos : Nat} {v : Word} (h : pos + 2 ≤ bs.length) : wordAt (patch bs pos v) pos = v := by
  have h0 : (patch bs pos v)[pos]? = some (lowByte v) := by
    rw [patch, List.getElem?_set_ne (by omega), List.getElem?_set_self (by omega)]
  have h1 : (patch bs pos v)[pos + 1]? = some (highByte v) := by
    rw [patch, List.getElem?_set_self (by simp; omega)]
  simp only [wordAt, List.getD_eq_getElem?_getD, h0, h1, Option.getD_some]
  exact Machine.wordOfBytes_low_high v

/-- A word that does not overlap the patch stays. -/
theorem wordAt_patch_ne {bs : List Byte} {pos k : Nat} {v : Word} (h : k + 2 ≤ pos ∨ pos + 2 ≤ k) :
    wordAt (patch bs pos v) k = wordAt bs k := by
  simp only [wordAt, List.getD_eq_getElem?_getD]
  rw [getElem?_patch_ne (by omega) (by omega), getElem?_patch_ne (by omega) (by omega)]

/-- A word that stands after a prefix, patched. -/
theorem patch_append (bs cs : List Byte) (u v : Word) :
    patch (bs ++ (wordBytes u ++ cs)) bs.length v = bs ++ (wordBytes v ++ cs) := by
  simp [patch, wordBytes]

/-- The offset field of a jump word, filled in. -/
theorem jumpWord_or (c : BitVec 3) (k : Int) : jumpWord c 0 ||| BitVec.ofInt 16 (k % 1024) = jumpWord c (BitVec.ofInt 10 k) := by
  have h : BitVec.ofInt 16 (k % 1024) = (BitVec.ofInt 10 k).setWidth 16 := by
    apply BitVec.eq_of_toNat_eq
    simp only [BitVec.toNat_ofInt, BitVec.toNat_setWidth]
    omega
  apply BitVec.eq_of_getLsbD_eq
  intro i hi
  rw [h]
  simp only [jumpWord, BitVec.getLsbD_or, BitVec.getLsbD_append, BitVec.getLsbD_setWidth]
  by_cases hi' : i < 10
  · simp [hi', hi]
  · simp [hi', hi, BitVec.getLsbD_of_ge _ _ (Nat.le_of_not_lt hi')]

/-! ## Displacements (R92) -/

theorem displacement_eq_none {l j : Nat} :
    displacement l j = none ↔ ((l : Int) - j) % 2 ≠ 0 ∨ (l : Int) - j < -1024 ∨ 1022 < (l : Int) - j := by
  simp only [displacement]
  split
  · simp_all
  · split <;> simp_all <;> omega

theorem displacement_eq_some {l j : Nat} {k : Int} :
    displacement l j = some k ↔ (l : Int) - j = 2 * k ∧ -512 ≤ k ∧ k ≤ 511 := by
  simp only [displacement]
  split
  · simp; omega
  · split
    · simp; omega
    · simp; omega

/-- The resolution of a jump's relocation, for a label that has a table value. -/
theorem resolveOne_pcRelative {labels : List (Label × Nat)} {label : Label} {l j : Nat} (bs : List Byte)
    (h : labels.lookup label = some l) :
    resolveOne labels bs (.pcRelative j label) =
      match displacement l j with
      | none => .error (.displacement j)
      | some k => .ok (patch bs j (wordAt bs j ||| BitVec.ofInt 16 (k % 1024))) := by
  cases hd : displacement l j <;> simp only [resolveOne, h, hd]

/-! ## Emission -/

/-- The byte offset of a relocation. -/
def Reloc.pos : Reloc → Nat
  | .fullWord pos _ | .pcRelative pos _ => pos

/-- `e'` is `e` with bytes, labels and relocations appended, every new relocation at a byte not yet emitted in `e`. -/
structure Emission.Extends (e e' : Emission) : Prop where
  bytes : ∃ bs, e'.bytes = e.bytes ++ bs
  labels : ∃ ls, e'.labels = e.labels ++ ls
  relocs : ∃ rs, e'.relocs = e.relocs ++ rs ∧ ∀ r ∈ rs, e.bytes.length ≤ r.pos

namespace Emission.Extends

theorem refl (e : Emission) : e.Extends e where
  bytes := ⟨[], by simp⟩
  labels := ⟨[], by simp⟩
  relocs := ⟨[], by simp⟩

theorem length_le {e e' : Emission} (h : e.Extends e') : e.bytes.length ≤ e'.bytes.length := by
  obtain ⟨bs, hb⟩ := h.bytes
  simp [hb]

theorem trans {e e' e'' : Emission} (h : e.Extends e') (h' : e'.Extends e'') : e.Extends e'' := by
  have hle := h.length_le
  obtain ⟨⟨bs, hb⟩, ⟨ls, hl⟩, ⟨rs, hr, hp⟩⟩ := h
  obtain ⟨⟨bs', hb'⟩, ⟨ls', hl'⟩, ⟨rs', hr', hp'⟩⟩ := h'
  refine ⟨⟨bs ++ bs', by simp [hb', hb]⟩, ⟨ls ++ ls', by simp [hl', hl]⟩, ⟨rs ++ rs', by simp [hr', hr], fun r hm => ?_⟩⟩
  rcases List.mem_append.1 hm with hm | hm
  · exact hp r hm
  · exact Nat.le_trans hle (hp' r hm)

/-- A label once recorded keeps its table value. -/
theorem lookup {e e' : Emission} (h : e.Extends e') {l : Label} {v : Nat} (hv : e.lookup l = some v) : e'.lookup l = some v := by
  obtain ⟨ls, hl⟩ := h.labels
  simp only [Emission.lookup] at hv ⊢
  rw [hl, List.lookup_append, hv]; rfl

end Emission.Extends

theorem extends_word (e : Emission) (v : Word) : e.Extends (e.word v) where
  bytes := ⟨_, rfl⟩
  labels := ⟨[], by simp [Emission.word]⟩
  relocs := ⟨[], by simp [Emission.word]⟩

theorem extends_trailing (e : Emission) (x : Option Value) : e.Extends (e.trailing x) := by
  rcases x with _ | v | l
  · exact .refl e
  · exact extends_word e v
  · exact ⟨⟨_, rfl⟩, ⟨[], by simp [Emission.trailing, Emission.word]⟩,
      ⟨[.fullWord e.bytes.length l], rfl, by simp [Reloc.pos]⟩⟩

/-- Recording a label: it had no table value, it has the new one, and nothing but the label table changes. -/
theorem record_ok {e e' : Emission} {l : Label} {v : Nat} (h : e.record l v = .ok e') :
    e.lookup l = none ∧ e' = { e with labels := e.labels ++ [(l, v)] } := by
  simp only [Emission.record] at h
  split at h
  · cases h
  · next hn => cases h; exact ⟨by simpa using hn, rfl⟩

theorem lookup_of_record {e e' : Emission} {l : Label} {v : Nat} (h : e.record l v = .ok e') : e'.lookup l = some v := by
  obtain ⟨hn, rfl⟩ := record_ok h
  simp only [Emission.lookup] at hn ⊢
  rw [List.lookup_append, hn]; simp

theorem extends_record {e e' : Emission} {l : Label} {v : Nat} (h : e.record l v = .ok e') : e.Extends e' := by
  obtain ⟨_, rfl⟩ := record_ok h
  exact ⟨⟨[], by simp⟩, ⟨_, rfl⟩, ⟨[], by simp⟩⟩

/-- A line only appends. -/
theorem extends_line {e e' : Emission} {l : Line} (h : e.line l = .ok e') : e.Extends e' := by
  cases l with
  | double op w src dst =>
    simp only [Emission.line] at h
    cases hc : op.code with
    | error k => rw [hc] at h; cases h
    | ok c =>
      cases hd : dst.normalise.asDest with
      | error k => rw [hc, hd] at h; cases h
      | ok d =>
        rw [hc, hd] at h; cases h
        exact ((extends_word e _).trans (extends_trailing _ _)).trans (extends_trailing _ _)
  | single op operand => cases h; exact (extends_word e _).trans (extends_trailing _ _)
  | jump cond target =>
    cases h
    exact ⟨⟨_, rfl⟩, ⟨[], by simp [Emission.word]⟩, ⟨[.pcRelative e.bytes.length target], rfl, by simp [Reloc.pos]⟩⟩
  | reti => cases h
  | label l => exact extends_record h

theorem lines_cons {e e' : Emission} {l : Line} {ls : List Line} (h : e.lines (l :: ls) = .ok e') :
    ∃ m, e.line l = .ok m ∧ m.lines ls = .ok e' := by
  simp only [Emission.lines] at h
  cases hl : e.line l with
  | error k => rw [hl] at h; cases h
  | ok m => rw [hl] at h; exact ⟨m, rfl, h⟩

theorem extends_lines {ls : List Line} {e e' : Emission} (h : e.lines ls = .ok e') : e.Extends e' := by
  induction ls generalizing e with
  | nil => cases h; exact .refl _
  | cons l ls ih =>
    obtain ⟨m, h1, h2⟩ := lines_cons h
    exact (extends_line h1).trans (ih h2)

/-- Lines are emitted in order: a program's emission goes through the emission of its first part. -/
theorem lines_append {ls ms : List Line} {e e' : Emission} (h : e.lines (ls ++ ms) = .ok e') :
    ∃ m, e.lines ls = .ok m ∧ m.lines ms = .ok e' := by
  induction ls generalizing e with
  | nil => exact ⟨e, rfl, h⟩
  | cons l ls ih =>
    obtain ⟨m, h1, h2⟩ := lines_cons h
    obtain ⟨n, h3, h4⟩ := ih h2
    exact ⟨n, by simp only [Emission.lines, h1]; exact h3, h4⟩

theorem extends_globals {gs : List Global} {e e' : Emission} (h : e.globals gs = .ok e') : e.Extends e' := by
  induction gs generalizing e with
  | nil => cases h; exact .refl _
  | cons g gs ih =>
    simp only [Emission.globals] at h
    cases hr : e.record g.label e.bytes.length with
    | error k => rw [hr] at h; cases h
    | ok m =>
      rw [hr] at h
      refine ((extends_record hr).trans ?_).trans (ih h)
      exact ⟨⟨_, rfl⟩, ⟨[], by simp⟩, ⟨[], by simp⟩⟩

theorem extends_pad (e : Emission) : e.Extends e.pad := by
  simp only [Emission.pad]
  split
  · exact ⟨⟨_, rfl⟩, ⟨[], by simp⟩, ⟨[], by simp⟩⟩
  · exact .refl e

/-! ## The whole emission and its relocation -/

/-- What the bootstrap emits: its three words, and the relocation of its JMP to `main` (R84). -/
def bootEmission (bootSp : Word) : Emission :=
  { bytes := wordBytes 0x4031 ++ wordBytes bootSp ++ wordBytes 0x3C00, labels := [], relocs := [.pcRelative 4 .main] }

theorem lines_bootstrap {bootSp : Word} (h : foldConst bootSp = none) :
    (({} : Emission)).lines (bootstrap bootSp) = .ok (bootEmission bootSp) := by
  simp only [bootstrap, Emission.lines, Emission.line, DoubleOp.code, Operand.normalise, Operand.asSource, Operand.asDest, h]
  rfl

/-- An emission is the bootstrap's, extended by the globals and the code. -/
theorem emit_ok {p : Params} {globals : List Global} {code : List Line} {e : Emission} (h : emit p globals code = .ok e) :
    foldConst p.bootSp = none ∧ ∃ g, (bootEmission p.bootSp).globals globals = .ok g ∧ g.pad.lines code = .ok e := by
  simp only [emit] at h
  split at h
  · cases h
  · next hf =>
    have hf : foldConst p.bootSp = none := by simpa using hf
    refine ⟨hf, ?_⟩
    rw [lines_bootstrap hf] at h
    cases hg : (bootEmission p.bootSp).globals globals with
    | error k => simp only [bind, Except.bind, hg] at h; cases h
    | ok g => simp only [bind, Except.bind, hg] at h; exact ⟨g, rfl, h⟩

theorem extends_emit {p : Params} {globals : List Global} {code : List Line} {e : Emission} (h : emit p globals code = .ok e) :
    (bootEmission p.bootSp).Extends e := by
  obtain ⟨_, g, hg, hl⟩ := emit_ok h
  exact ((extends_globals hg).trans (extends_pad g)).trans (extends_lines hl)

theorem assemble_ok {p : Params} {globals : List Global} {code : List Line} {image : List Byte}
    (h : assemble p globals code = .ok image) :
    ∃ e, emit p globals code = .ok e ∧ resolveAll e.labels e.bytes e.relocs = .ok image := by
  simp only [assemble] at h
  cases he : emit p globals code with
  | error k => rw [he] at h; cases h
  | ok e => rw [he] at h; exact ⟨e, rfl, h⟩

/-- One relocation is a patch at its position. -/
theorem resolveOne_ok {labels : List (Label × Nat)} {bs out : List Byte} {r : Reloc} (h : resolveOne labels bs r = .ok out) :
    ∃ v, out = patch bs r.pos v := by
  cases r with
  | fullWord pos l =>
    simp only [resolveOne] at h
    split at h
    · cases h
    · cases h; exact ⟨_, rfl⟩
  | pcRelative pos l =>
    simp only [resolveOne] at h
    split at h
    · cases h
    · split at h
      · cases h
      · cases h; exact ⟨_, rfl⟩

/-- Relocation keeps the length, and every word below all the relocations. -/
theorem resolveAll_ok {labels : List (Label × Nat)} {rs : List Reloc} {bs out : List Byte} (h : resolveAll labels bs rs = .ok out) :
    out.length = bs.length ∧ ∀ k, (∀ r ∈ rs, k + 2 ≤ r.pos) → wordAt out k = wordAt bs k := by
  induction rs generalizing bs with
  | nil => cases h; exact ⟨rfl, fun _ _ => rfl⟩
  | cons r rs ih =>
    simp only [resolveAll] at h
    cases h1 : resolveOne labels bs r with
    | error k => rw [h1] at h; cases h
    | ok m =>
      rw [h1] at h
      obtain ⟨v, rfl⟩ := resolveOne_ok h1
      obtain ⟨hl, hw⟩ := ih h
      refine ⟨by simpa using hl, fun k hk => ?_⟩
      rw [hw k fun r' hr' => hk r' (List.mem_cons_of_mem _ hr'), wordAt_patch_ne (.inl (hk r List.mem_cons_self))]

/-! ## The words of a line -/

/-- A trailing word, for a value that stands for `x`: what it appends, and what is left of it once its relocation, if it has
one, is resolved, whatever bytes and relocations come after it (R81, R87, R88, R91). -/
theorem resolve_trailing {labels : List (Label × Nat)} {u : Option Value} {x : Word}
    (h : ∀ value, u = some value → value.word? labels = some x) (e : Emission) :
    ∃ rs ws, e.trailing u = { e with bytes := e.bytes ++ ws, relocs := e.relocs ++ rs } ∧ ws.length = 2 * u.isSome.toNat ∧
      ∀ bytes relocs, resolveAll labels (e.bytes ++ (ws ++ bytes)) (rs ++ relocs) =
        resolveAll labels (e.bytes ++ ((if u.isSome then wordBytes x else []) ++ bytes)) relocs := by
  rcases u with _ | v | l
  · exact ⟨[], [], by simp [Emission.trailing], rfl, fun _ _ => by simp⟩
  · obtain rfl : v = x := Option.some.inj (h _ rfl)
    exact ⟨[], wordBytes v, by simp [Emission.trailing, Emission.word], by simp [wordBytes], fun _ _ => by simp⟩
  · obtain ⟨n, hn, hx⟩ := Option.map_eq_some_iff.1 (h _ rfl)
    refine ⟨[.fullWord e.bytes.length l], wordBytes 0, by simp [Emission.trailing, Emission.word], by simp [wordBytes],
      fun _ _ => ?_⟩
    simp only [List.singleton_append, resolveAll, resolveOne, hn, bind, Except.bind, patch_append, hx, Option.isSome_some,
      if_true]

/-- The six folded values decode to a form without an extension word (R82). -/
theorem foldConst_decodes {v : Word} {as : BitVec 2} {r : Reg} (h : foldConst v = some (as, r)) (x : Word) :
    (decodeSrc as r x).ext = none := by
  simp only [foldConst] at h
  repeat' split at h
  all_goals cases h
  all_goals rfl

end Sys2Proof.Toolchain
end

