-- ==== Sys2Proof/Tests/Slice0.lean ====
section
/-! SUPPORT. Small tests, their expected values copied from spec/95_test_vectors.md or worked out by hand from the rules, and a
witness for the hypotheses of every statement that has some. -/

namespace Sys2Proof.Tests

open Sys2Proof Sys2Proof.Machine

/-- A machine at `pc` with its words, registers and memory words placed. -/
def machine (pc : Word) (code : List Word) (regs : List (Reg × Word) := []) (mem : List (Word × Word) := []) : State :=
  let s0 := regs.foldl (fun s p => s.setReg p.1 p.2) (State.reset.setReg .pc pc)
  let s1 := mem.foldl (fun s p => s.setWord p.1 p.2) s0
  s1.setBytes pc (code.flatMap wordBytes)

/-- The state after one step, if there is one. -/
def after (s : State) : Option State :=
  match step s with
  | .next t => some t
  | _ => none

/-- Some registers after one step, with the latch clear. -/
def regsAfter (s : State) (rs : List Reg) : Option (List Word) :=
  (after s).bind fun t => if t.faultLatch = none then some (rs.map t.reg) else none

/-- Two bytes of memory after one step, as a word. -/
def wordAfter (s : State) (a : Word) : Option Word := (after s).map fun t => t.word a

/-- The step sets the latch to this record and changes nothing else. -/
def faultsWith (s : State) (k : FaultKind) (pc w0 : Word) : Bool :=
  decide (after s = some { s with faultLatch := some { kind := k, pc := pc, w0 := w0 } })

/-- The instruction that the decoder gives, if any. -/
def decoded (w0 w1 w2 : Word) : Option Instr := (decode w0 w1 w2).toOption

/-! ## Well-formedness: the ill-formed terms, one for each check -/

theorem test_wf_source_indexed_pc : (Instr.mov .word (.indexed .pc 2) (.reg .r5)).wf = false := by decide

theorem test_wf_source_indirect_pc : (Instr.mov .word (.indirect .pc) (.reg .r5)).wf = false := by decide

theorem test_wf_source_indirectInc_pc : (Instr.mov .word (.indirectInc .pc) (.reg .r5)).wf = false := by decide

theorem test_wf_source_indexed_sr : (Instr.mov .word (.indexed .sr 2) (.reg .r5)).wf = false := by decide

theorem test_wf_source_indirect_sr : (Instr.mov .word (.indirect .sr) (.reg .r5)).wf = false := by decide

theorem test_wf_source_indirectInc_sr : (Instr.mov .word (.indirectInc .sr) (.reg .r5)).wf = false := by decide

theorem test_wf_source_indexed_cg : (Instr.mov .word (.indexed .cg 2) (.reg .r5)).wf = false := by decide

theorem test_wf_source_indirect_cg : (Instr.mov .word (.indirect .cg) (.reg .r5)).wf = false := by decide

theorem test_wf_source_indirectInc_cg : (Instr.mov .word (.indirectInc .cg) (.reg .r5)).wf = false := by decide

theorem test_wf_destination_indexed_pc : (Instr.mov .word (.reg .r5) (.indexed .pc 2)).wf = false := by decide

theorem test_wf_destination_indexed_sr : (Instr.mov .word (.reg .r5) (.indexed .sr 2)).wf = false := by decide

theorem test_wf_single_operand : (Instr.push .word (.indirectInc .pc)).wf = false := by decide

/-- Table R68 admits R3. -/
theorem test_wf_destination_indexed_cg : (Instr.mov .word (.reg .r5) (.indexed .cg 2)).wf = true := by decide

/-! ## Decoding: words written out from the spec's encodings (30_encoding.md R63 to R66; 95_test_vectors.md section 3) -/

/-- op 4, R0, Ad 1, B/W 0, As 11, R6. -/
theorem test_decode_mov : decoded 0x40B6 0x1234 0x0002 = some (.mov .word (.immediate 0x1234) (.indexed .r6 2)) := by decide

/-- op 5, R3, Ad 0, B/W 1, As 01, R5. -/
theorem test_decode_add : decoded 0x5355 0 0 = some (.add .byte (.const .one) (.reg .r5)) := by decide

/-- op 6, R4, Ad 0, B/W 0, As 00, R5. -/
theorem test_decode_addc : decoded 0x6405 0 0 = some (.addc .word (.reg .r4) (.reg .r5)) := by decide

/-- op 7, R5, Ad 0, B/W 0, As 11, R6. -/
theorem test_decode_subc : decoded 0x7536 0 0 = some (.subc .word (.indirectInc .r5) (.reg .r6)) := by decide

/-- op 8, R1, Ad 1, B/W 0, As 01, R6. -/
theorem test_decode_sub : decoded 0x8196 0x0002 0x0004 = some (.sub .word (.indexed .sp 2) (.indexed .r6 4)) := by decide

/-- op 9, R3, Ad 1, B/W 0, As 00, R2. -/
theorem test_decode_cmp : decoded 0x9382 0x0300 0 = some (.cmp .word (.reg .cg) (.absolute 0x0300)) := by decide

/-- op A. -/
theorem test_decode_dadd : decoded 0xA405 0 0 = some (.dadd 0x405) := by decide

/-- op B, R2, Ad 0, B/W 0, As 11, R4. -/
theorem test_decode_bit : decoded 0xB234 0 0 = some (.bit .word (.const .eight) (.reg .r4)) := by decide

/-- op C, R3, Ad 0, B/W 0, As 01, R2. -/
theorem test_decode_bic : decoded 0xC312 0 0 = some (.bic .word (.const .one) (.reg .sr)) := by decide

/-- op D, R3, Ad 0, B/W 0, As 10, R2. -/
theorem test_decode_bis : decoded 0xD322 0 0 = some (.bis .word (.const .two) (.reg .sr)) := by decide

/-- op E, R3, Ad 0, B/W 0, As 11, R5. -/
theorem test_decode_xor : decoded 0xE335 0 0 = some (.xor .word (.const .minusOne) (.reg .r5)) := by decide

/-- op F, R15, Ad 1, B/W 1, As 11, R15. -/
theorem test_decode_and : decoded 0xFFFF 0x1234 0 = some (.and .byte (.indirectInc .r15) (.indexed .r15 0x1234)) := by decide

/-- single op 0, B/W 0, As 00, R0. -/
theorem test_decode_rrc : decoded 0x1000 0 0 = some (.rrc .word (.reg .pc)) := by decide

/-- single op 1, B/W 0, As 10, R5. -/
theorem test_decode_swpb : decoded 0x10A5 0 0 = some (.swpb (.indirect .r5)) := by decide

/-- single op 2, B/W 0, As 01, R5. -/
theorem test_decode_rra : decoded 0x1115 0x0002 0 = some (.rra .word (.indexed .r5 2)) := by decide

/-- single op 3, B/W 0, As 00, R4. -/
theorem test_decode_sxt : decoded 0x1184 0 0 = some (.sxt (.reg .r4)) := by decide

/-- single op 4, B/W 1, As 01, R2. -/
theorem test_decode_push : decoded 0x1252 0x0300 0 = some (.push .byte (.absolute 0x0300)) := by decide

/-- single op 5, B/W 0, As 11, R0. -/
theorem test_decode_call : decoded 0x12B0 0x000A 0 = some (.call (.immediate 0x000A)) := by decide

/-- single op 6. -/
theorem test_decode_reti : decoded 0x137F 0 0 = some (.reti 0x7F) := by decide

/-- cond 0, offset −3. -/
theorem test_decode_jne : decoded 0x23FD 0 0 = some (.jne 0x3FD) := by decide

/-- cond 1, offset 4. -/
theorem test_decode_jeq : decoded 0x2404 0 0 = some (.jeq 4) := by decide

/-- cond 2, offset 4. -/
theorem test_decode_jnc : decoded 0x2804 0 0 = some (.jnc 4) := by decide

/-- cond 3, offset 4. -/
theorem test_decode_jc : decoded 0x2C04 0 0 = some (.jc 4) := by decide

/-- cond 4, offset 4. -/
theorem test_decode_jn : decoded 0x3004 0 0 = some (.jn 4) := by decide

/-- cond 5, offset 4. -/
theorem test_decode_jge : decoded 0x3404 0 0 = some (.jge 4) := by decide

/-- cond 6, offset 4. -/
theorem test_decode_jl : decoded 0x3804 0 0 = some (.jl 4) := by decide

/-- cond 7, offset −512. -/
theorem test_decode_jmp : decoded 0x3E00 0 0 = some (.jmp 0x200) := by decide

theorem test_decode_symbolic_source : decoded 0x4016 0x0010 0 = some (.mov .word (.symbolic 0x0010) (.reg .r6)) := by decide

theorem test_decode_indirect_pc : decoded 0x4026 0 0 = some (.mov .word .indirectPc (.reg .r6)) := by decide

theorem test_decode_symbolic_destination :
    decoded 0x4580 0x0010 0 = some (.mov .word (.reg .r5) (.symbolic 0x0010)) := by decide

theorem test_decode_constant_four : decoded 0x4225 0 0 = some (.mov .word (.const .four) (.reg .r5)) := by decide

theorem test_decode_absolute_to_absolute :
    decoded 0x4292 0x0300 0x0400 = some (.mov .word (.absolute 0x0300) (.absolute 0x0400)) := by decide

/-! Words that are no instruction, at the ends of the ranges of table R72. -/

theorem test_reject_0000 : decode 0x0000 0 0 = .error .notSingleOperandTag := rfl

theorem test_reject_0FFF : decode 0x0FFF 0 0 = .error .notSingleOperandTag := rfl

theorem test_reject_1400 : decode 0x1400 0 0 = .error .notSingleOperandTag := rfl

theorem test_reject_1FFF : decode 0x1FFF 0 0 = .error .notSingleOperandTag := rfl

theorem test_reject_1380 : decode 0x1380 0 0 = .error .singleOpcodeSeven := rfl

theorem test_reject_13FF : decode 0x13FF 0 0 = .error .singleOpcodeSeven := rfl

theorem test_reject_swpb_byte : decode 0x10C4 0 0 = .error .noByteForm := rfl

theorem test_reject_sxt_byte : decode 0x11C4 0 0 = .error .noByteForm := rfl

theorem test_reject_call_byte : decode 0x12C5 0 0 = .error .noByteForm := rfl

/-- A later word's bits count on from the first's. -/
theorem test_table_word_mov :
    decodeTableWord 48 0x0002123440B6 = some (.mov .word (.immediate 0x1234) (.indexed .r6 2)) := by decide

/-- Bits above nbits are 0. -/
theorem test_table_word_short : decodeTableWord 16 0x12B0 = some (.call (.immediate 0)) := by decide

/-- The first step from reset runs the word placed: `MOV #0x1234,R10`. -/
theorem test_fetch_word_runs : regsAfter (State.reset.withFetchWord 32 0x1234403A) [.pc, .r10] = some [4, 0x1234] := by decide

/-! ## One step per instruction (95_test_vectors.md section 4) -/

/-- V-S15. -/
theorem test_mov_byte_source_increment :
    regsAfter (machine 0x0100 [0x4576] [(.r5, 0x0200), (.r6, 0xFFFF)] [(0x0200, 0xCAFE)]) [.pc, .r5, .r6, .sr] = some [0x0102, 0x0201, 0x00FE, 0x0000] := by decide

/-- V-W1. -/
theorem test_mov_increment_into_itself :
    regsAfter (machine 0x0100 [0x4535] [(.r5, 0x0200)] [(0x0200, 0x1234)]) [.pc, .r5] = some [0x0102, 0x1234] := by decide

/-- V-A2. -/
theorem test_add_overflow :
    regsAfter (machine 0x0100 [0x5405] [(.r4, 0x0001), (.r5, 0x7FFF)]) [.pc, .r5, .sr] = some [0x0102, 0x8000, 0x0104] := by decide

/-- V-A5. -/
theorem test_add_byte_carry :
    regsAfter (machine 0x0100 [0x5355] [(.r5, 0x12FF)]) [.r5, .sr] = some [0x0000, 0x0003] := by decide

/-- V-C1. -/
theorem test_addc_carry_in :
    regsAfter (machine 0x0100 [0x6405] [(.r4, 0xFFFF), (.sr, 0x0001)]) [.r5, .sr] = some [0x0000, 0x0003] := by decide

/-- V-C4. -/
theorem test_addc_byte :
    regsAfter (machine 0x0100 [0x6445] [(.r4, 0x00FF), (.r5, 0x1200), (.sr, 0x0001)]) [.r5, .sr] = some [0x0000, 0x0003] := by decide

/-- V-B1. -/
theorem test_subc_borrow_in :
    regsAfter (machine 0x0100 [0x7405] [(.r4, 0x0003), (.r5, 0x0005)]) [.r5, .sr] = some [0x0001, 0x0001] := by decide

/-- V-B4. -/
theorem test_subc_overflow : regsAfter (machine 0x0100 [0x7405] [(.r5, 0x8000)]) [.r5, .sr] = some [0x7FFF, 0x0101] := by decide

/-- V-U2. -/
theorem test_sub_borrow :
    regsAfter (machine 0x0100 [0x8405] [(.r4, 0x0002), (.r5, 0x0001)]) [.r5, .sr] = some [0xFFFF, 0x0004] := by decide

/-- V-U5. -/
theorem test_sub_byte : regsAfter (machine 0x0100 [0x8355] [(.r5, 0x1200)]) [.r5, .sr] = some [0x00FF, 0x0004] := by decide

/-- V-P3. -/
theorem test_cmp_keeps_destination :
    regsAfter (machine 0x0100 [0x9315] [(.r5, 0x8000)]) [.r5, .sr] = some [0x8000, 0x0101] := by decide

/-- V-P6: CMP to R3 writes nothing. -/
theorem test_cmp_constant_register :
    regsAfter (machine 0x0100 [0x9033, 0x0005] []) [.pc, .cg, .sr] = some [0x0104, 0x0000, 0x0004] := by decide

/-- V-Q1. -/
theorem test_dadd :
    faultsWith (machine 0x0100 [0xA405] [(.r4, 0x0001), (.r5, 0x0001)]) .unsupportedOpcode 0x0100 0xA405 = true := by decide

/-- V-F14. -/
theorem test_dadd_before_operands : faultsWith (machine 0x0100 [0xA020] []) .unsupportedOpcode 0x0100 0xA020 = true := by decide

/-- V-T2. -/
theorem test_bit_zero :
    regsAfter (machine 0x0100 [0xB234] [(.r4, 0x0007), (.sr, 0x0101)]) [.r4, .sr] = some [0x0007, 0x0002] := by decide

/-- V-T3. -/
theorem test_bit_byte :
    regsAfter (machine 0x0100 [0xB074, 0x0080] [(.r4, 0x0080)]) [.pc, .sr] = some [0x0104, 0x0005] := by decide

/-- V-K2. -/
theorem test_bic_keeps_flags :
    regsAfter (machine 0x0100 [0xC405] [(.r4, 0x00FF), (.r5, 0x1234), (.sr, 0x0107)]) [.r5, .sr] = some [0x1200, 0x0107] := by decide

/-- V-K3. -/
theorem test_bic_byte :
    regsAfter (machine 0x0100 [0xC445] [(.r4, 0x000F), (.r5, 0x12FF)]) [.r5, .sr] = some [0x00F0, 0x0000] := by decide

/-- V-O1. -/
theorem test_bis_status : regsAfter (machine 0x0100 [0xD322] [(.sr, 0x0001)]) [.sr] = some [0x0003] := by decide

/-- V-O2. -/
theorem test_bis_memory :
    wordAfter (machine 0x0100 [0xD482, 0x0300] [(.r4, 0x00F0)] [(0x0300, 0x0F00)]) 0x0300 = some 0x0FF0 := by decide

/-- V-X1. -/
theorem test_xor_both_negative :
    regsAfter (machine 0x0100 [0xE405] [(.r4, 0x8000), (.r5, 0x8001)]) [.r5, .sr] = some [0x0001, 0x0101] := by decide

/-- V-X4. -/
theorem test_xor_byte :
    regsAfter (machine 0x0100 [0xE445] [(.r4, 0x0080), (.r5, 0x1281)]) [.r5, .sr] = some [0x0001, 0x0101] := by decide

/-- V-N1. -/
theorem test_and_zero :
    regsAfter (machine 0x0100 [0xF035, 0x00FF] [(.r5, 0x1200)]) [.pc, .r5, .sr] = some [0x0104, 0x0000, 0x0002] := by decide

/-- V-N3. -/
theorem test_and_byte : regsAfter (machine 0x0100 [0xF375] [(.r5, 0x12F4)]) [.r5, .sr] = some [0x00F4, 0x0005] := by decide

/-- V-1a. -/
theorem test_rrc_carry_in :
    regsAfter (machine 0x0100 [0x1005] [(.r5, 0x0002), (.sr, 0x0001)]) [.pc, .r5, .sr] = some [0x0102, 0x8001, 0x0004] := by decide

/-- V-1i. -/
theorem test_rrc_status : regsAfter (machine 0x0100 [0x1002] [(.sr, 0x0103)]) [.sr] = some [0x8081] := by decide

/-- V-2a. -/
theorem test_swpb : regsAfter (machine 0x0100 [0x1084] [(.r4, 0x1234)]) [.r4, .sr] = some [0x3412, 0x0000] := by decide

/-- V-W9: PC becomes odd. -/
theorem test_swpb_pc : regsAfter (machine 0x0100 [0x1080] []) [.pc] = some [0x0003] := by decide

/-- V-3a. -/
theorem test_rra_sign : regsAfter (machine 0x0100 [0x1104] [(.r4, 0x8001)]) [.r4, .sr] = some [0xC000, 0x0005] := by decide

/-- V-3c. -/
theorem test_rra_byte : regsAfter (machine 0x0100 [0x1144] [(.r4, 0x1280)]) [.r4, .sr] = some [0x00C0, 0x0004] := by decide

/-- V-4a. -/
theorem test_sxt_negative : regsAfter (machine 0x0100 [0x1184] [(.r4, 0x0080)]) [.r4, .sr] = some [0xFF80, 0x0005] := by decide

/-- V-4c. -/
theorem test_sxt_zero : regsAfter (machine 0x0100 [0x1184] [(.r4, 0xAB00)]) [.r4, .sr] = some [0x0000, 0x0002] := by decide

/-- V-5g. -/
theorem test_push_source_before_decrement :
    wordAfter (machine 0x0100 [0x1211, 0x0002] [(.sp, 0x8000)] [(0x8002, 0x7777)]) 0x7FFE = some 0x7777 := by decide

/-- V-5e. -/
theorem test_push_byte_keeps_the_other_byte :
    wordAfter (machine 0x0100 [0x1252, 0x0300] [(.sp, 0x8000)] [(0x0300, 0xBEEF), (0x7FFE, 0xAAAA)]) 0x7FFE = some 0xAAEF := by decide

/-- V-6g. -/
theorem test_call_sp : regsAfter (machine 0x0100 [0x1281] [(.sp, 0x8000)]) [.pc, .sp] = some [0x8002, 0x7FFE] := by decide

/-- V-6b. -/
theorem test_call_return_address : wordAfter (machine 0x0100 [0x12B0, 0x0300] [(.sp, 0x8000)]) 0x7FFE = some 0x0102 := by decide

/-- V-7a. -/
theorem test_reti : faultsWith (machine 0x0100 [0x1300] []) .unsupportedOpcode 0x0100 0x1300 = true := by decide

/-- V-7b. -/
theorem test_reti_variant : faultsWith (machine 0x0100 [0x137F] []) .unsupportedOpcode 0x0100 0x137F = true := by decide

/-- V-J0t. -/
theorem test_jne_taken : regsAfter (machine 0x0100 [0x2004] [(.sr, 0x0000)]) [.pc, .sr] = some [0x010A, 0x0000] := by decide

/-- V-J0n. -/
theorem test_jne_not_taken : regsAfter (machine 0x0100 [0x2004] [(.sr, 0x0002)]) [.pc, .sr] = some [0x0102, 0x0002] := by decide

/-- V-J1t. -/
theorem test_jeq_taken : regsAfter (machine 0x0100 [0x2404] [(.sr, 0x0002)]) [.pc, .sr] = some [0x010A, 0x0002] := by decide

/-- V-J1n. -/
theorem test_jeq_not_taken : regsAfter (machine 0x0100 [0x2404] [(.sr, 0x0000)]) [.pc, .sr] = some [0x0102, 0x0000] := by decide

/-- V-J2t. -/
theorem test_jnc_taken : regsAfter (machine 0x0100 [0x2804] [(.sr, 0x0000)]) [.pc, .sr] = some [0x010A, 0x0000] := by decide

/-- V-J2n. -/
theorem test_jnc_not_taken : regsAfter (machine 0x0100 [0x2804] [(.sr, 0x0001)]) [.pc, .sr] = some [0x0102, 0x0001] := by decide

/-- V-J3t. -/
theorem test_jc_taken : regsAfter (machine 0x0100 [0x2C04] [(.sr, 0x0001)]) [.pc, .sr] = some [0x010A, 0x0001] := by decide

/-- V-J3n. -/
theorem test_jc_not_taken : regsAfter (machine 0x0100 [0x2C04] [(.sr, 0x0000)]) [.pc, .sr] = some [0x0102, 0x0000] := by decide

/-- V-J4t. -/
theorem test_jn_taken : regsAfter (machine 0x0100 [0x3004] [(.sr, 0x0004)]) [.pc, .sr] = some [0x010A, 0x0004] := by decide

/-- V-J4n. -/
theorem test_jn_not_taken : regsAfter (machine 0x0100 [0x3004] [(.sr, 0x0000)]) [.pc, .sr] = some [0x0102, 0x0000] := by decide

/-- V-JGE-104. -/
theorem test_jge_taken : regsAfter (machine 0x0100 [0x3404] [(.sr, 0x0104)]) [.pc, .sr] = some [0x010A, 0x0104] := by decide

/-- V-JGE-004. -/
theorem test_jge_not_taken : regsAfter (machine 0x0100 [0x3404] [(.sr, 0x0004)]) [.pc, .sr] = some [0x0102, 0x0004] := by decide

/-- V-JL-100. -/
theorem test_jl_taken : regsAfter (machine 0x0100 [0x3804] [(.sr, 0x0100)]) [.pc, .sr] = some [0x010A, 0x0100] := by decide

/-- V-JL-104. -/
theorem test_jl_not_taken : regsAfter (machine 0x0100 [0x3804] [(.sr, 0x0104)]) [.pc, .sr] = some [0x0102, 0x0104] := by decide

/-- V-Jmin. -/
theorem test_jmp_least_offset : regsAfter (machine 0x0100 [0x3E00] []) [.pc] = some [0xFD02] := by decide

/-- V-Jzero. -/
theorem test_jmp_zero_target : faultsWith (machine 0x0002 [0x3FFF] []) .zeroTransferTarget 0x0002 0x3FFF = true := by decide

/-! The other kinds of fault (95_test_vectors.md section 4.5). -/

/-- V-F1. -/
theorem test_fault_misaligned_fetch : faultsWith (machine 0x0101 [0x4303] []) .misalignedFetch 0x0101 0x0000 = true := by decide

/-- V-F2. -/
theorem test_fault_illegal_encoding : faultsWith (machine 0x0100 [0x0000] []) .illegalEncoding 0x0100 0x0000 = true := by decide

/-- V-F7. -/
theorem test_fault_unsupported_addressing :
    faultsWith (machine 0x0100 [0x4580, 0x0000] []) .unsupportedAddressing 0x0100 0x4580 = true := by decide

/-- V-F8. -/
theorem test_fault_misaligned_access :
    faultsWith (machine 0x0100 [0x4416, 0x0001] [(.r4, 0x0100)]) .misalignedAccess 0x0100 0x4416 = true := by decide

/-- V-F9. -/
theorem test_fault_no_operand_location :
    faultsWith (machine 0x0100 [0x1132] []) .noOperandLocation 0x0100 0x1132 = true := by decide

/-- V-F10. -/
theorem test_fault_unsettled_stack_form :
    faultsWith (machine 0x0100 [0x1201] [(.sp, 0x8000)]) .unsettledStackForm 0x0100 0x1201 = true := by decide

/-- V-F12. -/
theorem test_fault_constant_register_write :
    faultsWith (machine 0x0100 [0x4033, 0x0005] []) .constantRegisterWrite 0x0100 0x4033 = true := by decide

/-- V-R1. -/
theorem test_stopped_machine :
    step { State.reset with faultLatch := some { kind := .illegalEncoding, pc := 0, w0 := 0 } } =
    .fault (.stopped { kind := .illegalEncoding, pc := 0, w0 := 0 }) := rfl

/-- The numbers of table R205. -/
theorem test_fault_codes :
    [FaultKind.misalignedFetch, .illegalEncoding, .unsupportedOpcode, .unsupportedAddressing, .misalignedAccess,
      .noOperandLocation, .unsettledStackForm, .zeroTransferTarget, .constantRegisterWrite].map FaultKind.code =
    [1, 2, 3, 4, 5, 6, 7, 8, 9] := by decide

/-! ## The toolchain (95_test_vectors.md sections 1 and 2) -/

/-- BOOT_SP = 0x8000, no globals, and `main` before the lines. -/
def image (code : List Toolchain.Line) : Option (List Byte) :=
  (Toolchain.assemble { bootSp := 0x8000 } [] (.label .main :: code)).toOption

/-- X8, E1: the bootstrap, with `main` at 0x0006, and `MOV #0,R5` folded to 0x4305. -/
theorem test_assemble_bootstrap :
    image [.double .mov .word (.immediate (.num 0)) (.reg .r5)] = some ([0x4031, 0x8000, 0x3C00, 0x4305].flatMap wordBytes) := by
  decide

/-- E14: the source's word first. -/
theorem test_assemble_two_words :
    image [.double .mov .word (.immediate (.num 0x1234)) (.indexed .r6 2)] =
      some ([0x4031, 0x8000, 0x3C00, 0x40B6, 0x1234, 0x0002].flatMap wordBytes) := by decide

/-- E27: `JNE loop` at byte 0x000A with `loop` at 0x0006. -/
theorem test_assemble_backward_jump :
    image [.double .add .word (.reg .r4) (.reg .r5), .double .sub .word (.immediate (.num 1)) (.reg .r4), .jump .ne .main] =
      some ([0x4031, 0x8000, 0x3C00, 0x5405, 0x8314, 0x23FD].flatMap wordBytes) := by decide

/-- E16: a destination `0(R6)` is refused. -/
theorem test_assemble_refuses_zero_index : image [.double .mov .word (.reg .r5) (.indexed .r6 0)] = none := by decide

/-- E21: RETI is refused. -/
theorem test_assemble_refuses_reti : image [.reti] = none := by decide

/-- R93: one two-digit uppercase hexadecimal byte per line. -/
theorem test_hex_lines : Toolchain.hexLines [0x3C, 0x0A] = [['3', 'C'], ['0', 'A']] := by decide

/-- R96: RET is `MOV @SP+,PC`. -/
theorem test_expand_ret : image [Toolchain.Emulated.ret.expand] = some ([0x4031, 0x8000, 0x3C00, 0x4130].flatMap wordBytes) := by
  decide

/-- R96, R92: JZ, JNZ, JHS and JLO are JEQ, JNE, JC and JNC; `main` is at 0x0006, each jump one word further from it. -/
theorem test_expand_jump_aliases :
    image ([Toolchain.Emulated.jz .main, .jnz .main, .jhs .main, .jlo .main].map Toolchain.Emulated.expand) =
      some ([0x4031, 0x8000, 0x3C00, 0x27FF, 0x23FE, 0x2FFD, 0x2BFC].flatMap wordBytes) := by decide

/-! ## Witnesses: for each statement with hypotheses, a state and operands that meet them, clause by clause -/

/-- SP 0x0200, R4 0x0300, R5 5, R6 0xFFFF, SR with C and Z set, 0xBEEF at 0x0300, PC 0x0100. -/
def sample : State := machine 0x0100 [] [(.sp, 0x0200), (.r4, 0x0300), (.r5, 5), (.r6, 0xFFFF), (.sr, 3)] [(0x0300, 0xBEEF)]

/-- A state no run reaches: R3 holds 0xFFFF. -/
def badCg : State := sample.setReg .cg 0xFFFF

/-- `sample` with C clear. -/
def noCarry : State := sample.setReg .sr 0

theorem witness_DecodeOfEncodeIsTheInstruction : (Instr.mov .word (.immediate 0x1234) (.indexed .cg 0xFFFF)).wf = true := by decide

theorem witness_EncodeOfDecodeIsTheWords :
    decode 0x40B6 0x1234 2 = .ok (.mov .word (.immediate 0x1234) (.indexed .r6 2)) ∧ decode 0x1300 0 0 = .ok (.reti 0) ∧
      decode 0xAFFF 0 0 = .ok (.dadd 0xFFF) := ⟨rfl, rfl, rfl⟩

/-- The ends of the three families. -/
theorem witness_TopBitsSelectTheFamily :
    decode 0x137F 0 0 = .ok (.reti 0x7F) ∧ decode 0x2000 0 0 = .ok (.jne 0) ∧ decode 0x3FFF 0 0 = .ok (.jmp 0x3FF) ∧
      decode 0x4000 0 0 = .ok (.mov .word (.reg .pc) (.reg .pc)) := ⟨rfl, rfl, rfl, rfl⟩

/-- A length of 6, 4 and 2 bytes, and the three clauses. -/
theorem witness_LengthFollowsTheFields :
    (∃ i, decode 0x40B6 1 2 = .ok i ∧ i.double?.isSome = true ∧ i.byteLength = 6) ∧
      (∃ i, decode 0x12B0 1 2 = .ok i ∧ i.single?.isSome = true ∧ i.byteLength = 4) ∧
      ∃ i, decode 0x3FFF 1 2 = .ok i ∧ i.double? = none ∧ i.single? = none ∧ i.byteLength = 2 :=
  ⟨⟨_, rfl, rfl, rfl⟩, ⟨_, rfl, rfl, rfl⟩, ⟨_, rfl, rfl, rfl, rfl⟩⟩

theorem witness_SourceTakesTheFirstExtensionWord :
    (∃ i w op, fetchDecode (machine 0x0100 [0x12B0, 0x0012]) = .ok i ∧ i.single? = some (w, op) ∧ op.ext = some 0x0012) ∧
    (∃ i w src dst, fetchDecode (machine 0xFFFE [0x4582, 0x0300]) = .ok i ∧ i.double? = some (w, src, dst) ∧ src.ext = none ∧
      dst.ext = some 0x0300) ∧
    ∃ i w src dst, fetchDecode (machine 0xFFFC [0x4292, 0x0300, 0x0400]) = .ok i ∧ i.double? = some (w, src, dst) ∧
      src.ext = some 0x0300 ∧ dst.ext = some 0x0400 :=
  ⟨⟨_, _, _, rfl, rfl, rfl⟩, ⟨_, _, _, _, rfl, rfl, rfl, rfl⟩, ⟨_, _, _, _, rfl, rfl, rfl, rfl⟩⟩

/-- An even word address and, for a byte, an odd one. -/
theorem witness_OperandFormsResolve :
    misaligned .word 0x0302 = false ∧ sample.reg .r4 + 2 = 0x0302 ∧ sample.reg .r4 = 0x0300 ∧ misaligned .byte 0xFFFF = false ∧
      sample.reg .r6 + 0 = 0xFFFF := by decide

theorem witness_OperandsFaultExactlyWhere :
    resolveSrc .byte (.symbolic 0) sample = .error .unsupportedAddressing ∧
      resolveSrc .word (.indirect .r6) sample = .error .misalignedAccess ∧
      resolveDst .byte (.symbolic 0) sample = .error .unsupportedAddressing ∧
      resolveDst .word (.absolute 0xFFFF) sample = .error .misalignedAccess := ⟨rfl, rfl, rfl, rfl⟩

/-- The last word of memory, and the word at PC. -/
theorem witness_WordStoreIsLittleEndian :
    sample.mem.wf = true ∧ (0xFFFE : Word).toNat % 2 = 0 ∧ (0x0100 : Word).toNat % 2 = 0 ∧ sample.reg .pc = 0x0100 := by decide

theorem witness_ReadReturnsTheMostRecentWrite :
    sample.mem.wf = true ∧ ∀ p ∈ [((0x0301 : Word), (7 : Byte)), (0xFFFF, 8)], p.1 ≠ (0x0300 : Word) :=
  ⟨by decide, by simp⟩

/-- The bits beside those of the flags, and a register beside SR. -/
theorem witness_FlagUpdatesTouchTheirBitsOnly :
    (3 ≠ 0 ∧ 3 ≠ 1 ∧ 3 ≠ 2 ∧ 3 ≠ 8) ∧ (7 ≠ 0 ∧ 7 ≠ 1 ∧ 7 ≠ 2 ∧ 7 ≠ 8) ∧ (9 ≠ 0 ∧ 9 ≠ 1 ∧ 9 ≠ 2 ∧ 9 ≠ 8) ∧ Reg.sp ≠ Reg.sr := by decide

/-- The largest operands of each width; the sum with a carry and the one without. -/
theorem witness_AddWNarrowsTheExactSum :
    (0xFFFF : Word).toNat < Width.modulus .word ∧ (0x00FF : Word).toNat < Width.modulus .byte ∧
      (addW .byte 0xFF 0xFF true).flags.c = some true ∧ (addW .word 0xFFFF 0 false).flags.c = some false := by decide

theorem witness_SubWIsAddWOfTheComplement :
    (0xFFFF : Word).toNat < Width.modulus .word ∧ (0x00FF : Word).toNat < Width.modulus .byte := by decide

theorem witness_MultiWordChains : sample.mem.wf = true := by decide

/-! The double-operand instructions: a byte at an odd address as the destination, which completes; R3 as the destination with a
result of zero, which completes; and R3 with another result, which faults. -/

theorem witness_MovWritesTheSourceValue :
    (∃ sv dv, sample.mem.wf = true ∧ resolveSrc .byte (.indirectInc .r4) sample = .ok sv ∧
      resolveDst .byte (.absolute 0x0301) sample = .ok dv ∧ (DstOp.absolute 0x0301 = .reg .cg → sv.val = 0)) ∧
    (∃ (s : State) (sv : SrcStage) (dv : DstStage), s.mem.wf = true ∧ resolveSrc .word (.reg .cg) s = .ok sv ∧ resolveDst .word (.reg .cg) s = .ok dv ∧
      sv.val = 0) ∧
    ∃ (s : State) (sv : SrcStage) (dv : DstStage), s.mem.wf = true ∧ resolveSrc .word (.reg .r5) s = .ok sv ∧ resolveDst .word (.reg .cg) s = .ok dv ∧
      sv.val ≠ 0 :=
  ⟨⟨_, _, by decide, rfl, rfl, nofun⟩, ⟨sample, _, _, by decide, rfl, rfl, by decide⟩,
    ⟨sample, _, _, by decide, rfl, rfl, by decide⟩⟩

theorem witness_AddWritesTheSum :
    (∃ sv dv, sample.mem.wf = true ∧ resolveSrc .byte (.indirectInc .r4) sample = .ok sv ∧
      resolveDst .byte (.absolute 0x0301) sample = .ok dv ∧ (DstOp.absolute 0x0301 = .reg .cg → sv.val = 0)) ∧
    (∃ (s : State) (sv : SrcStage) (dv : DstStage), s.mem.wf = true ∧ resolveSrc .word (.reg .cg) s = .ok sv ∧ resolveDst .word (.reg .cg) s = .ok dv ∧
      BitVec.ofNat 16 ((dv.val.toNat + sv.val.toNat) % Width.modulus .word) = 0) ∧
    ∃ (s : State) (sv : SrcStage) (dv : DstStage), s.mem.wf = true ∧ resolveSrc .word (.reg .r5) s = .ok sv ∧ resolveDst .word (.reg .cg) s = .ok dv ∧
      BitVec.ofNat 16 ((dv.val.toNat + sv.val.toNat) % Width.modulus .word) ≠ 0 :=
  ⟨⟨_, _, by decide, rfl, rfl, nofun⟩, ⟨sample, _, _, by decide, rfl, rfl, by decide⟩,
    ⟨sample, _, _, by decide, rfl, rfl, by decide⟩⟩

theorem witness_AddcWritesTheSumWithCarry :
    (∃ sv dv, sample.mem.wf = true ∧ resolveSrc .byte (.indirectInc .r4) sample = .ok sv ∧
      resolveDst .byte (.absolute 0x0301) sample = .ok dv ∧ (DstOp.absolute 0x0301 = .reg .cg → sv.val = 0)) ∧
    (∃ (s : State) (sv : SrcStage) (dv : DstStage), s.mem.wf = true ∧ resolveSrc .word (.immediate 0xFFFF) s = .ok sv ∧ resolveDst .word (.reg .cg) s = .ok dv ∧
      BitVec.ofNat 16 ((dv.val.toNat + sv.val.toNat + (if s.flagC then 1 else 0)) % Width.modulus .word) = 0) ∧
    ∃ (s : State) (sv : SrcStage) (dv : DstStage), s.mem.wf = true ∧ resolveSrc .word (.reg .r5) s = .ok sv ∧ resolveDst .word (.reg .cg) s = .ok dv ∧
      BitVec.ofNat 16 ((dv.val.toNat + sv.val.toNat + (if s.flagC then 1 else 0)) % Width.modulus .word) ≠ 0 :=
  ⟨⟨_, _, by decide, rfl, rfl, nofun⟩, ⟨sample, _, _, by decide, rfl, rfl, by decide⟩,
    ⟨sample, _, _, by decide, rfl, rfl, by decide⟩⟩

theorem witness_SubcWritesTheDifferenceWithBorrow :
    (∃ sv dv, sample.mem.wf = true ∧ resolveSrc .byte (.indirectInc .r4) sample = .ok sv ∧
      resolveDst .byte (.absolute 0x0301) sample = .ok dv ∧ (DstOp.absolute 0x0301 = .reg .cg → sv.val = 0)) ∧
    (∃ (s : State) (sv : SrcStage) (dv : DstStage), s.mem.wf = true ∧ resolveSrc .word (.reg .cg) s = .ok sv ∧ resolveDst .word (.reg .cg) s = .ok dv ∧
      BitVec.ofInt 16 (((dv.val.toNat : Int) - (sv.val.toNat : Int) - (if s.flagC then 0 else 1)) % (Width.modulus .word : Int)) = 0) ∧
    ∃ (s : State) (sv : SrcStage) (dv : DstStage), s.mem.wf = true ∧ resolveSrc .word (.reg .r5) s = .ok sv ∧ resolveDst .word (.reg .cg) s = .ok dv ∧
      BitVec.ofInt 16 (((dv.val.toNat : Int) - (sv.val.toNat : Int) - (if s.flagC then 0 else 1)) % (Width.modulus .word : Int)) ≠ 0 :=
  ⟨⟨_, _, by decide, rfl, rfl, nofun⟩, ⟨sample, _, _, by decide, rfl, rfl, by decide⟩,
    ⟨sample, _, _, by decide, rfl, rfl, by decide⟩⟩

theorem witness_SubWritesTheDifference :
    (∃ sv dv, sample.mem.wf = true ∧ resolveSrc .byte (.indirectInc .r4) sample = .ok sv ∧
      resolveDst .byte (.absolute 0x0301) sample = .ok dv ∧ (DstOp.absolute 0x0301 = .reg .cg → sv.val = 0)) ∧
    (∃ (s : State) (sv : SrcStage) (dv : DstStage), s.mem.wf = true ∧ resolveSrc .word (.reg .cg) s = .ok sv ∧ resolveDst .word (.reg .cg) s = .ok dv ∧
      BitVec.ofInt 16 (((dv.val.toNat : Int) - (sv.val.toNat : Int)) % (Width.modulus .word : Int)) = 0) ∧
    ∃ (s : State) (sv : SrcStage) (dv : DstStage), s.mem.wf = true ∧ resolveSrc .word (.reg .r5) s = .ok sv ∧ resolveDst .word (.reg .cg) s = .ok dv ∧
      BitVec.ofInt 16 (((dv.val.toNat : Int) - (sv.val.toNat : Int)) % (Width.modulus .word : Int)) ≠ 0 :=
  ⟨⟨_, _, by decide, rfl, rfl, nofun⟩, ⟨sample, _, _, by decide, rfl, rfl, by decide⟩,
    ⟨sample, _, _, by decide, rfl, rfl, by decide⟩⟩

theorem witness_BicClearsTheSourceBits :
    (∃ sv dv, sample.mem.wf = true ∧ resolveSrc .byte (.indirectInc .r4) sample = .ok sv ∧
      resolveDst .byte (.absolute 0x0301) sample = .ok dv ∧ (DstOp.absolute 0x0301 = .reg .cg → sv.val = 0)) ∧
    (∃ (s : State) (sv : SrcStage) (dv : DstStage), s.mem.wf = true ∧ resolveSrc .word (.reg .cg) s = .ok sv ∧ resolveDst .word (.reg .cg) s = .ok dv ∧
      ~~~sv.val &&& dv.val = 0) ∧
    ∃ (s : State) (sv : SrcStage) (dv : DstStage), s.mem.wf = true ∧ resolveSrc .word (.reg .r5) s = .ok sv ∧ resolveDst .word (.reg .cg) s = .ok dv ∧
      ~~~sv.val &&& dv.val ≠ 0 :=
  ⟨⟨_, _, by decide, rfl, rfl, nofun⟩, ⟨sample, _, _, by decide, rfl, rfl, by decide⟩,
    ⟨badCg, _, _, by decide, rfl, rfl, by decide⟩⟩

theorem witness_BisSetsTheSourceBits :
    (∃ sv dv, sample.mem.wf = true ∧ resolveSrc .byte (.indirectInc .r4) sample = .ok sv ∧
      resolveDst .byte (.absolute 0x0301) sample = .ok dv ∧ (DstOp.absolute 0x0301 = .reg .cg → sv.val = 0)) ∧
    (∃ (s : State) (sv : SrcStage) (dv : DstStage), s.mem.wf = true ∧ resolveSrc .word (.reg .cg) s = .ok sv ∧ resolveDst .word (.reg .cg) s = .ok dv ∧
      sv.val ||| dv.val = 0) ∧
    ∃ (s : State) (sv : SrcStage) (dv : DstStage), s.mem.wf = true ∧ resolveSrc .word (.reg .r5) s = .ok sv ∧ resolveDst .word (.reg .cg) s = .ok dv ∧
      sv.val ||| dv.val ≠ 0 :=
  ⟨⟨_, _, by decide, rfl, rfl, nofun⟩, ⟨sample, _, _, by decide, rfl, rfl, by decide⟩,
    ⟨sample, _, _, by decide, rfl, rfl, by decide⟩⟩

theorem witness_XorWritesTheExclusiveOr :
    (∃ sv dv, sample.mem.wf = true ∧ resolveSrc .byte (.indirectInc .r4) sample = .ok sv ∧
      resolveDst .byte (.absolute 0x0301) sample = .ok dv ∧ (DstOp.absolute 0x0301 = .reg .cg → sv.val = 0)) ∧
    (∃ (s : State) (sv : SrcStage) (dv : DstStage), s.mem.wf = true ∧ resolveSrc .word (.reg .cg) s = .ok sv ∧ resolveDst .word (.reg .cg) s = .ok dv ∧
      sv.val ^^^ dv.val = 0) ∧
    ∃ (s : State) (sv : SrcStage) (dv : DstStage), s.mem.wf = true ∧ resolveSrc .word (.reg .r5) s = .ok sv ∧ resolveDst .word (.reg .cg) s = .ok dv ∧
      sv.val ^^^ dv.val ≠ 0 :=
  ⟨⟨_, _, by decide, rfl, rfl, nofun⟩, ⟨sample, _, _, by decide, rfl, rfl, by decide⟩,
    ⟨sample, _, _, by decide, rfl, rfl, by decide⟩⟩

theorem witness_AndWritesTheConjunction :
    (∃ sv dv, sample.mem.wf = true ∧ resolveSrc .byte (.indirectInc .r4) sample = .ok sv ∧
      resolveDst .byte (.absolute 0x0301) sample = .ok dv ∧ (DstOp.absolute 0x0301 = .reg .cg → sv.val = 0)) ∧
    (∃ (s : State) (sv : SrcStage) (dv : DstStage), s.mem.wf = true ∧ resolveSrc .word (.reg .cg) s = .ok sv ∧ resolveDst .word (.reg .cg) s = .ok dv ∧
      sv.val &&& dv.val = 0) ∧
    ∃ (s : State) (sv : SrcStage) (dv : DstStage), s.mem.wf = true ∧ resolveSrc .word (.reg .r5) s = .ok sv ∧ resolveDst .word (.reg .cg) s = .ok dv ∧
      sv.val &&& dv.val ≠ 0 :=
  ⟨⟨_, _, by decide, rfl, rfl, nofun⟩, ⟨sample, _, _, by decide, rfl, rfl, by decide⟩,
    ⟨badCg, _, _, by decide, rfl, rfl, by decide⟩⟩

theorem witness_CmpSetsTheFlagsOnly :
    ∃ sv dv, sample.mem.wf = true ∧ resolveSrc .byte (.indirectInc .r4) sample = .ok sv ∧
      resolveDst .byte (.absolute 0x0301) sample = .ok dv := ⟨_, _, by decide, rfl, rfl⟩

theorem witness_BitSetsTheFlagsOnly :
    ∃ sv dv, sample.mem.wf = true ∧ resolveSrc .byte (.indirectInc .r4) sample = .ok sv ∧
      resolveDst .byte (.absolute 0x0301) sample = .ok dv := ⟨_, _, by decide, rfl, rfl⟩

/-- The first and the last word of each range, at PC. -/
theorem witness_DaddIsUnsupported :
    (∃ s : State, s.faultLatch = none ∧ (s.reg .pc).toNat % 2 = 0 ∧ s.word (s.reg .pc) = 0xA000) ∧
      ∃ s : State, s.faultLatch = none ∧ (s.reg .pc).toNat % 2 = 0 ∧ s.word (s.reg .pc) = 0xAFFF :=
  ⟨⟨machine 0x0100 [0xA000], by decide⟩, ⟨machine 0xFFFE [0xAFFF], by decide⟩⟩

theorem witness_RetiIsUnsupported :
    (∃ s : State, s.faultLatch = none ∧ (s.reg .pc).toNat % 2 = 0 ∧ s.word (s.reg .pc) = 0x1300) ∧
      ∃ s : State, s.faultLatch = none ∧ (s.reg .pc).toNat % 2 = 0 ∧ s.word (s.reg .pc) = 0x137F :=
  ⟨⟨machine 0x0100 [0x1300], by decide⟩, ⟨machine 0xFFFE [0x137F], by decide⟩⟩

/-! RRC, SWPB, RRA and SXT: an operand with no location; one that completes; R3 with a result of zero, and with another. -/

theorem witness_RrcRotatesThroughCarry :
    (∃ sv, sample.mem.wf = true ∧ resolveSrc .word (.immediate 5) sample = .ok sv ∧ sv.loc = none) ∧
    (∃ sv, sample.mem.wf = true ∧ resolveSrc .word (.indirect .r4) sample = .ok sv ∧ sv.loc = some (.mem 0x0300)) ∧
    (∃ (s : State) (sv : SrcStage), s.mem.wf = true ∧ resolveSrc .word (.reg .cg) s = .ok sv ∧ sv.loc = some (.reg .cg) ∧
      BitVec.ofNat 16 (sv.val.toNat / 2 + (if s.flagC then Width.modulus .word / 2 else 0)) = 0) ∧
    ∃ (s : State) (sv : SrcStage), s.mem.wf = true ∧ resolveSrc .word (.reg .cg) s = .ok sv ∧ sv.loc = some (.reg .cg) ∧
      BitVec.ofNat 16 (sv.val.toNat / 2 + (if s.flagC then Width.modulus .word / 2 else 0)) ≠ 0 :=
  ⟨⟨_, by decide, rfl, rfl⟩, ⟨_, by decide, rfl, rfl⟩, ⟨noCarry, _, by decide, rfl, rfl, by decide⟩,
    ⟨sample, _, by decide, rfl, rfl, by decide⟩⟩

theorem witness_SwpbSwapsTheBytes :
    (∃ sv, sample.mem.wf = true ∧ resolveSrc .word (.immediate 5) sample = .ok sv ∧ sv.loc = none) ∧
    (∃ sv, sample.mem.wf = true ∧ resolveSrc .word (.indirect .r4) sample = .ok sv ∧ sv.loc = some (.mem 0x0300)) ∧
    (∃ (s : State) (sv : SrcStage), s.mem.wf = true ∧ resolveSrc .word (.reg .cg) s = .ok sv ∧ sv.loc = some (.reg .cg) ∧
      BitVec.ofNat 16 (sv.val.toNat % 256 * 256 + sv.val.toNat / 256) = 0) ∧
    ∃ (s : State) (sv : SrcStage), s.mem.wf = true ∧ resolveSrc .word (.reg .cg) s = .ok sv ∧ sv.loc = some (.reg .cg) ∧
      BitVec.ofNat 16 (sv.val.toNat % 256 * 256 + sv.val.toNat / 256) ≠ 0 :=
  ⟨⟨_, by decide, rfl, rfl⟩, ⟨_, by decide, rfl, rfl⟩, ⟨sample, _, by decide, rfl, rfl, by decide⟩,
    ⟨badCg, _, by decide, rfl, rfl, by decide⟩⟩

theorem witness_RraShiftsKeepingTheSign :
    (∃ sv, sample.mem.wf = true ∧ resolveSrc .word (.immediate 5) sample = .ok sv ∧ sv.loc = none) ∧
    (∃ sv, sample.mem.wf = true ∧ resolveSrc .word (.indirect .r4) sample = .ok sv ∧ sv.loc = some (.mem 0x0300)) ∧
    (∃ (s : State) (sv : SrcStage), s.mem.wf = true ∧ resolveSrc .word (.reg .cg) s = .ok sv ∧ sv.loc = some (.reg .cg) ∧
      BitVec.ofNat 16 (sv.val.toNat / 2 + (if Width.msb .word sv.val then Width.modulus .word / 2 else 0)) = 0) ∧
    ∃ (s : State) (sv : SrcStage), s.mem.wf = true ∧ resolveSrc .word (.reg .cg) s = .ok sv ∧ sv.loc = some (.reg .cg) ∧
      BitVec.ofNat 16 (sv.val.toNat / 2 + (if Width.msb .word sv.val then Width.modulus .word / 2 else 0)) ≠ 0 :=
  ⟨⟨_, by decide, rfl, rfl⟩, ⟨_, by decide, rfl, rfl⟩, ⟨sample, _, by decide, rfl, rfl, by decide⟩,
    ⟨badCg, _, by decide, rfl, rfl, by decide⟩⟩

theorem witness_SxtExtendsTheSign :
    (∃ sv, sample.mem.wf = true ∧ resolveSrc .word (.immediate 5) sample = .ok sv ∧ sv.loc = none) ∧
    (∃ sv, sample.mem.wf = true ∧ resolveSrc .word (.indirect .r4) sample = .ok sv ∧ sv.loc = some (.mem 0x0300)) ∧
    (∃ (s : State) (sv : SrcStage), s.mem.wf = true ∧ resolveSrc .word (.reg .cg) s = .ok sv ∧ sv.loc = some (.reg .cg) ∧
      BitVec.ofNat 16 (if sv.val.toNat % 256 < 128 then sv.val.toNat % 256 else 0xFF00 + sv.val.toNat % 256) = 0) ∧
    ∃ (s : State) (sv : SrcStage), s.mem.wf = true ∧ resolveSrc .word (.reg .cg) s = .ok sv ∧ sv.loc = some (.reg .cg) ∧
      BitVec.ofNat 16 (if sv.val.toNat % 256 < 128 then sv.val.toNat % 256 else 0xFF00 + sv.val.toNat % 256) ≠ 0 :=
  ⟨⟨_, by decide, rfl, rfl⟩, ⟨_, by decide, rfl, rfl⟩, ⟨sample, _, by decide, rfl, rfl, by decide⟩,
    ⟨badCg, _, by decide, rfl, rfl, by decide⟩⟩

/-- An unsettled form; a settled one at an odd SP; the same at an even SP. -/
theorem witness_PushStoresTheOperand :
    (∃ sv, sample.mem.wf = true ∧ sample.reg .cg = 0 ∧ resolveSrc .byte (.reg .r5) sample = .ok sv) ∧
    (∃ (s : State) (sv : SrcStage), s.mem.wf = true ∧ s.reg .cg = 0 ∧ resolveSrc .word (.reg .r5) s = .ok sv ∧ (s.reg .sp).toNat % 2 = 1) ∧
    ∃ sv, sample.mem.wf = true ∧ sample.reg .cg = 0 ∧ resolveSrc .word (.reg .r5) sample = .ok sv ∧
      (sample.reg .sp).toNat % 2 = 0 ∧ SrcOp.reg .r5 ≠ .reg .sp ∧ SrcOp.reg .r5 ≠ .indirectInc .sp :=
  ⟨⟨_, by decide, by decide, rfl⟩, ⟨sample.setReg .sp 0xFFFF, _, by decide, by decide, rfl, by decide⟩,
    ⟨_, by decide, by decide, rfl, by decide, by decide, by decide⟩⟩

/-- The unsettled form; a zero target; an odd SP; an even SP. -/
theorem witness_CallStoresTheReturnAddress :
    (∃ sv, sample.mem.wf = true ∧ resolveSrc .word (.indirectInc .sp) sample = .ok sv) ∧
    (∃ sv, sample.mem.wf = true ∧ resolveSrc .word (.reg .cg) sample = .ok sv ∧ sv.val = 0) ∧
    (∃ (s : State) (sv : SrcStage), s.mem.wf = true ∧ resolveSrc .word (.reg .r4) s = .ok sv ∧ sv.val ≠ 0 ∧ (s.reg .sp).toNat % 2 = 1) ∧
    ∃ sv, sample.mem.wf = true ∧ resolveSrc .word (.reg .r4) sample = .ok sv ∧ sv.val ≠ 0 ∧ ¬(sample.reg .sp).toNat % 2 = 1 :=
  ⟨⟨_, by decide, rfl⟩, ⟨_, by decide, rfl, by decide⟩, ⟨sample.setReg .sp 1, _, by decide, rfl, by decide, by decide⟩,
    ⟨_, by decide, rfl, by decide, by decide⟩⟩

/-- Taken and not taken, at a zero and at a nonzero new value. -/
theorem witness_JumpsFollowTheirConditions :
    sample.flagZ = true ∧ sample.flagC = true ∧ sample.flagN = false ∧ sample.flagV = false ∧ noCarry.flagZ = false ∧
      noCarry.flagC = false ∧ (sample.setReg .sr 4).flagN = true ∧ (sample.setReg .sr 0x100).flagV = true ∧
      sample.reg .pc + BitVec.ofInt 16 (2 * (0x3FF : BitVec 10).toInt) ≠ 0 ∧
      (sample.setReg .pc 2).reg .pc + BitVec.ofInt 16 (2 * (0x3FF : BitVec 10).toInt) = 0 := by decide

theorem witness_OperandFaultsAreLatched :
    ((Instr.cmp .word (.symbolic 0) (.reg .r5)).double? = some (.word, .symbolic 0, .reg .r5) ∧
      resolveSrc .word (.symbolic 0) sample = .error .unsupportedAddressing) ∧
    (∃ sv, (Instr.mov .word (.reg .r5) (.absolute 1)).double? = some (.word, .reg .r5, .absolute 1) ∧
      resolveSrc .word (.reg .r5) sample = .ok sv ∧ resolveDst .word (.absolute 1) sample = .error .misalignedAccess) ∧
    (Instr.push .word (.indirect .r6)).single? = some (.word, .indirect .r6) ∧
      resolveSrc .word (.indirect .r6) sample = .error .misalignedAccess := ⟨⟨rfl, rfl⟩, ⟨_, rfl, rfl, rfl⟩, rfl, rfl⟩

/-- The fault of stage 1, of stage 2, of stage 4 and of each check of stage 5; and an instruction with every part of an effect
but the push, and one with the push and the transfer. -/
theorem witness_ExecIsAllOrNothing :
    sample.mem.wf = true ∧ sample.reg .cg = 0 ∧
      (outcome (.reti 0) sample = .error .unsupportedOpcode ∧
        outcome (.mov .word (.indirect .r6) (.reg .r5)) sample = .error .misalignedAccess ∧
        outcome (.push .byte (.reg .r5)) sample = .error .unsettledStackForm ∧
        outcome (.push .word (.reg .r5)) (sample.setReg .sp 1) = .error .misalignedAccess ∧
        outcome (.mov .word (.reg .r5) (.reg .cg)) sample = .error .constantRegisterWrite) ∧
      (∃ e, outcome (.add .word (.indirectInc .r4) (.absolute 0x0300)) sample = .ok e ∧ e.autoInc = some (.r4, 2) ∧
        e.result = some (.mem 0x0300, .word, 0x7DDE)) ∧
      ∃ e, outcome (.call (.reg .r4)) sample = .ok e ∧ e.push = some (.word, 0x0102) ∧ e.newValue = some 0x0300 :=
  ⟨by decide, by decide, ⟨rfl, rfl, rfl, rfl, rfl⟩, ⟨_, rfl, rfl, rfl⟩, ⟨_, rfl, rfl, rfl⟩⟩

theorem witness_StepRunsTheDecodedInstruction :
    ∃ (s : State) (i : Instr), s.faultLatch = none ∧ (s.reg .pc).toNat % 2 = 0 ∧
      decode (s.word (s.reg .pc)) (s.word (s.reg .pc + 2)) (s.word (s.reg .pc + 4)) = .ok i :=
  ⟨machine 0xFFFE [0x4036, 0x1234], .mov .word (.immediate 0x1234) (.reg .r6), by decide, by decide, rfl⟩

theorem witness_StepFaultsBeforeAnyInstruction :
    (∃ s : State, s.faultLatch = none ∧ (s.reg .pc).toNat % 2 = 1) ∧
      ∃ (s : State) (e : DecodeError), s.faultLatch = none ∧ (s.reg .pc).toNat % 2 = 0 ∧
        decode (s.word (s.reg .pc)) (s.word (s.reg .pc + 2)) (s.word (s.reg .pc + 4)) = .error e :=
  ⟨⟨machine 0xFFFF [], by decide⟩, ⟨machine 0 [0], _, by decide, by decide, rfl⟩⟩

/-- Running states that fault at an odd PC, fault at an even one, and go on. -/
theorem witness_StepFaultsArePrecise :
    (machine 0x0101 []).faultLatch = none ∧ faultsWith (machine 0x0101 []) .misalignedFetch 0x0101 0 = true ∧
      faultsWith (machine 0x0100 [0x1300]) .unsupportedOpcode 0x0100 0x1300 = true ∧
      regsAfter (machine 0x0100 [0x4303]) [.pc] = some [0x0102] := by decide

theorem witness_StoppedMachineStaysStopped :
    (∃ s t : State, s.faultLatch = none ∧ step s = .next t ∧ t.faultLatch ≠ none) ∧
      (∃ s : State, s.faultLatch = some { kind := .illegalEncoding, pc := 0, w0 := 0 }) ∧
      ∃ t, construct [0x03, 0x43] = some t :=
  ⟨⟨machine 0 [0], _, rfl, rfl, nofun⟩, ⟨{ State.reset with faultLatch := _ }, rfl⟩, ⟨_, rfl⟩⟩

/-- A running state and a stopped one, neither of them reset. -/
theorem witness_StepKeepsInvariant :
    (∃ s t : State, s.Inv ∧ step s = .next t) ∧
      ∃ s : State, s.Inv ∧ s.faultLatch = some { kind := .misalignedFetch, pc := 0xFFFF, w0 := 0 } :=
  ⟨⟨machine 0x0100 [0x5405] [(.r4, 1)], _, by decide, rfl⟩,
    ⟨{ machine 0xFFFF [] with faultLatch := some { kind := .misalignedFetch, pc := 0xFFFF, w0 := 0 } }, by decide, rfl⟩⟩

/-- A constructed state, a running one that is not reset, and a stopped one. -/
theorem witness_HostRunsKeepInvariant :
    (∃ s, construct [0x14, 0x43] = some s) ∧ (machine 0x0100 [0x5405] [(.r4, 1)]).Inv ∧
      State.Inv { machine 0xFFFF [] with faultLatch := some { kind := .misalignedFetch, pc := 0xFFFF, w0 := 0 } } :=
  ⟨⟨_, rfl⟩, by decide, by decide⟩

/-- An unnamed register of a completing instruction. -/
theorem witness_OnlyNamedRegistersChange :
    ∃ t, (Instr.add .word (.indirectInc .r4) (.reg .r5)).wf = true ∧ sample.mem.wf = true ∧
      exec (.add .word (.indirectInc .r4) (.reg .r5)) sample = .next t ∧ t.faultLatch = none ∧
      (Instr.add .word (.indirectInc .r4) (.reg .r5)).mayWrite .r6 = false :=
  ⟨_, by decide, by decide, rfl, rfl, by decide⟩

/-- A store to memory and a push, each with the byte below and the byte above what it stores. -/
theorem witness_OnlyStoredBytesChange :
    (∃ t, (Instr.mov .word (.reg .r5) (.indexed .r4 2)).wf = true ∧ sample.mem.wf = true ∧
      exec (.mov .word (.reg .r5) (.indexed .r4 2)) sample = .next t ∧
      (Instr.mov .word (.reg .r5) (.indexed .r4 2)).store? sample = some (.word, 0x0302) ∧
      inStore .word 0x0302 0x0301 = false ∧ inStore .word 0x0302 0x0304 = false) ∧
    ∃ t, exec (.push .word (.reg .r5)) sample = .next t ∧ t.faultLatch = none ∧
      (Instr.push .word (.reg .r5)).store? sample = some (.word, 0x01FE) ∧
      inStore .word 0x01FE 0x01FD = false ∧ inStore .word 0x01FE 0x0200 = false :=
  ⟨⟨_, by decide, by decide, rfl, by decide, by decide, by decide⟩, ⟨_, rfl, rfl, by decide, by decide, by decide⟩⟩

theorem witness_OnlyNamedFlagsChange :
    (∃ t, (Instr.cmp .word (.reg .r4) (.reg .sr)).wf = true ∧ sample.mem.wf = true ∧
      exec (.cmp .word (.reg .r4) (.reg .sr)) sample = .next t ∧ (Instr.cmp .word (.reg .r4) (.reg .sr)).destReg ≠ some .sr) ∧
    ∃ t, exec (.bic .word (.reg .r4) (.reg .r5)) sample = .next t ∧ (Instr.bic .word (.reg .r4) (.reg .r5)).setsFlags = false :=
  ⟨⟨_, by decide, by decide, rfl, by decide⟩, ⟨_, rfl, rfl⟩⟩

/-- PC 0, PC 2, and the last word of memory. -/
theorem witness_SelfJumpIsAFixedPoint :
    (∃ s : State, s.faultLatch = none ∧ (s.reg .pc).toNat % 2 = 0 ∧ s.word (s.reg .pc) = 0x3FFF ∧ s.reg .pc = 0xFFFE) ∧
      (∃ s : State, s.faultLatch = none ∧ s.word (s.reg .pc) = 0x3FFF ∧ s.reg .pc = 0) ∧
      ∃ s : State, s.faultLatch = none ∧ s.word (s.reg .pc) = 0x3FFF ∧ s.reg .pc = 2 :=
  ⟨⟨machine 0xFFFE [0x3FFF], by decide⟩, ⟨machine 0 [0x3FFF], by decide⟩, ⟨machine 2 [0x3FFF], by decide⟩⟩

/-- The return itself as `u`, at the subroutine's first instruction. -/
theorem witness_ReturnContinuesAfterTheCall :
    ∃ (s t : State) (sv : SrcStage), s.mem.wf = true ∧ t.mem.wf = true ∧ (s.reg .sp).toNat % 2 = 0 ∧ (SrcOp.immediate 0x0012).wf = true ∧
      resolveSrc .word (.immediate 0x0012) s = .ok sv ∧ sv.val ≠ 0 ∧ exec (.call (.immediate 0x0012)) s = .next t :=
  ⟨sample, _, _, by decide, by decide, by decide, by decide, rfl, by decide, rfl⟩

theorem witness_CompareThenBranch :
    ∃ sv dv, sample.mem.wf = true ∧ (SrcOp.indirectInc .r4).wf = true ∧ resolveSrc .byte (.indirectInc .r4) sample = .ok sv ∧
      resolveDst .byte (.absolute 0x0301) sample = .ok dv := ⟨_, _, by decide, by decide, rfl, rfl⟩

theorem witness_StoreIsSeenByTheNextFetch :
    ∃ (s t : State) (i : Instr), s.mem.wf = true ∧ s.faultLatch = none ∧ (s.reg .pc).toNat % 2 = 0 ∧
      exec (.mov .word (.reg .r4) (.absolute (s.reg .pc + 4))) s = .next t ∧
      decode (s.reg .r4) (t.word (s.reg .pc + 6)) (t.word (s.reg .pc + 8)) = .ok i :=
  ⟨machine 0xFFFC [0x4482, 0x0000] [(.r4, 0x4303)], _, .mov .word (.reg .cg) (.reg .cg), by decide, by decide, by decide, rfl, rfl⟩

theorem witness_ConstructionPlacesTheImage :
    ([] : List Byte).length ≤ 65536 ∧ 65536 < (List.replicate 65537 (0 : Byte)).length ∧
      (List.replicate 65536 (1 : Byte)).length ≤ 65536 := by
  simp only [List.length_replicate]; simp

theorem witness_HostAccessorsTouchTheirBytes :
    sample.mem.wf = true ∧ (0x8A02 : Word) ≠ 0x8A00 ∧ (0x8A02 : Word) ≠ 0x8A01 ∧ (0x8A01 : Word) ≠ 0x8A02 ∧ 2399 < 2400 := by decide

/-- The ends of the rows of registers; a folded and an unfolded immediate; a zero and a nonzero index. -/
theorem witness_EncodedOperandsDecodeAsMeant :
    sample.reg .cg = 0 ∧ Reg.sp.sourceBase = true ∧ Reg.r15.sourceBase = true ∧ Reg.cg.destBase = true ∧ (1 : Word) ≠ 0 ∧
      (Toolchain.Operand.immediate (.num 8)).normalise.asSource.ext = none ∧
      (Toolchain.Operand.immediate (.num 9)).normalise.asSource.ext = some (.num 9) ∧
      (Toolchain.Operand.indexed .r4 0).normalise.asSource.ext = none ∧
      (Toolchain.Operand.indexed .r4 1).normalise.asSource.ext = some (.num 1) := by decide

/-- A jump word at byte offset `n`, with nothing before it. -/
def jumpAt (cond : JumpCond) (n : Nat) : List Byte := List.replicate n 0 ++ wordBytes (jumpWord (Toolchain.condCode cond) 0)

/-- Every condition and every offset, the odd ones included. -/
theorem witness_RelocatedJumpReachesItsLabel (cond : JumpCond) (n : Nat) :
    n + 2 ≤ (jumpAt cond n).length ∧ wordAt (jumpAt cond n) n = jumpWord (Toolchain.condCode cond) 0 := by
  refine ⟨by simp [jumpAt, wordBytes], ?_⟩
  simp only [wordAt, jumpAt, wordBytes, List.getD_eq_getElem?_getD]
  rw [List.getElem?_append_right (by simp), List.getElem?_append_right (by simp)]
  simp only [List.length_replicate, Nat.sub_self, Nat.add_sub_cancel_left]
  cases cond <;> rfl

/-- A label without a table value; an odd displacement; one word past each bound; and both bounds, with a state at the jump
where its condition holds. -/
theorem witness_RelocatedJumpReachesItsLabel_labels :
    ([] : List (Toolchain.Label × Nat)).lookup .main = none ∧ [(Toolchain.Label.main, 7)].lookup .main = some 7 ∧
      ((7 : Int) - 6) % 2 ≠ 0 ∧ (1022 : Int) < 1030 - 6 ∧ (2 : Int) - 1028 < -1024 ∧
      (((1028 : Int) - 6) % 2 = 0 ∧ (1028 : Int) - 6 ≤ 1022 ∧ (machine 6 []).reg .pc = BitVec.ofNat 16 6 ∧
        BitVec.ofNat 16 1028 ≠ 0 ∧ JumpCond.always.holds (machine 6 []) = true) ∧
      ((2 : Int) - 1026) % 2 = 0 ∧ (-1024 : Int) ≤ 2 - 1026 ∧ (machine 1026 [] [(.sr, 2)]).reg .pc = BitVec.ofNat 16 1026 ∧
        BitVec.ofNat 16 2 ≠ 0 ∧ JumpCond.eq.holds (machine 1026 [] [(.sr, 2)]) = true := by decide

/-- `main` as a code label, after other lines; and as a global's label. -/
theorem witness_EveryImageBeginsWithTheBootstrap :
    (∃ image, Toolchain.assemble { bootSp := 0x8000 } []
      ([.jump .always .main] ++ .label .main :: [.jump .always .main]) = .ok image) ∧
      ∃ image, Toolchain.assemble { bootSp := 0x8000 } [{ label := .main, data := [0x03, 0x43] }] [] = .ok image :=
  ⟨⟨_, rfl⟩, ⟨_, rfl⟩⟩

theorem witness_BootstrapRunsToMain :
    ∃ s, construct [0x31, 0x40, 0x00, 0x80, 0x02, 0x3C] = some s ∧ wordAt [0x31, 0x40, 0x00, 0x80, 0x02, 0x3C] 0 = 0x4031 ∧
      wordAt [0x31, 0x40, 0x00, 0x80, 0x02, 0x3C] 2 = 0x8000 ∧
      wordAt [0x31, 0x40, 0x00, 0x80, 0x02, 0x3C] 4 = BitVec.ofNat 16 (0x3C00 + (2 : BitVec 10).toNat) ∧
      (4 : Word) + BitVec.ofInt 16 (2 * (2 : BitVec 10).toInt) ≠ 0 := ⟨_, rfl, by decide⟩

/-- Two label operands; an operand without a word; and the bounds of a jump. -/
theorem witness_EmittedLinesDecodeAsMeant :
    let labels := [(Toolchain.Label.main, 4), (.named 1, 0xFFFF)];
    let src := Toolchain.Operand.immediate (.label .main);
    ((∃ d, Toolchain.DoubleOp.instr? .xor .byte (decodeSrc 3 .pc 4) (decodeDst 1 .sr 0xFFFF) =
          some (.xor .byte (.immediate 4) (.absolute 0xFFFF)) ∧
        (Toolchain.Operand.absolute (.label (.named 1))).normalise.asDest = .ok d ∧
        ∀ u, d.ext = some u → u.word? labels = some 0xFFFF) ∧
      (∀ k : Word, k ≠ 0 → src ≠ .indexed .cg k) ∧ src ≠ .indirectInc .pc ∧
      ∀ u, src.normalise.asSource.ext = some u → u.word? labels = some 4) ∧
    ((∀ k : Word, k ≠ 0 → Toolchain.Operand.indirect .cg ≠ .indexed .cg k) ∧ Toolchain.Operand.indirect .cg ≠ .indirectInc .pc ∧
      ∀ u, (Toolchain.Operand.indirect .cg).normalise.asSource.ext = some u → u.word? labels = some 0) ∧
    labels.lookup .main = some 4 ∧ ((4 : Int) - 1028 = 2 * -512 ∧ (4 : Int) - 4 = 2 * 0) ∧ (1026 : Int) - 4 = 2 * 511 := by
  refine ⟨⟨⟨_, rfl, rfl, ?_⟩, nofun, nofun, ?_⟩, ⟨nofun, nofun, nofun⟩, rfl, by decide, by decide⟩
  · rintro u ⟨⟩; rfl
  · rintro u ⟨⟩; rfl

end Sys2Proof.Tests
end

section
/-! PROOFS. The family 10_state.md: reset and construction, the flag bits of SR, the registers and flags an instruction may
change, and the invariant that every step and every host operation keeps. -/

namespace Sys2Proof

/-! ## Decoded and well-formed instructions -/

theorem wf_decodeSingle {w0 w1 : Word} {i : Instr} (h : decodeSingle w0 w1 = .ok i) : i.wf = true := by
  simp only [decodeSingle] at h
  split at h
  · cases h
  · split at h
    · cases h; exact wf_decodeSrc _ _ _
    · split at h <;> cases h; exact wf_decodeSrc _ _ _
    · cases h; exact wf_decodeSrc _ _ _
    · split at h <;> cases h; exact wf_decodeSrc _ _ _
    · cases h; exact wf_decodeSrc _ _ _
    · split at h <;> cases h; exact wf_decodeSrc _ _ _
    · cases h; rfl
    · cases h

theorem wf_decodeJump (w0 : Word) : (decodeJump w0).wf = true := by
  simp only [decodeJump]
  split <;> rfl

theorem wf_decodeDouble (w0 w1 w2 : Word) : (decodeDouble w0 w1 w2).wf = true := by
  simp only [decodeDouble]
  split <;> simp [Instr.wf]

/-- The decoder gives well-formed instructions only. -/
theorem wf_of_decode {w0 w1 w2 : Word} {i : Instr} (h : decode w0 w1 w2 = .ok i) : i.wf = true := by
  simp only [decode] at h
  split at h
  · exact wf_decodeSingle h
  · cases h; exact wf_decodeJump w0
  · cases h; exact wf_decodeDouble w0 w1 w2

/-- Table R67 has no `@PC+`, `@SR+` or `@R3+` among its auto-increment rows. -/
theorem SrcOp.sourceBase_of_incReg {o : SrcOp} {r : Reg} (hw : o.wf = true) (h : o.incReg = some r) : r.sourceBase = true := by
  cases o <;> cases h
  exact hw

theorem Instr.wf_of_double {i : Instr} {w : Width} {src : SrcOp} {dst : DstOp} (h : i.double? = some (w, src, dst)) :
    i.wf = (src.wf && dst.wf) := by
  cases i <;> cases h <;> rfl

theorem Instr.wf_of_single {i : Instr} {w : Width} {op : SrcOp} (h : i.single? = some (w, op)) : i.wf = op.wf := by
  cases i <;> cases h <;> rfl

theorem Instr.wf_operand {i : Instr} {o : SrcOp} (hw : i.wf = true) (h : i.operand? = some o) : o.wf = true := by
  simp only [Instr.operand?, Option.or_eq_some_iff, Option.map_eq_some_iff] at h
  obtain ⟨⟨w, src, dst⟩, hdouble, rfl⟩ | ⟨_, ⟨w, op⟩, hsingle, rfl⟩ := h
  · rw [Instr.wf_of_double hdouble, Bool.and_eq_true] at hw
    exact hw.1
  · exact Instr.wf_of_single hsingle ▸ hw

/-- A well-formed instruction auto-increments neither PC, nor SR, nor R3. -/
theorem Instr.sourceBase_of_incReg {i : Instr} {r : Reg} (hw : i.wf = true) (h : i.operand?.bind SrcOp.incReg = some r) :
    r.sourceBase = true := by
  obtain ⟨o, ho, hr⟩ := Option.bind_eq_some_iff.mp h
  exact SrcOp.sourceBase_of_incReg (Instr.wf_operand hw ho) hr

theorem Instr.mayWrite_eq_false_iff {i : Instr} {r : Reg} :
    i.mayWrite r = false ↔ i.destReg ≠ some r ∧ (i.setsFlags = true → r ≠ .sr) ∧
      i.operand?.bind SrcOp.incReg ≠ some r ∧ (i.pushes = true → r ≠ .sp) := by
  simp only [Instr.mayWrite, Bool.or_eq_false_iff, Bool.and_eq_false_imp, decide_eq_false_iff_not, and_assoc, ne_eq]

end Sys2Proof

namespace Sys2Proof.Machine

/-! ## The bits of SR -/

/-- A flag update keeps every bit of SR but C, Z, N and V (R26). -/
theorem getLsbD_apply_of_ne (u : FlagUpdate) (sr : Word) {k : Nat} (hc : k ≠ 0) (hz : k ≠ 1) (hn : k ≠ 2) (hv : k ≠ 8) :
    (u.apply sr).getLsbD k = sr.getLsbD k := by
  simp [getLsbD_apply, bitC, bitZ, bitN, bitV, hc, hz, hn, hv]

/-! ## The registers of one instruction's effect -/

section EffectRegisters

variable {i : Instr} {s : State} {e : Effect} {r : Reg}

/-- The result misses every register but the destination register. -/
theorem EffectOf.resultFor_eq_none (he : EffectOf i s e) (hd : i.destReg ≠ some r) : e.resultFor r = none := by
  rcases hres : e.result with _ | ⟨q | ea, w, v⟩
  · simp only [Effect.resultFor, hres]
  · have hq : q ≠ r := by rintro rfl; exact hd (he.resultReg _ _ _ hres).1
    simp only [Effect.resultFor, hres, if_neg hq]
  · simp only [Effect.resultFor, hres]

/-- Auto-increment adds 0 to every register but the operand's. -/
theorem EffectOf.incFor_eq_zero (he : EffectOf i s e) (hi : i.operand?.bind SrcOp.incReg ≠ some r) : e.incFor r = 0 := by
  rcases hinc : e.autoInc with _ | ⟨q, k⟩
  · simp only [Effect.incFor, hinc]
  · have hq : q ≠ r := by rintro rfl; exact hi (he.autoInc _ _ hinc)
    simp only [Effect.incFor, hinc, if_neg hq]

/-- A register that is neither PC nor the destination register keeps its value after W1 to W3. -/
theorem EffectOf.regAfter_eq_midway (he : EffectOf i s e) (hp : r ≠ .pc) (hd : i.destReg ≠ some r) :
    e.regAfter s r = e.midway s r := by
  simp only [Effect.regAfter, he.resultFor_eq_none hd, if_neg hp, Option.getD_none]

/-- SR, where it is no result, is SR with the flag updates: no form of table R67 auto-increments it. -/
theorem EffectOf.regAfter_sr (he : EffectOf i s e) (hw : i.wf = true) (hd : i.destReg ≠ some .sr) :
    e.regAfter s .sr = e.flags.apply (s.reg .sr) := by
  have hi : e.incFor .sr = 0 := he.incFor_eq_zero fun h => absurd (Instr.sourceBase_of_incReg hw h) (by decide)
  rw [he.regAfter_eq_midway (by decide) hd]
  simp [Effect.midway, hi]

/-- A register the instruction does not name is left as it was. -/
theorem EffectOf.regAfter_of_not_mayWrite (he : EffectOf i s e) (hp : r ≠ .pc) (hm : i.mayWrite r = false) :
    e.regAfter s r = s.reg r := by
  obtain ⟨hd, hflags, hinc, hpush⟩ := Instr.mayWrite_eq_false_iff.mp hm
  have hmid : e.midway s r = s.reg r := by
    rw [Effect.midway, he.incFor_eq_zero hinc]
    split
    · next hr =>
      have hf : i.setsFlags = false := Bool.eq_false_iff.mpr fun hf => hflags hf hr
      subst hr
      simp [he.flags hf]
    · split
      · next hr =>
        have hnone : e.push.isSome = false := Bool.eq_false_iff.mpr fun hsome => hpush (he.pushes hsome) hr
        subst hr
        simp [hnone]
      · simp
  rw [he.regAfter_eq_midway hp hd, hmid]

/-- The only result R3 takes is 0 (R24). -/
theorem EffectOf.resultFor_cg (he : EffectOf i s e) {v : Word} (hv : e.resultFor .cg = some v) : v = 0 := by
  rcases hr : e.result with _ | ⟨q | ea, w, x⟩ <;> simp only [Effect.resultFor, hr] at hv
  · cases hv
  · split at hv
    · next hq => cases hv; exact (he.resultReg _ _ _ hr).2 hq
    · cases hv
  · cases hv

/-- R3 = 0 is kept: no form of table R67 auto-increments R3 either. -/
theorem EffectOf.regAfter_cg (he : EffectOf i s e) (hw : i.wf = true) (hc : s.reg .cg = 0) : e.regAfter s .cg = 0 := by
  have hi : e.incFor .cg = 0 := he.incFor_eq_zero fun h => absurd (Instr.sourceBase_of_incReg hw h) (by decide)
  have hmid : e.midway s .cg = 0 := by simp [Effect.midway, hi, hc]
  simp only [Effect.regAfter, hmid]
  cases hv : e.resultFor .cg with
  | none => rfl
  | some v => exact he.resultFor_cg hv

end EffectRegisters

/-- In a state an instruction leaves, SR is as before or SR with flag updates, none for an instruction that sets no flags. -/
theorem exec_sr {i : Instr} {s t : State} (hw : i.wf = true) (hs : s.mem.wf = true) (h : exec i s = .next t)
    (hd : i.destReg ≠ some .sr) :
    ∃ u : FlagUpdate, (i.setsFlags = false → u = {}) ∧ t.reg .sr = u.apply (s.reg .sr) := by
  rcases exec_cases hs h with ⟨k, _, rfl⟩ | ⟨e, hl, he⟩
  · exact ⟨{}, fun _ => rfl, rfl⟩
  · obtain ⟨_, _, hr, _⟩ := hl
    exact ⟨e.flags, he.flags, (hr .sr).trans (he.regAfter_sr hw hd)⟩

/-! ## What a step can do -/

/-- What a step that answers a next state did: it ran in a state with a clear latch; it took the fault of an odd PC, or, at an
even PC, another fault, or it left the effect of a well-formed instruction. -/
theorem step_cases {s t : State} (hs : s.mem.wf = true) (h : step s = .next t) :
    s.faultLatch = none ∧
      ((oddAddr (s.reg .pc) = true ∧ t = latched .misalignedFetch 0 s) ∨
        (oddAddr (s.reg .pc) = false ∧ ∃ k w0, k ≠ .misalignedFetch ∧ t = latched k w0 s) ∨
        ∃ i e, i.wf = true ∧ Leaves s e t ∧ EffectOf i s e) := by
  have hl : s.faultLatch = none := by
    cases hl : s.faultLatch with
    | none => rfl
    | some record => simp only [step, hl] at h; cases h
  refine ⟨hl, ?_⟩
  rw [step_eq hl] at h
  split at h
  · next ho => cases h; exact .inl ⟨ho, rfl⟩
  · next ho =>
    have ho : oddAddr (s.reg .pc) = false := by simpa using ho
    split at h
    · cases h; exact .inr (.inl ⟨ho, .illegalEncoding, _, nofun, rfl⟩)
    · next i hi =>
      rcases exec_cases hs h with ⟨k, hk, rfl⟩ | ⟨e, hl, he⟩
      · exact .inr (.inl ⟨ho, k, _, hk, rfl⟩)
      · exact .inr (.inr ⟨i, e, wf_of_decode hi, hl, he⟩)

/-! ## The invariant -/

theorem latchMatches_of_none {s : State} (h : s.faultLatch = none) : latchMatches s = true := by
  simp only [latchMatches, h]

/-- MISALIGNED_FETCH with w0 = 0 is the record of an odd PC (R207). -/
theorem latchMatches_latched_odd {s : State} (h : oddAddr (s.reg .pc) = true) :
    latchMatches (latched .misalignedFetch 0 s) = true := by
  simp [latchMatches, latched, h]

/-- Every other fault is recorded at an even PC. -/
theorem latchMatches_latched_even {s : State} {k : FaultKind} (w0 : Word) (h : oddAddr (s.reg .pc) = false)
    (hk : k ≠ .misalignedFetch) : latchMatches (latched k w0 s) = true := by
  simp [latchMatches, latched, h, hk]

theorem step_keeps_inv {s t : State} (hs : s.Inv) (h : step s = .next t) : t.Inv := by
  obtain ⟨hmem, hcg, _⟩ := hs
  obtain ⟨hlatch, ⟨hodd, rfl⟩ | ⟨heven, k, w0, hk, rfl⟩ | ⟨i, e, hw, hl, he⟩⟩ := step_cases hmem h
  · exact ⟨hmem, hcg, latchMatches_latched_odd hodd⟩
  · exact ⟨hmem, hcg, latchMatches_latched_even w0 heven hk⟩
  · obtain ⟨htmem, htlatch, hreg, _⟩ := hl
    exact ⟨htmem, (hreg .cg).trans (he.regAfter_cg hw hcg), latchMatches_of_none (htlatch.trans hlatch)⟩

theorem executeOne_keeps_inv {s : State} (hs : s.Inv) : (executeOne s).Inv := by
  rcases executeOne_cases s with ⟨_, h⟩ | h
  · rw [h]; exact hs
  · exact step_keeps_inv hs h

theorem executeN_keeps_inv (k : Nat) {s : State} (hs : s.Inv) : (executeN k s).Inv := by
  induction k generalizing s with
  | zero => exact hs
  | succ k ih =>
    have h1 := executeOne_keeps_inv hs
    simp only [executeN]
    split
    · exact h1
    · exact ih h1

/-- A store by the host touches neither a register nor the latch, so only the canonical form is at stake. -/
theorem writeSwitch_keeps_inv (v : Word) {s : State} (hs : s.Inv) : (writeSwitch v s).Inv :=
  let ⟨hmem, hcg, hlatch⟩ := hs
  ⟨State.wf_setWord hmem _ _, hcg, hlatch⟩

theorem writeButton_keeps_inv (b : Byte) {s : State} (hs : s.Inv) : (writeButton b s).Inv :=
  let ⟨hmem, hcg, hlatch⟩ := hs
  ⟨State.wf_setByte hmem _ _, hcg, hlatch⟩

theorem HostOp.apply_keeps_inv (op : HostOp) {s : State} (hs : s.Inv) : (op.apply s).Inv := by
  cases op with
  | executeOne => exact executeOne_keeps_inv hs
  | executeN k => exact executeN_keeps_inv k hs
  | writeSwitch v => exact writeSwitch_keeps_inv v hs
  | writeButton b => exact writeButton_keeps_inv b hs

theorem HostOp.applyAll_keeps_inv (ops : List HostOp) {s : State} (hs : s.Inv) : (HostOp.applyAll ops s).Inv := by
  induction ops generalizing s with
  | nil => exact hs
  | cons op ops ih => exact ih (op.apply_keeps_inv hs)

/-! ## Reset and construction -/

@[simp] theorem reg_reset (r : Reg) : State.reset.reg r = 0 := by cases r <;> rfl

/-- An image that fits above `a` is placed in canonical form. -/
theorem Memory.wfFrom_ofImage {a : Nat} {bs : List Byte} (h : a + bs.length ≤ Config.memorySize) :
    (Memory.ofImage a bs).wfFrom a = true := by
  induction bs generalizing a with
  | nil => rfl
  | cons b bs ih =>
    rw [List.length_cons] at h
    have hrest : (Memory.ofImage (a + 1) bs).wfFrom (a + 1) = true := ih (by omega)
    simp only [Memory.ofImage]
    split
    · exact Memory.wfFrom_mono hrest (Nat.le_succ a)
    · next hb => simp [Memory.wfFrom, hb, hrest]; omega

/-- Byte `k` of an image placed at `a` is read at `a + k`, and 0 after the image. -/
theorem Memory.read_ofImage {a : Nat} {bs : List Byte} (h : a + bs.length ≤ Config.memorySize) (k : Nat) :
    (Memory.ofImage a bs).read (a + k) = bs.getD k 0 := by
  induction bs generalizing a k with
  | nil => rfl
  | cons b bs ih =>
    rw [List.length_cons] at h
    have hfit : a + 1 + bs.length ≤ Config.memorySize := by omega
    cases k with
    | zero =>
      simp only [Memory.ofImage]
      split
      · next hb => exact (Memory.read_of_lt (Memory.wfFrom_ofImage hfit) (Nat.lt_succ_self a)).trans hb.symm
      · simp [Memory.read]
    | succ k =>
      have hk : (Memory.ofImage (a + 1) bs).read (a + (k + 1)) = bs.getD k 0 := by
        rw [← ih hfit k]; congr 1; omega
      simp only [Memory.ofImage, List.getD_cons_succ]
      split
      · exact hk
      · rw [Memory.read, if_neg (by omega)]; exact hk

theorem construct_eq_some_iff {image : List Byte} {s : State} :
    construct image = some s ↔
      image.length ≤ Config.memorySize ∧ s = { State.reset with mem := Memory.ofImage 0 image } := by
  rw [construct, Option.ite_none_right_eq_some, Option.some_inj, eq_comm (a := s)]

theorem construct_eq_none_iff {image : List Byte} : construct image = none ↔ Config.memorySize < image.length := by
  simp [construct]

/-- A constructed machine holds its image in canonical form, every register 0 and the latch clear (R225). -/
theorem construct_spec {image : List Byte} {s : State} (h : construct image = some s) :
    s.mem.wf = true ∧ (∀ r, s.reg r = 0) ∧ s.faultLatch = none ∧ ∀ a : Word, s.byte a = image.getD a.toNat 0 := by
  obtain ⟨hlen, rfl⟩ := construct_eq_some_iff.mp h
  have hfit : 0 + image.length ≤ Config.memorySize := by omega
  refine ⟨Memory.wfFrom_ofImage hfit, reg_reset, rfl, fun a => ?_⟩
  have hread := Memory.read_ofImage hfit a.toNat
  rwa [Nat.zero_add] at hread

theorem construct_inv {image : List Byte} {s : State} (h : construct image = some s) : s.Inv := by
  obtain ⟨hmem, hreg, hlatch, _⟩ := construct_spec h
  exact ⟨hmem, hreg .cg, latchMatches_of_none hlatch⟩

theorem construct_nil : construct [] = some State.reset := rfl

/-! ## The obligations -/

/-- Settles O43: a step takes a fault with the record its PC calls for, or leaves an effect that keeps R3 at 0. -/
theorem stepKeepsInvariant : Obligations.StepKeepsInvariant :=
  fun _ _ hs h => step_keeps_inv hs h

/-- Settles O44, by the cases of the host's operations and induction on their number. -/
theorem hostRunsKeepInvariant : Obligations.HostRunsKeepInvariant :=
  ⟨fun _ _ h => construct_inv h, fun _ op hs => op.apply_keeps_inv hs, fun _ ops hs => HostOp.applyAll_keeps_inv ops hs⟩

/-- Settles O12, from the bits of SR after W1. -/
theorem flagUpdatesTouchTheirBitsOnly : Obligations.FlagUpdatesTouchTheirBitsOnly := by
  intro u s
  have hsr : (applyFlags u s).reg .sr = u.apply (s.reg .sr) := by rw [reg_applyFlags, if_pos rfl]
  rw [hsr]
  refine ⟨getLsbD_apply _ _ 0, getLsbD_apply _ _ 1, getLsbD_apply _ _ 2, getLsbD_apply _ _ 8, rfl, rfl, rfl, rfl,
    fun k hc hz hn hv => ?_, fun r hr => ?_, byte_applyFlags u s, applyFlags_faultLatch u s⟩
  · exact getLsbD_apply_of_ne u _ hc hz hn hv
  · rw [reg_applyFlags, if_neg hr]

/-- Settles O45: a fault changes no register, and an effect only those the instruction names. -/
theorem onlyNamedRegistersChange : Obligations.OnlyNamedRegistersChange := by
  intro i s t r _ hs h hp hm
  rcases exec_cases hs h with ⟨k, _, rfl⟩ | ⟨e, ⟨_, _, hr, _⟩, he⟩
  · rfl
  · exact (hr r).trans (he.regAfter_of_not_mayWrite hp hm)

/-- Settles O47: SR after the instruction is SR with the flag updates. -/
theorem onlyNamedFlagsChange : Obligations.OnlyNamedFlagsChange := by
  intro i s t hw hs h hd
  obtain ⟨u, hu, hsr⟩ := exec_sr hw hs h hd
  rw [hsr]
  refine ⟨fun k hc hz hn hv => ?_, fun hf => ?_⟩
  · exact getLsbD_apply_of_ne u _ hc hz hn hv
  · rw [hu hf, apply_none]

/-- Settles O53: an image is refused exactly where it is longer than the memory, and is placed byte by byte otherwise. -/
theorem constructionPlacesTheImage : Obligations.ConstructionPlacesTheImage := by
  intro image
  refine ⟨construct_eq_none_iff.mpr, fun hlen => ?_⟩
  have h := construct_eq_some_iff.mpr ⟨hlen, rfl⟩
  exact ⟨_, h, construct_spec h⟩

/-- Settles O42: reset is construction from the empty image. -/
theorem resetMeetsInvariant : Obligations.ResetMeetsInvariant := construct_inv construct_nil

/-- Settles O52: reset is construction from the empty image, in which every byte lies past the image. -/
theorem resetLeavesZeros : Obligations.ResetLeavesZeros := by
  obtain ⟨_, hreg, hlatch, hbyte⟩ := construct_spec construct_nil
  exact ⟨hreg, hbyte, hlatch, construct_nil, rfl⟩

end Sys2Proof.Machine
end

section
/-! PROOFS. The family 20_memory.md: words and bytes read back after they are written, by data reads and by fetch, the operands
that fault, the bytes an instruction may change, and the host's accessors. -/

namespace Sys2Proof.Machine

/-! ## Bytes and words -/

/-- A zero-extended low byte is v mod 256. -/
theorem setWidth_lowByte (v : Word) : (lowByte v).setWidth 16 = BitVec.ofNat 16 (v.toNat % 256) := by
  apply BitVec.eq_of_toNat_eq
  simp [lowByte]

/-- A zero-extended high byte is v / 256. -/
theorem setWidth_highByte (v : Word) : (highByte v).setWidth 16 = BitVec.ofNat 16 (v.toNat / 256) := by
  have hv := v.isLt
  apply BitVec.eq_of_toNat_eq
  simp only [highByte, BitVec.toNat_setWidth, BitVec.extractLsb'_toNat, Nat.shiftRight_eq_div_pow, BitVec.toNat_ofNat]
  omega

theorem oddAddr_eq_false_iff {a : Word} : oddAddr a = false ↔ a.toNat % 2 = 0 := by
  rw [oddAddr_eq_decide, decide_eq_false_iff_not, Nat.mod_two_not_eq_one]

/-- Only a word access can be misaligned, and is at an odd address (R43). -/
theorem misaligned_eq_true_iff {w : Width} {a : Word} : misaligned w a = true ↔ w = .word ∧ a.toNat % 2 = 1 := by
  cases w
  · simp [oddAddr_eq_decide]
  · simp

section Stores

variable {s : State} (hs : s.mem.wf = true)
include hs

theorem State.byte_setByte_of_ne {a c : Word} (b : Byte) (h : c ≠ a) : (s.setByte a b).byte c = s.byte c := by
  rw [State.byte_setByte hs, if_neg h]

theorem State.byte_setWord_low (a v : Word) : (s.setWord a v).byte a = lowByte v := by
  rw [State.byte_setWord hs, if_pos rfl]

theorem State.byte_setWord_high (a v : Word) : (s.setWord a v).byte (a + 1) = highByte v := by
  rw [State.byte_setWord hs, if_neg (word_ne_succ a).symm, if_pos rfl]

theorem State.byte_setWord_of_ne {a c : Word} (v : Word) (h0 : c ≠ a) (h1 : c ≠ a + 1) : (s.setWord a v).byte c = s.byte c := by
  rw [State.byte_setWord hs, if_neg h0, if_neg h1]

end Stores

theorem memRead_byte (a : Word) (s : State) : memRead .byte a s = .ok ((s.byte a).setWidth 16) := rfl

/-- Stage 0 at an even PC: the word at PC and the two after it (R101). -/
theorem fetch_of_even {s : State} (h : oddAddr (s.reg .pc) = false) :
    fetch s = .ok (s.word (s.reg .pc), s.word (s.reg .pc + 2), s.word (s.reg .pc + 4)) := by
  simp [fetch, h]

/-! ## Sequences of byte writes -/

/-- Byte writes in order, the first of the list first. -/
def writeBytes (s : State) (writes : List (Word × Byte)) : State := writes.foldl (fun u p => u.setByte p.1 p.2) s

@[simp] theorem writeBytes_nil (s : State) : writeBytes s [] = s := rfl

@[simp] theorem writeBytes_cons (s : State) (p : Word × Byte) (ps : List (Word × Byte)) :
    writeBytes s (p :: ps) = writeBytes (s.setByte p.1 p.2) ps := rfl

theorem writeBytes_append (s : State) (ps qs : List (Word × Byte)) : writeBytes s (ps ++ qs) = writeBytes (writeBytes s ps) qs :=
  List.foldl_append

theorem wf_writeBytes {s : State} (hs : s.mem.wf = true) (ps : List (Word × Byte)) : (writeBytes s ps).mem.wf = true := by
  induction ps generalizing s with
  | nil => exact hs
  | cons p ps ih => exact ih (State.wf_setByte hs _ _)

/-- A byte that no write of the sequence names is unchanged. -/
theorem byte_writeBytes_of_ne {s : State} (hs : s.mem.wf = true) {ps : List (Word × Byte)} {a : Word} (h : ∀ p ∈ ps, p.1 ≠ a) :
    (writeBytes s ps).byte a = s.byte a := by
  induction ps generalizing s with
  | nil => rfl
  | cons p ps ih =>
    obtain ⟨hp, hps⟩ := List.forall_mem_cons.mp h
    rw [writeBytes_cons, ih (State.wf_setByte hs _ _) hps, State.byte_setByte_of_ne hs _ hp.symm]

/-! ## Operands that fault -/

theorem resolveSrc_of_misaligned {w : Width} {o : SrcOp} {s : State} {ea : Word} (ha : srcAddr o s = some ea)
    (hm : misaligned w ea = true) : resolveSrc w o s = .error .misalignedAccess := by
  have hsource : ∀ usesExt inc, memSource w ea usesExt inc s = .error .misalignedAccess := fun _ _ => by
    simp only [memSource, memRead_of_misaligned s hm]
  cases o <;> cases ha <;> exact hsource _ _

theorem resolveDst_of_misaligned {w : Width} {o : DstOp} {s : State} {ea : Word} (ha : dstAddr o s = some ea)
    (hm : misaligned w ea = true) : resolveDst w o s = .error .misalignedAccess := by
  have hdest : memDest w ea s = .error .misalignedAccess := by simp only [memDest, memRead_of_misaligned s hm]
  cases o <;> cases ha <;> exact hdest

theorem resolveSrc_eq_error_iff {w : Width} {o : SrcOp} {s : State} {k : FaultKind} :
    resolveSrc w o s = .error k ↔
      (k = .unsupportedAddressing ∧ ((∃ x, o = .symbolic x) ∨ o = .indirectPc)) ∨
      (k = .misalignedAccess ∧ ∃ ea, srcAddr o s = some ea ∧ misaligned w ea = true) := by
  refine ⟨resolveSrc_error, ?_⟩
  rintro (⟨rfl, ⟨x, rfl⟩ | rfl⟩ | ⟨rfl, ea, ha, hm⟩)
  · rfl
  · rfl
  · exact resolveSrc_of_misaligned ha hm

theorem resolveDst_eq_error_iff {w : Width} {o : DstOp} {s : State} {k : FaultKind} :
    resolveDst w o s = .error k ↔
      (k = .unsupportedAddressing ∧ ∃ x, o = .symbolic x) ∨
      (k = .misalignedAccess ∧ ∃ ea, dstAddr o s = some ea ∧ misaligned w ea = true) := by
  refine ⟨resolveDst_error, ?_⟩
  rintro (⟨rfl, x, rfl⟩ | ⟨rfl, ea, ha, hm⟩)
  · rfl
  · exact resolveDst_of_misaligned ha hm

/-- An absolute word destination at an even address resolves to its word (R115). -/
theorem resolveDst_absolute_of_even {a : Word} (s : State) (h : oddAddr a = false) :
    resolveDst .word (.absolute a) s = .ok { loc := .mem a, val := s.word a, usesExt := true } := by
  simp only [resolveDst, memDest, memRead_of_aligned s (w := .word) h]
  rfl

/-! ## The bytes of one instruction's effect -/

theorem storedByte_eq_none {w : Width} {ea v a : Word} (h : inStore w ea a = false) : storedByte w ea v a = none := by
  cases w <;> simp_all [inStore, storedByte]

section EffectBytes

variable {i : Instr} {s t : State} {e : Effect} {a : Word}

/-- A byte outside the instruction's store is neither the result's nor the stack write's. -/
theorem EffectOf.byteAfter_eq (he : EffectOf i s e) (h : ∀ w ea, i.store? s = some (w, ea) → inStore w ea a = false) :
    e.byteAfter s a = s.byte a := by
  have hresult : e.resultByte a = none := by
    rcases hr : e.result with _ | ⟨q | ea, w, v⟩ <;> simp only [Effect.resultByte, hr]
    exact storedByte_eq_none (h _ _ (he.resultMem _ _ _ hr).1)
  have hstack : e.stackByte s a = none := by
    rcases hp : e.push with _ | ⟨w, v⟩ <;> simp only [Effect.stackByte, hp]
    exact storedByte_eq_none (h _ _ (he.pushAt _ _ hp).1)
  rw [Effect.byteAfter, hresult, hstack, Option.getD_none, Option.getD_none]

/-- A word result is read back as it was written. -/
theorem Leaves.word_of_result {ea v : Word} (hl : Leaves s e t) (hr : e.result = some (.mem ea, .word, v)) : t.word ea = v := by
  obtain ⟨_, _, _, hb⟩ := hl
  have hlow : t.byte ea = lowByte v := by
    rw [hb, Effect.byteAfter]
    simp [Effect.resultByte, hr, storedByte]
  have hhigh : t.byte (ea + 1) = highByte v := by
    rw [hb, Effect.byteAfter]
    simp [Effect.resultByte, hr, storedByte]
  rw [State.word, hlow, hhigh, wordOfBytes_low_high]

end EffectBytes

/-! ## Every instruction's outcome -/

/-- Every instruction does what `outcome` names, in a state with R3 = 0: each shape meets its own outcome. -/
theorem exec_meets_outcome (i : Instr) {s : State} (hs : s.mem.wf = true) (hc : s.reg .cg = 0) :
    Meets s i.firstWord (outcome i s) (exec i s) := by
  cases i with
  | mov w src dst => exact runDouble_toDest_meets (alu := fun _ v => { value := v, flags := {} }) _ hs
  | add w src dst => exact runDouble_toDest_meets (alu := fun d v => addW w d v false) _ hs
  | addc w src dst => exact runDouble_toDest_meets (alu := fun d v => addW w d v s.flagC) _ hs
  | subc w src dst => exact runDouble_toDest_meets (alu := fun d v => subW w d v (!s.flagC)) _ hs
  | sub w src dst => exact runDouble_toDest_meets (alu := fun d v => subW w d v false) _ hs
  | bic w src dst => exact runDouble_toDest_meets (alu := bicW w) _ hs
  | bis w src dst => exact runDouble_toDest_meets (alu := bisW) _ hs
  | xor w src dst => exact runDouble_toDest_meets (alu := xorW w) _ hs
  | and w src dst => exact runDouble_toDest_meets (alu := andW w) _ hs
  | cmp w src dst => exact runDouble_flagsOnly_meets (alu := fun d v => subW w d v false) _ hs
  | bit w src dst => exact runDouble_flagsOnly_meets (alu := andW w) _ hs
  | dadd fields => rfl
  | reti low => rfl
  | rrc w op => exact runSingle_meets (alu := fun v => rrcW w v s.flagC) _ hs
  | swpb op => exact runSingle_meets (alu := swpbW) _ hs
  | rra w op => exact runSingle_meets (alu := rraW w) _ hs
  | sxt op => exact runSingle_meets (alu := sxtW) _ hs
  | push w op => exact push_meets hs hc
  | call op => exact call_meets hs
  | jne offset => exact runJump_meets _ .ne offset hs
  | jeq offset => exact runJump_meets _ .eq offset hs
  | jnc offset => exact runJump_meets _ .nc offset hs
  | jc offset => exact runJump_meets _ .c offset hs
  | jn offset => exact runJump_meets _ .n offset hs
  | jge offset => exact runJump_meets _ .ge offset hs
  | jl offset => exact runJump_meets _ .l offset hs
  | jmp offset => exact runJump_meets _ .always offset hs

/-! ## A store that the next step fetches -/

/-- A running machine at an even PC runs the instruction its three words decode to (R130). -/
theorem step_of_decode {s : State} {i : Instr} (hl : s.faultLatch = none) (ho : oddAddr (s.reg .pc) = false)
    (hd : decode (s.word (s.reg .pc)) (s.word (s.reg .pc + 2)) (s.word (s.reg .pc + 4)) = .ok i) : step s = exec i s := by
  rw [step_eq hl, ho, hd]
  rfl

theorem oddAddr_add_four (a : Word) : oddAddr (a + 4) = oddAddr a := by
  have hsum : (a + 4).toNat = (a.toNat + 4) % 65536 := BitVec.toNat_add a 4
  rw [oddAddr_eq_decide, oddAddr_eq_decide, hsum]
  exact decide_eq_decide.mpr (by omega)

/-- The effect of `MOV Rn,&a`. -/
def movAbsoluteEffect (a v : Word) : Effect := { extWords := 1, result := some (.mem a, .word, v) }

/-- `MOV Rn,&a` at an even address completes with the store alone (R180). -/
theorem exec_mov_reg_absolute {s : State} (hs : s.mem.wf = true) (r : Reg) {a : Word} (ha : oddAddr a = false) :
    ∃ t, exec (.mov .word (.reg r) (.absolute a)) s = .next t ∧ Leaves s (movAbsoluteEffect a (s.reg r)) t := by
  have hsrc : resolveSrc .word (.reg r) s = .ok { loc := some (.reg r), val := s.reg r, usesExt := false, autoInc := none } := rfl
  have hdst := resolveDst_absolute_of_even s ha
  exact runDouble_toDest (alu := fun sv _ => { value := sv.val, flags := {} }) hs hsrc hdst nofun

theorem movAbsoluteEffect_pc (a v : Word) (s : State) : (movAbsoluteEffect a v).regAfter s .pc = s.reg .pc + 4 := by
  simp [movAbsoluteEffect, Effect.regAfter, Effect.resultFor, Effect.midway, Effect.incFor]

/-! ## The host's accessors -/

/-- Byte `k` of what the framebuffer accessor returns (R218). -/
theorem getElem?_readFramebuffer (s : State) {k : Nat} (hk : k < 2400) :
    (readFramebuffer s)[k]? = some (s.byte (BitVec.ofNat 16 (0x8000 + k))) := by
  have hk : k < Config.framebufferSize := hk
  rw [readFramebuffer, List.getElem?_map, List.getElem?_range hk, Option.map_some, BitVec.ofNat_add]
  rfl

/-! ## The obligations -/

/-- Settles O9: the two ways an operand faults, with the misaligned access spelled out. -/
theorem operandsFaultExactlyWhere : Obligations.OperandsFaultExactlyWhere := by
  intro w s k
  refine ⟨fun src => ?_, fun dst => ?_⟩
  · simp only [resolveSrc_eq_error_iff, misaligned_eq_true_iff, and_left_comm (b := w = .word), exists_and_left]
  · simp only [resolveDst_eq_error_iff, misaligned_eq_true_iff, and_left_comm (b := w = .word), exists_and_left]

/-- Settles O10, from the two bytes of a stored word. -/
theorem wordStoreIsLittleEndian : Obligations.WordStoreIsLittleEndian := by
  intro s a v hs ha
  have hal : misaligned .word a = false := oddAddr_eq_false_iff.mpr ha
  have hword : (s.setWord a v).word a = v := State.word_setWord_self hs a v
  refine ⟨s.setWord a v, memWrite_of_aligned v s hal, ?_, ?_, ?_, fun hpc => ?_,
    fun b h0 h1 => State.byte_setWord_of_ne hs v h0 h1, State.reg_setWord s a v⟩
  · rw [memRead_of_aligned _ hal]
    exact congrArg _ hword
  · rw [memRead_byte, State.byte_setWord_low hs, setWidth_lowByte]
  · rw [memRead_byte, State.byte_setWord_high hs, setWidth_highByte]
  · have hpc : (s.setWord a v).reg .pc = a := hpc
    have hfetch := fetch_of_even (s := s.setWord a v) (hpc.symm ▸ hal)
    rw [hpc, hword] at hfetch
    exact ⟨_, _, hfetch⟩

/-- Settles O11: the writes before `(a, b)` only make a state in canonical form, those after it miss `a`. -/
theorem readReturnsTheMostRecentWrite : Obligations.ReadReturnsTheMostRecentWrite := by
  intro s before a b after hs hafter
  refine ⟨?_, byte_writeBytes_of_ne hs hafter⟩
  change (writeBytes s (before ++ (a, b) :: after)).byte a = b
  have hu := wf_writeBytes hs before
  rw [writeBytes_append, writeBytes_cons, byte_writeBytes_of_ne (State.wf_setByte hu a b) hafter, State.byte_setByte hu, if_pos rfl]

/-- Settles O37: the outcome of each shape of instruction is what that shape does. -/
theorem execIsAllOrNothing : Obligations.ExecIsAllOrNothing := by
  intro i s hs hc
  have hm := exec_meets_outcome i hs hc
  refine ⟨fun k hk => ?_, fun e he => ?_⟩
  · rwa [hk] at hm
  · rw [he] at hm
    obtain ⟨t, ht, hl⟩ := hm
    exact completes_of_leaves ht hl

/-- Settles O46: a fault changes no byte, and an effect only those of the instruction's store. -/
theorem onlyStoredBytesChange : Obligations.OnlyStoredBytesChange := by
  intro i s t a _ hs h ha
  rcases exec_cases hs h with ⟨k, _, rfl⟩ | ⟨e, ⟨_, _, _, hb⟩, he⟩
  · rfl
  · exact (hb a).trans (he.byteAfter_eq ha)

/-- Settles O51: the MOV stores the word at its own PC + 4, where the next step fetches. -/
theorem storeIsSeenByTheNextFetch : Obligations.StoreIsSeenByTheNextFetch := by
  intro s hs hlatch heven
  have hodd : oddAddr (s.reg .pc + 4) = false := by rw [oddAddr_add_four, oddAddr_eq_false_iff, heven]
  obtain ⟨t, ht, hl⟩ := exec_mov_reg_absolute hs .r4 hodd
  have hword : t.word (s.reg .pc + 4) = s.reg .r4 := hl.word_of_result rfl
  obtain ⟨_, htlatch, hreg, _⟩ := hl
  have hpc : t.reg .pc = s.reg .pc + 4 := (hreg .pc).trans (movAbsoluteEffect_pc _ _ _)
  refine ⟨t, ht, hpc, fun i hi => step_of_decode (htlatch.trans hlatch) (hpc ▸ hodd) ?_⟩
  rw [hpc, hword, BitVec.add_assoc, BitVec.add_assoc]
  exact hi

/-- Settles O55: the switch accessor is a word store, the button accessor a byte store, and the others only read. -/
theorem hostAccessorsTouchTheirBytes : Obligations.HostAccessorsTouchTheirBytes := by
  intro s v b hs
  refine ⟨State.word_setWord_self hs _ v, fun a => State.byte_setWord_of_ne hs v, fun _ => rfl, rfl, ?_,
    fun a => State.byte_setByte_of_ne hs b, fun _ => rfl, rfl, rfl, ?_, fun k => getElem?_readFramebuffer s⟩
  · exact (State.byte_setByte hs _ b _).trans (if_pos rfl)
  · rw [readFramebuffer, List.length_map, List.length_range]
    rfl

end Sys2Proof.Machine
end

section
/-! PROOFS. The family 30_encoding.md: what three words decode to, by shape (`Decoded`), from which the family, the length, the
illegal words and both directions of encoding follow; and the encoder's operands, jumps, bootstrap and lines. -/

namespace Sys2Proof

open Machine (JumpCond)
open Toolchain (DoubleOp SingleOp condCode)

/-! ## The five shapes of an instruction -/

/-- An instruction is that of a double-operand mnemonic, of a single-operand mnemonic or of a jump condition, or
DADD, or RETI. -/
theorem Instr.exists_shape (i : Instr) :
    (∃ (op : DoubleOp) (w : Width) (src : SrcOp) (dst : DstOp), op.instr? w src dst = some i) ∨
      (∃ (op : SingleOp) (o : SrcOp), i = op.instr o) ∨ (∃ (cond : JumpCond) (offset : BitVec 10), i = cond.instr offset) ∨
      (∃ fields, i = .dadd fields) ∨ ∃ low, i = .reti low := by
  cases i with
  | mov w src dst => exact .inl ⟨.mov, w, src, dst, rfl⟩
  | add w src dst => exact .inl ⟨.add, w, src, dst, rfl⟩
  | addc w src dst => exact .inl ⟨.addc, w, src, dst, rfl⟩
  | subc w src dst => exact .inl ⟨.subc, w, src, dst, rfl⟩
  | sub w src dst => exact .inl ⟨.sub, w, src, dst, rfl⟩
  | cmp w src dst => exact .inl ⟨.cmp, w, src, dst, rfl⟩
  | bit w src dst => exact .inl ⟨.bit, w, src, dst, rfl⟩
  | bic w src dst => exact .inl ⟨.bic, w, src, dst, rfl⟩
  | bis w src dst => exact .inl ⟨.bis, w, src, dst, rfl⟩
  | xor w src dst => exact .inl ⟨.xor, w, src, dst, rfl⟩
  | and w src dst => exact .inl ⟨.and, w, src, dst, rfl⟩
  | rrc w o => exact .inr (.inl ⟨.rrc w, o, rfl⟩)
  | swpb o => exact .inr (.inl ⟨.swpb, o, rfl⟩)
  | rra w o => exact .inr (.inl ⟨.rra w, o, rfl⟩)
  | sxt o => exact .inr (.inl ⟨.sxt, o, rfl⟩)
  | push w o => exact .inr (.inl ⟨.push w, o, rfl⟩)
  | call o => exact .inr (.inl ⟨.call, o, rfl⟩)
  | jne offset => exact .inr (.inr (.inl ⟨.ne, offset, rfl⟩))
  | jeq offset => exact .inr (.inr (.inl ⟨.eq, offset, rfl⟩))
  | jnc offset => exact .inr (.inr (.inl ⟨.nc, offset, rfl⟩))
  | jc offset => exact .inr (.inr (.inl ⟨.c, offset, rfl⟩))
  | jn offset => exact .inr (.inr (.inl ⟨.n, offset, rfl⟩))
  | jge offset => exact .inr (.inr (.inl ⟨.ge, offset, rfl⟩))
  | jl offset => exact .inr (.inr (.inl ⟨.l, offset, rfl⟩))
  | jmp offset => exact .inr (.inr (.inl ⟨.always, offset, rfl⟩))
  | dadd fields => exact .inr (.inr (.inr (.inl ⟨fields, rfl⟩)))
  | reti low => exact .inr (.inr (.inr (.inr ⟨low, rfl⟩)))

section DoubleShape

variable {op : DoubleOp} {w : Width} {src : SrcOp} {dst : DstOp} {i : Instr}

/-- The opcode number and the first word of a double-operand mnemonic's instruction (R63). -/
theorem Toolchain.DoubleOp.firstWord_of_instr? (h : op.instr? w src dst = some i) :
    ∃ c, op.code = .ok c ∧ i.firstWord = doubleFirst c w src dst := by
  cases op <;> cases h <;> exact ⟨_, rfl, rfl⟩

theorem Toolchain.DoubleOp.double?_of_instr? (h : op.instr? w src dst = some i) : i.double? = some (w, src, dst) := by
  cases op <;> cases h <;> rfl

theorem Instr.extWords_of_double? (h : i.double? = some (w, src, dst)) : i.extWords = src.ext.toList ++ dst.ext.toList := by
  cases i <;> cases h <;> rfl

theorem Instr.extWords_of_single? {o : SrcOp} (h : i.single? = some (w, o)) : i.extWords = o.ext.toList := by
  cases i <;> cases h <;> rfl

theorem Instr.single?_of_double? (h : i.double? = some (w, src, dst)) : i.single? = none := by
  cases i <;> cases h <;> rfl

theorem Instr.family_of_double? (h : i.double? = some (w, src, dst)) : i.family = .doubleOperand := by
  cases i <;> cases h <;> rfl

/-- The opcode numbers of the mnemonics that the encoder emits (R66). -/
theorem Toolchain.DoubleOp.four_le_code {c : BitVec 4} (h : op.code = .ok c) : 4 ≤ c.toNat := by
  cases op <;> cases h <;> decide

theorem Toolchain.DoubleOp.exists_instr {c : BitVec 4} (h : op.code = .ok c) (w : Width) (src : SrcOp) (dst : DstOp) :
    ∃ i, op.instr? w src dst = some i := by
  cases op <;> cases h <;> exact ⟨_, rfl⟩

/-- Each opcode number from 4 on but DADD's is a mnemonic's. -/
theorem Toolchain.DoubleOp.exists_code {c : BitVec 4} (h : 4 ≤ c.toNat) : c = 0xA ∨ ∃ op : DoubleOp, op.code = .ok c := by
  have hc : c = 4 ∨ c = 5 ∨ c = 6 ∨ c = 7 ∨ c = 8 ∨ c = 9 ∨ c = 0xA ∨ c = 0xB ∨ c = 0xC ∨ c = 0xD ∨ c = 0xE ∨ c = 0xF := by
    revert c; decide
  rcases hc with rfl | rfl | rfl | rfl | rfl | rfl | rfl | rfl | rfl | rfl | rfl | rfl
  · exact .inr ⟨.mov, rfl⟩
  · exact .inr ⟨.add, rfl⟩
  · exact .inr ⟨.addc, rfl⟩
  · exact .inr ⟨.subc, rfl⟩
  · exact .inr ⟨.sub, rfl⟩
  · exact .inr ⟨.cmp, rfl⟩
  · exact .inl rfl
  · exact .inr ⟨.bit, rfl⟩
  · exact .inr ⟨.bic, rfl⟩
  · exact .inr ⟨.bis, rfl⟩
  · exact .inr ⟨.xor, rfl⟩
  · exact .inr ⟨.and, rfl⟩

end DoubleShape

section SingleShape

variable (op : SingleOp) (o : SrcOp)

@[simp] theorem Toolchain.SingleOp.firstWord_instr :
    (op.instr o).firstWord = singleWord op.code.1 op.code.2 o.fields.1 o.fields.2.code := by
  cases op <;> rfl

@[simp] theorem Toolchain.SingleOp.extWords_instr : (op.instr o).extWords = o.ext.toList := by cases op <;> rfl

@[simp] theorem Toolchain.SingleOp.wf_instr : (op.instr o).wf = o.wf := by cases op <;> rfl

@[simp] theorem Toolchain.SingleOp.double?_instr : (op.instr o).double? = none := by cases op <;> rfl

theorem Toolchain.SingleOp.single?_instr : ∃ w, (op.instr o).single? = some (w, o) := by cases op <;> exact ⟨_, rfl⟩

@[simp] theorem Toolchain.SingleOp.family_instr : (op.instr o).family = .singleOrNoOperand := by cases op <;> rfl

/-- The opcode numbers with an operand, and where they have a byte form (R66, R72). -/
theorem Toolchain.SingleOp.code_spec :
    op.code.1.toNat ≤ 5 ∧ (op.code.2.toNat = 1 → op.code.1.toNat ≠ 1 ∧ op.code.1.toNat ≠ 3 ∧ op.code.1.toNat ≠ 5) := by
  cases op with
  | rrc w => cases w <;> decide
  | rra w => cases w <;> decide
  | push w => cases w <;> decide
  | swpb => decide
  | sxt => decide
  | call => decide

end SingleShape

section JumpShape

variable (cond : JumpCond) (offset : BitVec 10)

@[simp] theorem Machine.JumpCond.firstWord_instr : (cond.instr offset).firstWord = jumpWord (condCode cond) offset := by
  cases cond <;> rfl

@[simp] theorem Machine.JumpCond.extWords_instr : (cond.instr offset).extWords = [] := by cases cond <;> rfl

@[simp] theorem Machine.JumpCond.wf_instr : (cond.instr offset).wf = true := by cases cond <;> rfl

@[simp] theorem Machine.JumpCond.double?_instr : (cond.instr offset).double? = none := by cases cond <;> rfl

@[simp] theorem Machine.JumpCond.single?_instr : (cond.instr offset).single? = none := by cases cond <;> rfl

@[simp] theorem Machine.JumpCond.family_instr : (cond.instr offset).family = .jump := by cases cond <;> rfl

/-- Each of the eight condition codes is a condition's (R161). -/
theorem Machine.JumpCond.exists_code (c : BitVec 3) : ∃ cond : JumpCond, condCode cond = c := by
  have hc : c = 0 ∨ c = 1 ∨ c = 2 ∨ c = 3 ∨ c = 4 ∨ c = 5 ∨ c = 6 ∨ c = 7 := by revert c; decide
  rcases hc with rfl | rfl | rfl | rfl | rfl | rfl | rfl | rfl
  · exact ⟨.ne, rfl⟩
  · exact ⟨.eq, rfl⟩
  · exact ⟨.nc, rfl⟩
  · exact ⟨.c, rfl⟩
  · exact ⟨.n, rfl⟩
  · exact ⟨.ge, rfl⟩
  · exact ⟨.l, rfl⟩
  · exact ⟨.always, rfl⟩

end JumpShape

/-! ## What decodes to what -/

/-- `i` is the instruction of the three words, by the shape of their first: its fields, and the extension words that the
operands take (R63 to R69). -/
inductive Decoded (w0 w1 w2 : Word) : Instr → Prop where
  | double {op : DoubleOp} {c : BitVec 4} {w : Width} {as : BitVec 2} {sreg : Reg} {ad : BitVec 1} {dreg : Reg} {i : Instr}
      (hc : op.code = .ok c) (hw : w0 = doubleWord c sreg.code ad w.code as dreg.code)
      (hi : op.instr? w (decodeSrc as sreg w1) (decodeDst ad dreg (if (decodeSrc as sreg w1).ext.isSome then w2 else w1)) =
        some i) : Decoded w0 w1 w2 i
  | single {op : SingleOp} {as : BitVec 2} {r : Reg} (hw : w0 = singleWord op.code.1 op.code.2 as r.code) :
      Decoded w0 w1 w2 (op.instr (decodeSrc as r w1))
  | jump {cond : JumpCond} {offset : BitVec 10} (hw : w0 = jumpWord (condCode cond) offset) :
      Decoded w0 w1 w2 (cond.instr offset)
  | dadd {fields : BitVec 12} (hw : w0 = 0xA#4 ++ fields) : Decoded w0 w1 w2 (.dadd fields)
  | reti {low : BitVec 7} (hw : w0 = 0b000100110#9 ++ low) : Decoded w0 w1 w2 (.reti low)

theorem decode_doubleWord {op : DoubleOp} {c : BitVec 4} (hc : op.code = .ok c) (w : Width) (as : BitVec 2) (sreg : Reg)
    (ad : BitVec 1) (dreg : Reg) {w1 w2 : Word} {i : Instr}
    (hi : op.instr? w (decodeSrc as sreg w1) (decodeDst ad dreg (if (decodeSrc as sreg w1).ext.isSome then w2 else w1)) =
      some i) :
    decode (doubleWord c sreg.code ad w.code as dreg.code) w1 w2 = .ok i := by
  obtain ⟨h1, h2, h3, h4, h5, h6⟩ := doubleWord_fields c sreg.code ad w.code as dreg.code
  rw [decode, familyOf_doubleWord _ _ _ _ _ _ (DoubleOp.four_le_code hc)]
  simp only [decodeDouble, h1, h2, h3, h4, h5, h6, Reg.ofCode_code, Width.ofCode_code]
  cases op <;> cases hc <;> cases hi <;> rfl

theorem decode_singleWord (op : SingleOp) (as : BitVec 2) (r : Reg) (w1 w2 : Word) :
    decode (singleWord op.code.1 op.code.2 as r.code) w1 w2 = .ok (op.instr (decodeSrc as r w1)) := by
  obtain ⟨h1, h2, h3, h4, h5⟩ := singleWord_fields op.code.1 op.code.2 as r.code
  rw [decode, familyOf_singleWord]
  simp only [decodeSingle, h1, h2, h3, h4, h5, Reg.ofCode_code]
  cases op with
  | rrc w => cases w <;> rfl
  | rra w => cases w <;> rfl
  | push w => cases w <;> rfl
  | swpb => rfl
  | sxt => rfl
  | call => rfl

theorem decode_jumpWord (cond : JumpCond) (offset : BitVec 10) (w1 w2 : Word) :
    decode (jumpWord (condCode cond) offset) w1 w2 = .ok (cond.instr offset) := by
  obtain ⟨_, h2, h3⟩ := jumpWord_fields (condCode cond) offset
  rw [decode, familyOf_jumpWord]
  simp only [decodeJump, h2, h3]
  cases cond <;> rfl

theorem decode_dadd (fields : BitVec 12) (w1 w2 : Word) : decode (0xA#4 ++ fields) w1 w2 = .ok (.dadd fields) := by
  have hop : (0xA#4 ++ fields : Word).extractLsb' 12 4 = 0xA#4 := by
    rw [extract_append_high _ _ _ (le_refl 12)]; rfl
  have hf : (0xA#4 ++ fields : Word).extractLsb' 0 12 = fields := by
    rw [extract_append_low _ _ _ (le_refl 12), extract_self]
  have hfam : familyOf (0xA#4 ++ fields) = .doubleOperand := Laws.FamilyOfFirstWord.dadd fields
  rw [decode, hfam]
  simp only [decodeDouble, hop, hf]
  rfl

theorem decode_reti (low : BitVec 7) (w1 w2 : Word) : decode (0b000100110#9 ++ low) w1 w2 = .ok (.reti low) := by
  have htag : (0b000100110#9 ++ low : Word).extractLsb' 10 6 = 0b000100#6 := by
    rw [extract_append_high _ _ _ (by decide)]; rfl
  have hop : (0b000100110#9 ++ low : Word).extractLsb' 7 3 = 6#3 := by
    rw [extract_append_high _ _ _ (le_refl 7)]; rfl
  have hf : (0b000100110#9 ++ low : Word).extractLsb' 0 7 = low := by
    rw [extract_append_low _ _ _ (le_refl 7), extract_self]
  have hfam : familyOf (0b000100110#9 ++ low) = .singleOrNoOperand := Laws.FamilyOfFirstWord.reti low
  rw [decode, hfam]
  simp only [decodeSingle, htag, hop, hf]
  rfl

theorem Decoded.decode_eq {w0 w1 w2 : Word} {i : Instr} (h : Decoded w0 w1 w2 i) : decode w0 w1 w2 = .ok i := by
  cases h with
  | double hc hw hi => rw [hw]; exact decode_doubleWord hc _ _ _ _ _ hi
  | single hw => rw [hw]; exact decode_singleWord _ _ _ _ _
  | jump hw => rw [hw]; exact decode_jumpWord _ _ _ _
  | dadd hw => rw [hw]; exact decode_dadd _ _ _
  | reti hw => rw [hw]; exact decode_reti _ _ _

/-! ## Words as numbers -/

theorem doubleWord_toNat (opcode sreg : BitVec 4) (ad bw : BitVec 1) (as : BitVec 2) (dreg : BitVec 4) :
    (doubleWord opcode sreg ad bw as dreg).toNat =
      opcode.toNat * 4096 + sreg.toNat * 256 + ad.toNat * 128 + bw.toNat * 64 + as.toNat * 16 + dreg.toNat := by
  simp only [doubleWord, toNat_append]; omega

theorem dadd_toNat (fields : BitVec 12) : (0xA#4 ++ fields : Word).toNat = 0xA000 + fields.toNat := by
  rw [toNat_append]; rfl

theorem reti_toNat (low : BitVec 7) : (0b000100110#9 ++ low : Word).toNat = 0x1300 + low.toNat := by
  rw [toNat_append]; rfl

/-- The words of DADD (R66). -/
theorem exists_dadd_of_range {x : Word} (h : 0xA000 ≤ x.toNat) (h' : x.toNat < 0xB000) :
    ∃ fields : BitVec 12, x = 0xA#4 ++ fields := by
  refine ⟨x.extractLsb' 0 12, BitVec.eq_of_toNat_eq ?_⟩
  rw [dadd_toNat, BitVec.extractLsb'_toNat, Nat.shiftRight_zero]
  omega

/-- The words of RETI (R149). -/
theorem exists_reti_of_range {x : Word} (h : 0x1300 ≤ x.toNat) (h' : x.toNat < 0x1380) :
    ∃ low : BitVec 7, x = 0b000100110#9 ++ low := by
  refine ⟨x.extractLsb' 0 7, BitVec.eq_of_toNat_eq ?_⟩
  rw [reti_toNat, BitVec.extractLsb'_toNat, Nat.shiftRight_zero]
  omega

/-! ## Every word -/

/-- Each opcode number and B/W bit of the single-operand family is a mnemonic's, RETI's or illegal (R66, R72). -/
theorem Toolchain.SingleOp.exists_code (opcode : BitVec 3) (bw : BitVec 1) :
    (∃ op : SingleOp, op.code = (opcode, bw)) ∨ opcode = 6 ∨ opcode = 7 ∨
      (bw = 1 ∧ (opcode = 1 ∨ opcode = 3 ∨ opcode = 5)) := by
  have hc : opcode = 0 ∨ opcode = 2 ∨ opcode = 4 ∨ (opcode = 1 ∨ opcode = 3 ∨ opcode = 5) ∨ opcode = 6 ∨ opcode = 7 := by
    revert opcode; decide
  have hb : bw = 0 ∨ bw = 1 := by revert bw; decide
  rcases hc with rfl | rfl | rfl | hc | rfl | rfl
  · exact .inl ⟨.rrc (Width.ofCode bw), by rw [SingleOp.code, Width.code_ofCode]⟩
  · exact .inl ⟨.rra (Width.ofCode bw), by rw [SingleOp.code, Width.code_ofCode]⟩
  · exact .inl ⟨.push (Width.ofCode bw), by rw [SingleOp.code, Width.code_ofCode]⟩
  · rcases hb with rfl | rfl
    · rcases hc with rfl | rfl | rfl
      · exact .inl ⟨.swpb, rfl⟩
      · exact .inl ⟨.sxt, rfl⟩
      · exact .inl ⟨.call, rfl⟩
    · exact .inr (.inr (.inr ⟨rfl, hc⟩))
  · exact .inr (.inl rfl)
  · exact .inr (.inr (.inl rfl))

/-- The five ILLEGAL_ENCODING rows of table R72, as ranges of the first word. -/
def IllegalWord (w0 : Word) : Prop :=
  w0.toNat < 0x1000 ∨ (0x1400 ≤ w0.toNat ∧ w0.toNat < 0x2000) ∨ (0x1380 ≤ w0.toNat ∧ w0.toNat < 0x1400) ∨
    (0x10C0 ≤ w0.toNat ∧ w0.toNat < 0x1100) ∨ (0x11C0 ≤ w0.toNat ∧ w0.toNat < 0x1200) ∨
    (0x12C0 ≤ w0.toNat ∧ w0.toNat < 0x1300)

/-- Single-operand opcode 7, and the byte forms of SWPB, SXT and CALL, are illegal (R72, decision D7). -/
theorem singleWord_illegal {opcode : BitVec 3} {bw : BitVec 1} (as : BitVec 2) (reg : BitVec 4)
    (h : opcode = 7 ∨ (bw = 1 ∧ (opcode = 1 ∨ opcode = 3 ∨ opcode = 5))) : IllegalWord (singleWord opcode bw as reg) := by
  rw [IllegalWord, singleWord_toNat]
  rcases h with rfl | ⟨rfl, rfl | rfl | rfl⟩ <;> simp only [BitVec.reduceToNat] <;> omega

theorem decode_singleWord_error {opcode : BitVec 3} {bw : BitVec 1} (as : BitVec 2) (reg : BitVec 4) (w1 w2 : Word)
    (h : opcode = 7 ∨ (bw = 1 ∧ (opcode = 1 ∨ opcode = 3 ∨ opcode = 5))) :
    ∃ e, decode (singleWord opcode bw as reg) w1 w2 = .error e := by
  obtain ⟨h1, h2, h3, _, _⟩ := singleWord_fields opcode bw as reg
  rw [decode, familyOf_singleWord]
  simp only [decodeSingle, h1, h2, h3]
  rcases h with rfl | ⟨rfl, rfl | rfl | rfl⟩ <;> exact ⟨_, rfl⟩

/-- A word below 0x2000 without the single-operand tag is illegal (R62). -/
theorem decode_error_of_tag {w0 : Word} (w1 w2 : Word) (h : w0.toNat < 0x2000) (ht : w0.extractLsb' 10 6 ≠ 0b000100#6) :
    ∃ e, decode w0 w1 w2 = .error e := by
  have hfam : familyOf w0 = .singleOrNoOperand := by rw [familyOf_eq, if_pos h]
  rw [decode, hfam]
  exact ⟨_, if_pos ht⟩

/-- A word of the double-operand family is its fields put together, or DADD's. -/
theorem decoded_of_doubleOperand {w0 : Word} (w1 w2 : Word) (h : 0x4000 ≤ w0.toNat) : ∃ i, Decoded w0 w1 w2 i := by
  have htop : (w0.extractLsb' 12 4).toNat = w0.toNat / 4096 := toNat_extract_top w0 12 4 rfl
  rcases DoubleOp.exists_code (c := w0.extractLsb' 12 4) (by omega) with hc | ⟨op, hc⟩
  · rw [hc] at htop
    have htop : 10 = w0.toNat / 4096 := htop
    obtain ⟨fields, hw⟩ := exists_dadd_of_range (x := w0) (by omega) (by omega)
    exact ⟨_, .dadd hw⟩
  · have hw := doubleWord_of_fields w0
    rw [← Reg.code_ofCode (w0.extractLsb' 8 4), ← Reg.code_ofCode (w0.extractLsb' 0 4),
      ← Width.code_ofCode (w0.extractLsb' 6 1)] at hw
    obtain ⟨i, hi⟩ := DoubleOp.exists_instr hc _ _ _
    exact ⟨i, .double hc hw.symm hi⟩

theorem decoded_of_jump {w0 : Word} (w1 w2 : Word) (h : 0x2000 ≤ w0.toNat) (h' : w0.toNat < 0x4000) :
    ∃ i, Decoded w0 w1 w2 i := by
  have htop : (w0.extractLsb' 13 3).toNat = w0.toNat / 8192 := toNat_extract_top w0 13 3 rfl
  have htag : w0.extractLsb' 13 3 = 0b001#3 := BitVec.eq_of_toNat_eq (htop.trans (by simp; omega))
  obtain ⟨cond, hc⟩ := JumpCond.exists_code (w0.extractLsb' 10 3)
  have hw := jumpWord_of_fields w0 htag
  rw [← hc] at hw
  exact ⟨_, .jump hw.symm⟩

theorem decoded_or_illegal_of_singleOperand {w0 : Word} (w1 w2 : Word) (h : w0.toNat < 0x2000) :
    (∃ i, Decoded w0 w1 w2 i) ∨ IllegalWord w0 ∧ ∃ e, decode w0 w1 w2 = .error e := by
  have htop : (w0.extractLsb' 10 6).toNat = w0.toNat / 1024 := toNat_extract_top w0 10 6 rfl
  by_cases htag : w0.extractLsb' 10 6 = 0b000100#6
  · have hw := singleWord_of_fields w0 htag
    rcases SingleOp.exists_code (w0.extractLsb' 7 3) (w0.extractLsb' 6 1) with ⟨op, hop⟩ | hc | hc
    · obtain ⟨hop1, hop2⟩ := Prod.mk.inj hop
      rw [← Reg.code_ofCode (w0.extractLsb' 0 4), ← hop1, ← hop2] at hw
      exact .inl ⟨_, .single hw.symm⟩
    · have hnat := singleWord_toNat (w0.extractLsb' 7 3) (w0.extractLsb' 6 1) (w0.extractLsb' 4 2) (w0.extractLsb' 0 4)
      rw [hw, hc] at hnat
      simp only [BitVec.reduceToNat] at hnat
      obtain ⟨low, hlow⟩ := exists_reti_of_range (x := w0) (by omega) (by omega)
      exact .inl ⟨_, .reti hlow⟩
    · have hill := singleWord_illegal (w0.extractLsb' 4 2) (w0.extractLsb' 0 4) hc
      have herr := decode_singleWord_error (w0.extractLsb' 4 2) (w0.extractLsb' 0 4) w1 w2 hc
      rw [hw] at hill herr
      exact .inr ⟨hill, herr⟩
  · refine .inr ⟨?_, decode_error_of_tag w1 w2 h htag⟩
    have hne : (w0.extractLsb' 10 6).toNat ≠ 4 := fun h4 => htag (BitVec.eq_of_toNat_eq h4)
    simp only [IllegalWord]
    omega

/-- Every three words are an instruction's or illegal. -/
theorem decoded_or_illegal (w0 w1 w2 : Word) :
    (∃ i, Decoded w0 w1 w2 i) ∨ IllegalWord w0 ∧ ∃ e, decode w0 w1 w2 = .error e := by
  by_cases h : w0.toNat < 0x2000
  · exact decoded_or_illegal_of_singleOperand w1 w2 h
  · by_cases h' : w0.toNat < 0x4000
    · exact .inl (decoded_of_jump w1 w2 (by omega) h')
    · exact .inl (decoded_of_doubleOperand w1 w2 (by omega))

/-- What the decoder does, said once: it answers the instruction of the words, by shape. -/
theorem decode_eq_ok_iff {w0 w1 w2 : Word} {i : Instr} : decode w0 w1 w2 = .ok i ↔ Decoded w0 w1 w2 i := by
  refine ⟨fun h => ?_, Decoded.decode_eq⟩
  rcases decoded_or_illegal w0 w1 w2 with ⟨j, hj⟩ | ⟨_, e, he⟩
  · obtain rfl : j = i := Except.ok.inj (hj.decode_eq.symm.trans h)
    exact hj
  · rw [he] at h; cases h

/-- No instruction's first word is in the table of illegal words. -/
theorem Decoded.not_illegal {w0 w1 w2 : Word} {i : Instr} (h : Decoded w0 w1 w2 i) : ¬ IllegalWord w0 := by
  simp only [IllegalWord]
  cases h with
  | @double op c w as sreg ad dreg i hc hw hi =>
    have h4 := DoubleOp.four_le_code hc
    rw [hw, doubleWord_toNat]
    omega
  | @single op as r hw =>
    obtain ⟨h5, hbyte⟩ := op.code_spec
    rw [hw, singleWord_toNat]
    omega
  | @jump cond offset hw =>
    have hc := (condCode cond).isLt
    rw [hw, jumpWord_toNat]
    omega
  | @dadd fields hw =>
    rw [hw, dadd_toNat]
    omega
  | @reti low hw =>
    rw [hw, reti_toNat]
    omega

theorem decode_error_iff {w0 w1 w2 : Word} : (∃ e, decode w0 w1 w2 = .error e) ↔ IllegalWord w0 := by
  rcases decoded_or_illegal w0 w1 w2 with ⟨i, hi⟩ | ⟨hill, herr⟩
  · exact iff_of_false (fun ⟨e, he⟩ => nomatch hi.decode_eq.symm.trans he) hi.not_illegal
  · exact iff_of_true herr hill

/-- The first word of an instruction is the word it was decoded from: no bit of it is dropped. -/
theorem Decoded.firstWord {w0 w1 w2 : Word} {i : Instr} (h : Decoded w0 w1 w2 i) : i.firstWord = w0 := by
  cases h with
  | double hc hw hi =>
    obtain ⟨c, hc', hfirst⟩ := DoubleOp.firstWord_of_instr? hi
    obtain rfl := Except.ok.inj (hc.symm.trans hc')
    rw [hw, hfirst, doubleFirst, fields_decodeSrc, fields_decodeDst]
  | single hw => rw [hw, SingleOp.firstWord_instr, fields_decodeSrc]
  | jump hw => rw [hw, JumpCond.firstWord_instr]
  | dadd hw => exact hw.symm
  | reti hw => exact hw.symm

/-- RETI's words, and no other word, decode to RETI. -/
theorem decode_reti_iff {w0 w1 w2 : Word} :
    (∃ low, decode w0 w1 w2 = .ok (.reti low)) ↔ 0x1300 ≤ w0.toNat ∧ w0.toNat < 0x1380 := by
  constructor
  · rintro ⟨low, h⟩
    have hw : 0b000100110#9 ++ low = w0 := (decode_eq_ok_iff.mp h).firstWord
    rw [← hw, reti_toNat]
    omega
  · rintro ⟨h, h'⟩
    obtain ⟨low, rfl⟩ := exists_reti_of_range h h'
    exact ⟨low, decode_reti low w1 w2⟩

/-- DADD's words, and no other word, decode to DADD. -/
theorem decode_dadd_iff {w0 w1 w2 : Word} :
    (∃ fields, decode w0 w1 w2 = .ok (.dadd fields)) ↔ 0xA000 ≤ w0.toNat ∧ w0.toNat < 0xB000 := by
  constructor
  · rintro ⟨fields, h⟩
    have hw : 0xA#4 ++ fields = w0 := (decode_eq_ok_iff.mp h).firstWord
    rw [← hw, dadd_toNat]
    omega
  · rintro ⟨h, h'⟩
    obtain ⟨fields, rfl⟩ := exists_dadd_of_range h h'
    exact ⟨fields, decode_dadd fields w1 w2⟩

/-! ## What a decoded instruction is -/

/-- R61: the family is the first word's. -/
theorem Decoded.family {w0 w1 w2 : Word} {i : Instr} (h : Decoded w0 w1 w2 i) : i.family = familyOf w0 := by
  cases h with
  | double hc hw hi =>
    rw [hw, familyOf_doubleWord _ _ _ _ _ _ (DoubleOp.four_le_code hc), Instr.family_of_double? (DoubleOp.double?_of_instr? hi)]
  | single hw => rw [hw, familyOf_singleWord, SingleOp.family_instr]
  | jump hw => rw [hw, familyOf_jumpWord, JumpCond.family_instr]
  | dadd hw => rw [hw]; exact (Laws.FamilyOfFirstWord.dadd _).symm
  | reti hw => rw [hw]; exact (Laws.FamilyOfFirstWord.reti _).symm

/-- The word a source form takes is the one it was decoded with. -/
theorem ext_decodeSrc_eq (as : BitVec 2) (r : Reg) (x : Word) :
    (decodeSrc as r x).ext = if (decodeSrc as r x).ext.isSome then some x else none := by
  cases h : (decodeSrc as r x).ext with
  | none => rfl
  | some y => rw [ext_decodeSrc h]; rfl

/-- The word a destination form takes is the one it was decoded with. -/
theorem ext_decodeDst_eq (ad : BitVec 1) (r : Reg) (x : Word) :
    (decodeDst ad r x).ext = if (decodeDst ad r x).ext.isSome then some x else none := by
  cases h : (decodeDst ad r x).ext with
  | none => rfl
  | some y => rw [ext_decodeDst h]; rfl

/-- The source's word, then the destination's, are the words after the first, in order (R69). -/
theorem operandWords_prefix (as : BitVec 2) (sreg : Reg) (ad : BitVec 1) (dreg : Reg) (w1 w2 : Word) :
    (decodeSrc as sreg w1).ext.toList ++
        (decodeDst ad dreg (if (decodeSrc as sreg w1).ext.isSome then w2 else w1)).ext.toList <+: [w1, w2] := by
  rw [ext_decodeSrc_eq, ext_decodeDst_eq]
  cases (decodeSrc as sreg w1).ext.isSome <;>
    cases (decodeDst ad dreg _).ext.isSome <;> simp

/-- The extension words of an instruction are those it was decoded with. -/
theorem Decoded.extWords_prefix {w0 w1 w2 : Word} {i : Instr} (h : Decoded w0 w1 w2 i) : i.extWords <+: [w1, w2] := by
  cases h with
  | double hc hw hi => rw [Instr.extWords_of_double? (DoubleOp.double?_of_instr? hi)]; exact operandWords_prefix _ _ _ _ w1 w2
  | single hw =>
    rw [SingleOp.extWords_instr, ext_decodeSrc_eq]
    split <;> simp
  | jump hw => simp
  | dadd hw => exact List.nil_prefix
  | reti hw => exact List.nil_prefix

theorem Decoded.encode_prefix {w0 w1 w2 : Word} {i : Instr} (h : Decoded w0 w1 w2 i) : encode i <+: [w0, w1, w2] := by
  rw [encode, h.firstWord, List.prefix_cons_inj]
  exact h.extWords_prefix

theorem Decoded.getElem?_words {w0 w1 w2 x : Word} {i : Instr} {k : Nat} (h : Decoded w0 w1 w2 i)
    (hx : i.extWords[k]? = some x) : [w1, w2][k]? = some x := by
  obtain ⟨hk, rfl⟩ := List.getElem?_eq_some_iff.mp hx
  exact List.prefix_iff_getElem?.mp h.extWords_prefix k hk

/-- Stages 0 and 1 decode the three words at PC (R101). -/
theorem decoded_of_fetchDecode {s : Machine.State} {i : Instr} (h : Machine.fetchDecode s = .ok i) :
    Decoded (s.word (s.reg .pc)) (s.word (s.reg .pc + 2)) (s.word (s.reg .pc + 4)) i := by
  simp only [Machine.fetchDecode, Machine.fetch] at h
  split at h
  · cases h
  · next hf =>
    split at hf <;> cases hf
    split at h
    · cases h
    · next hd => cases h; exact decode_eq_ok_iff.mp hd

/-! ## The length -/

/-- `n_src` of R70 on the register's number. -/
theorem length_ext_decodeSrc (as : BitVec 2) (r : Reg) (x : Word) :
    (decodeSrc as r x).ext.toList.length =
      if (as.toNat = 1 ∧ r.code.toNat ≠ 3) ∨ (as.toNat = 3 ∧ r.code.toNat = 0) then 1 else 0 := by
  have h : as = 0 ∨ as = 1 ∨ as = 2 ∨ as = 3 := by revert as; decide
  rcases h with rfl | rfl | rfl | rfl <;> cases r <;> rfl

/-- `n_dst` of R70. -/
theorem length_ext_decodeDst (ad : BitVec 1) (r : Reg) (x : Word) : (decodeDst ad r x).ext.toList.length = ad.toNat := by
  have h : ad = 0 ∨ ad = 1 := by revert ad; decide
  rcases h with rfl | rfl <;> cases r <;> rfl

theorem byteLength_eq (i : Instr) : i.byteLength = 2 + 2 * i.extWords.length := by
  rw [Instr.byteLength, encode, List.length_cons]; omega

/-- The fields of a double-operand word as numbers (R63). -/
theorem doubleWord_fields_toNat (opcode sreg : BitVec 4) (ad bw : BitVec 1) (as : BitVec 2) (dreg : BitVec 4) :
    let n := (doubleWord opcode sreg ad bw as dreg).toNat
    n / 256 % 16 = sreg.toNat ∧ n / 128 % 2 = ad.toNat ∧ n / 16 % 4 = as.toNat := by
  rw [doubleWord_toNat]
  refine ⟨?_, ?_, ?_⟩ <;> omega

/-- The fields of a single-operand word as numbers (R64). -/
theorem singleWord_fields_toNat (opcode : BitVec 3) (bw : BitVec 1) (as : BitVec 2) (reg : BitVec 4) :
    let n := (singleWord opcode bw as reg).toNat
    n / 16 % 4 = as.toNat ∧ n % 16 = reg.toNat := by
  rw [singleWord_toNat]
  refine ⟨?_, ?_⟩ <;> omega

/-! ## Bytes of an instruction -/

/-- Word `k` of a list of words, read back from their bytes. -/
theorem wordAt_flatMap {ws : List Word} {k : Nat} {x : Word} (rest : List Byte) (h : ws[k]? = some x) :
    wordAt (ws.flatMap wordBytes ++ rest) (2 * k) = x := by
  induction ws generalizing k with
  | nil => cases h
  | cons w ws ih =>
    rw [List.flatMap_cons, List.append_assoc]
    cases k with
    | zero => cases h; exact wordAt_wordBytes _ _
    | succ k => rw [Nat.mul_succ, wordAt_wordBytes_add]; exact ih h

/-- A well-formed instruction is the one its own words decode to, whatever words stand after them. -/
theorem Decoded.of_wf {i : Instr} {w1 w2 : Word} (hwf : i.wf = true) (h1 : ∀ x, i.extWords[0]? = some x → x = w1)
    (h2 : ∀ x, i.extWords[1]? = some x → x = w2) : Decoded i.firstWord w1 w2 i := by
  rcases i.exists_shape with ⟨op, w, src, dst, hi⟩ | ⟨op, o, rfl⟩ | ⟨cond, offset, rfl⟩ | ⟨fields, rfl⟩ | ⟨low, rfl⟩
  · obtain ⟨c, hc, hfirst⟩ := DoubleOp.firstWord_of_instr? hi
    have hdouble := DoubleOp.double?_of_instr? hi
    rw [Instr.wf_of_double hdouble, Bool.and_eq_true] at hwf
    rw [Instr.extWords_of_double? hdouble] at h1 h2
    have hs : decodeSrc src.fields.1 src.fields.2 w1 = src :=
      decodeSrc_fields hwf.1 fun y hy => h1 y (by rw [hy]; rfl)
    have hd : decodeDst dst.fields.1 dst.fields.2 (if src.ext.isSome then w2 else w1) = dst := by
      refine decodeDst_fields hwf.2 fun y hy => ?_
      cases hsrc : src.ext with
      | none => exact h1 y (by rw [hsrc, hy]; rfl)
      | some x => exact h2 y (by rw [hsrc, hy]; rfl)
    exact .double hc hfirst (by rw [hs, hd]; exact hi)
  · rw [SingleOp.wf_instr] at hwf
    rw [SingleOp.extWords_instr] at h1
    have ho : decodeSrc o.fields.1 o.fields.2 w1 = o := decodeSrc_fields hwf fun y hy => h1 y (by rw [hy]; rfl)
    have h := Decoded.single (w1 := w1) (w2 := w2) (op.firstWord_instr o)
    rwa [ho] at h
  · exact .jump (cond.firstWord_instr offset)
  · exact .dadd rfl
  · exact .reti rfl

/-- Decoding the bytes of a well-formed instruction gives it back, and the bytes after it. -/
theorem decodeBytes_encodeBytes {i : Instr} (hwf : i.wf = true) (rest : List Byte) :
    decodeBytes (encodeBytes i ++ rest) = .ok (i, rest) := by
  have hword : ∀ {k x}, (encode i)[k]? = some x → wordAt (encodeBytes i ++ rest) (2 * k) = x := wordAt_flatMap rest
  have h0 : wordAt (encodeBytes i ++ rest) 0 = i.firstWord := hword (k := 0) rfl
  have h := Decoded.of_wf hwf (fun x hx => (hword (k := 1) hx).symm) (fun x hx => (hword (k := 2) hx).symm)
  rw [← h0] at h
  have hlen : ¬ (encodeBytes i ++ rest).length < i.byteLength := by rw [List.length_append, length_encodeBytes]; omega
  rw [decodeBytes, h.decode_eq]
  simp only [if_neg hlen]
  rw [← length_encodeBytes i, List.drop_left]

/-! ## The obligations -/

/-- Settles O2: the words of a well-formed instruction, read back from its bytes, decode to it. -/
theorem decodeOfEncodeIsTheInstruction : Obligations.DecodeOfEncodeIsTheInstruction :=
  fun _ rest hwf => decodeBytes_encodeBytes hwf rest

/-- Settles O3, from the shape of what the words decode to. -/
theorem encodeOfDecodeIsTheWords : Obligations.EncodeOfDecodeIsTheWords :=
  fun _ _ _ _ h => ⟨wf_of_decode h, (decode_eq_ok_iff.mp h).encode_prefix⟩

/-- Settles O4: the family is the first word's, which is its range as a number. -/
theorem topBitsSelectTheFamily : Obligations.TopBitsSelectTheFamily := by
  intro w0 w1 w2 i h
  rw [(decode_eq_ok_iff.mp h).family, familyOf_eq]
  by_cases h1 : w0.toNat < 0x2000
  · rw [if_pos h1]
    exact ⟨iff_of_true rfl h1, iff_of_false nofun (by omega), iff_of_false nofun (by omega)⟩
  · by_cases h2 : w0.toNat < 0x4000
    · rw [if_neg h1, if_pos h2]
      exact ⟨iff_of_false nofun h1, iff_of_true rfl (by omega), iff_of_false nofun (by omega)⟩
    · rw [if_neg h1, if_neg h2]
      exact ⟨iff_of_false nofun h1, iff_of_false nofun (by omega), iff_of_true rfl (by omega)⟩

/-- Settles O5: every word is an instruction's or in the table, and none is both. -/
theorem illegalWordsAreTheTable : Obligations.IllegalWordsAreTheTable :=
  fun _ _ _ => ⟨decode_error_iff, decode_reti_iff, decode_dadd_iff⟩

/-- Settles O6, by the shape of the instruction: a form takes a word by the fields it was decoded from. -/
theorem lengthFollowsTheFields : Obligations.LengthFollowsTheFields := by
  intro w0 w1 w2 i h as nSrc
  simp only [byteLength_eq]
  cases decode_eq_ok_iff.mp h with
  | @double op c w as' sreg ad dreg i hc hw hi =>
    have hd := DoubleOp.double?_of_instr? hi
    obtain ⟨hsreg, had, has⟩ := doubleWord_fields_toNat c sreg.code ad w.code as' dreg.code
    rw [← hw] at hsreg had has
    rw [hd, Instr.single?_of_double? hd]
    refine ⟨fun _ => ?_, nofun, nofun⟩
    simp only [nSrc, as, hsreg, had, has, Instr.extWords_of_double? hd, List.length_append,
      length_ext_decodeSrc, length_ext_decodeDst]
  | @single op as' r hw =>
    obtain ⟨has, hr⟩ := singleWord_fields_toNat op.code.1 op.code.2 as' r.code
    rw [← hw] at has hr
    obtain ⟨w, hsingle⟩ := op.single?_instr (decodeSrc as' r w1)
    rw [SingleOp.double?_instr, hsingle]
    refine ⟨nofun, fun _ => ?_, nofun⟩
    simp only [nSrc, as, has, hr, SingleOp.extWords_instr, length_ext_decodeSrc]
  | jump hw => simp
  | dadd hw => exact ⟨nofun, nofun, fun _ _ => rfl⟩
  | reti hw => exact ⟨nofun, nofun, fun _ _ => rfl⟩

/-- Settles O7: the extension words of a fetched instruction are the words after its first, in order. -/
theorem sourceTakesTheFirstExtensionWord : Obligations.SourceTakesTheFirstExtensionWord := by
  intro s i h
  have hdec := decoded_of_fetchDecode h
  have hfst : ∀ x, i.extWords[0]? = some x → x = s.word (s.reg .pc + 2) :=
    fun x hx => (Option.some.inj (hdec.getElem?_words hx)).symm
  have hsnd : ∀ x, i.extWords[1]? = some x → x = s.word (s.reg .pc + 4) :=
    fun x hx => (Option.some.inj (hdec.getElem?_words hx)).symm
  refine ⟨fun w op x hs hx => hfst x ?_, fun w src dst hd => ?_⟩
  · rw [Instr.extWords_of_single? hs, hx]; rfl
  · rw [Instr.extWords_of_double? hd] at hfst hsnd
    refine ⟨fun x hx => hfst x ?_, fun x hx hsrc => hfst x ?_, fun x y hx hy => hsnd x ?_⟩
    · rw [hx]; rfl
    · rw [hsrc, hx]; rfl
    · rw [hy, hx]; rfl

/-- Settles O1, by evaluating the decoder on each word. -/
theorem writtenWordsDecode : Obligations.WrittenWordsDecode := by
  unfold Obligations.WrittenWordsDecode
  decide

end Sys2Proof

namespace Sys2Proof.Toolchain

open Sys2Proof.Machine (JumpCond State resolveSrc srcAddr)

/-! ## Operands -/

/-- Exactly the six constants are folded (R82). -/
theorem foldConst_eq_none_iff {v : Word} :
    foldConst v = none ↔ ¬ (v = 0 ∨ v = 1 ∨ v = 2 ∨ v = 4 ∨ v = 8 ∨ v = 0xFFFF) := by
  simp only [foldConst]
  grind

/-- A folded constant is 0, read from R3, or one that the constant generator makes (R82, R105, R110). -/
theorem foldConst_cases {v : Word} {as : BitVec 2} {r : Reg} (h : foldConst v = some (as, r)) :
    (v = 0 ∧ ∀ x, decodeSrc as r x = .reg .cg) ∨ ∃ k : CgConst, v = k.value ∧ ∀ x, decodeSrc as r x = .const k := by
  simp only [foldConst] at h
  split at h
  · next hv => cases h; exact .inl ⟨hv, fun _ => rfl⟩
  split at h
  · next hv => cases h; exact .inr ⟨.one, hv, fun _ => rfl⟩
  split at h
  · next hv => cases h; exact .inr ⟨.two, hv, fun _ => rfl⟩
  split at h
  · next hv => cases h; exact .inr ⟨.four, hv, fun _ => rfl⟩
  split at h
  · next hv => cases h; exact .inr ⟨.eight, hv, fun _ => rfl⟩
  split at h
  · next hv => cases h; exact .inr ⟨.minusOne, hv, fun _ => rfl⟩
  · cases h

/-- A folded constant resolves to its value, in a state with R3 = 0. -/
theorem foldConst_resolves {v : Word} {as : BitVec 2} {r : Reg} {s : State} (h : foldConst v = some (as, r))
    (hcg : s.reg .cg = 0) (w : Width) (x : Word) :
    ∃ sv, resolveSrc w (decodeSrc as r x) s = .ok sv ∧ sv.val = w.trunc v ∧ sv.usesExt = false := by
  rcases foldConst_cases h with ⟨rfl, hdec⟩ | ⟨k, rfl, hdec⟩
  · rw [hdec]
    exact ⟨_, rfl, congrArg w.trunc hcg, rfl⟩
  · rw [hdec]
    exact ⟨_, rfl, rfl, rfl⟩

theorem asSource_folded {v : Word} {as : BitVec 2} {r : Reg} (h : foldConst v = some (as, r)) :
    (Operand.immediate (.num v)).normalise.asSource = { as := as, reg := r, ext := none } := by
  simp only [Operand.normalise, Operand.asSource, h]

theorem asSource_unfolded {v : Word} (h : foldConst v = none) :
    (Operand.immediate (.num v)).normalise.asSource = { as := 3, reg := .pc, ext := some (.num v) } := by
  simp only [Operand.normalise, Operand.asSource, h]

theorem normalise_indexed_of_ne (r : Reg) {x : Word} (h : x ≠ 0) : (Operand.indexed r x).normalise = .indexed r x := if_neg h

/-- An immediate in source role, folded or with its word, resolves to its value (R81, R82). -/
theorem asSource_immediate_num (w : Width) {s : State} {v : Word} {c : SrcCode} (hcg : s.reg .cg = 0)
    (hc : c = (Operand.immediate (.num v)).normalise.asSource) :
    (c.ext = none ↔ v = 0 ∨ v = 1 ∨ v = 2 ∨ v = 4 ∨ v = 8 ∨ v = 0xFFFF) ∧ (c.ext ≠ none → c.ext = some (.num v)) ∧
      ∀ x, (c.ext = none ∨ c.ext = some (.num x)) →
        ∃ sv, resolveSrc w (decodeSrc c.as c.reg x) s = .ok sv ∧ sv.val = w.trunc v ∧ sv.usesExt = c.ext.isSome := by
  cases hfold : foldConst v with
  | some p =>
    rw [asSource_folded hfold] at hc
    subst hc
    refine ⟨iff_of_true rfl ?_, fun h => absurd rfl h, fun x _ => foldConst_resolves hfold hcg w x⟩
    by_contra hv
    rw [foldConst_eq_none_iff.mpr hv] at hfold
    cases hfold
  | none =>
    rw [asSource_unfolded hfold] at hc
    subst hc
    refine ⟨iff_of_false nofun (foldConst_eq_none_iff.mp hfold), fun _ => rfl, fun x hx => ?_⟩
    rcases hx with hx | hx <;> cases hx
    exact ⟨_, rfl, rfl, rfl⟩

/-- An indexed operand in source role keeps its address, whether or not it is normalised (R83). -/
theorem asSource_indexed (s : State) {r : Reg} {v : Word} {c : SrcCode} (hr : r.sourceBase = true)
    (hc : c = (Operand.indexed r v).normalise.asSource) :
    (c.ext = none ↔ v = 0) ∧ (c.ext ≠ none → c.ext = some (.num v)) ∧
      ∀ x, (c.ext = none ∨ c.ext = some (.num x)) →
        srcAddr (decodeSrc c.as c.reg x) s = some (s.reg r + v) ∧ (decodeSrc c.as c.reg x).ext.isSome = c.ext.isSome := by
  by_cases hv : v = 0
  · subst hv hc
    refine ⟨iff_of_true rfl rfl, fun h => absurd rfl h, fun x _ => ?_⟩
    have hdec : decodeSrc 2 r x = .indirect r := decodeSrc_fields (o := .indirect r) hr nofun
    change srcAddr (decodeSrc 2 r x) s = _ ∧ (decodeSrc 2 r x).ext.isSome = _
    rw [hdec]
    exact ⟨congrArg some (BitVec.add_zero _).symm, rfl⟩
  · rw [normalise_indexed_of_ne r hv] at hc
    subst hc
    refine ⟨iff_of_false nofun hv, fun _ => rfl, fun x hx => ?_⟩
    rcases hx with hx | hx <;> cases hx
    have hdec : decodeSrc 1 r v = .indexed r v := decodeSrc_fields (o := .indexed r v) hr fun _ hy => (Option.some.inj hy).symm
    change srcAddr (decodeSrc 1 r v) s = _ ∧ (decodeSrc 1 r v).ext.isSome = _
    rw [hdec]
    exact ⟨rfl, rfl⟩

/-- A nonzero index in destination role is kept (R81). -/
theorem asDest_indexed {p : Reg} {v : Word} (hp : p.destBase = true) (hv : v ≠ 0) :
    ∃ d x, (Operand.indexed p v).normalise.asDest = .ok d ∧ d.ext = some (.num x) ∧
      decodeDst d.ad d.reg x = .indexed p v := by
  rw [normalise_indexed_of_ne p hv]
  exact ⟨_, _, rfl, rfl, decodeDst_fields (o := .indexed p v) hp fun _ hy => (Option.some.inj hy).symm⟩

/-! ## The relocation of a jump -/

/-- Where a jump's condition holds, it goes to its new value + 2 (R160). -/
theorem exec_jump_taken {cond : JumpCond} {offset : BitVec 10} {s : State} (hc : cond.holds s = true)
    (hne : Machine.jumpValue offset s ≠ 0) :
    Machine.exec (cond.instr offset) s = .next (s.setReg .pc (Machine.jumpValue offset s + 2)) := by
  have hrun : Machine.exec (cond.instr offset) s = Machine.runJump (cond.instr offset).firstWord cond offset s := by
    cases cond <;> rfl
  rw [hrun, Machine.runJump_eq, if_pos hc, if_neg hne]

/-- A jump at `j` with the word count of R92 for a label's table value has that value as its new value. -/
theorem jumpValue_of_displacement {l j : Nat} {k : Int} {s : State} (hk : displacement l j = some k)
    (hpc : s.reg .pc = BitVec.ofNat 16 j) : Machine.jumpValue (BitVec.ofInt 10 k) s = BitVec.ofNat 16 l := by
  obtain ⟨hd, hlo, hhi⟩ := displacement_eq_some.mp hk
  have hoff : (BitVec.ofInt 10 k).toInt = k := BitVec.toInt_ofInt_eq_self (by decide) (by omega) (by omega)
  rw [Machine.jumpValue_eq_ofInt, hoff, hpc, ← BitVec.ofInt_natCast, ← BitVec.ofInt_natCast, ← BitVec.ofInt_add]
  congr 1
  omega

/-! ## The bootstrap -/

theorem resolveAll_cons {labels : List (Label × Nat)} {r : Reloc} {rs : List Reloc} {bs out : List Byte}
    (h : resolveAll labels bs (r :: rs) = .ok out) :
    ∃ m, resolveOne labels bs r = .ok m ∧ resolveAll labels m rs = .ok out := by
  simp only [resolveAll] at h
  cases h1 : resolveOne labels bs r with
  | error k => rw [h1] at h; cases h
  | ok m => rw [h1] at h; exact ⟨m, rfl, h⟩

/-- A jump's relocation that succeeds: its label has a table value in range, and the offset field takes the word count
(R92). -/
theorem resolveOne_pcRelative_ok {labels : List (Label × Nat)} {label : Label} {j : Nat} {bs out : List Byte}
    (h : resolveOne labels bs (.pcRelative j label) = .ok out) :
    ∃ l k, labels.lookup label = some l ∧ displacement l j = some k ∧
      out = patch bs j (wordAt bs j ||| BitVec.ofInt 16 (k % 1024)) := by
  cases hl : labels.lookup label with
  | none => simp only [resolveOne, hl] at h; cases h
  | some l =>
    rw [resolveOne_pcRelative bs hl] at h
    cases hk : displacement l j with
    | none => rw [hk] at h; cases h
    | some k => rw [hk] at h; cases h; exact ⟨l, k, rfl, hk, rfl⟩

theorem emit_of_lines {p : Params} {globals : List Global} {code : List Line} {g e : Emission}
    (hf : foldConst p.bootSp = none) (hg : (bootEmission p.bootSp).globals globals = .ok g) (hl : g.pad.lines code = .ok e) :
    emit p globals code = .ok e := by
  simp only [emit, hf, lines_bootstrap hf, bind, Except.bind, hg]
  exact hl

/-- The table value of a code label is its byte address − 2 (R89). -/
theorem lookup_main_of_emit {p : Params} {globals : List Global} {before after : List Line} {e : Emission}
    (h : emit p globals (before ++ .label .main :: after) = .ok e) :
    ∃ e', emit p globals before = .ok e' ∧ e.lookup .main = some (e'.bytes.length - 2) := by
  obtain ⟨hf, g, hg, hl⟩ := emit_ok h
  obtain ⟨e', hbefore, hrest⟩ := lines_append hl
  obtain ⟨n, hlabel, hafter⟩ := lines_cons hrest
  exact ⟨e', emit_of_lines hf hg hbefore, (extends_lines hafter).lookup (lookup_of_record hlabel)⟩

/-- The bootstrap is emitted first (R84). -/
theorem length_emit {p : Params} {globals : List Global} {code : List Line} {e : Emission} (h : emit p globals code = .ok e) :
    6 ≤ e.bytes.length := (extends_emit h).length_le

theorem bootEmission_bytes (bootSp : Word) : (bootEmission bootSp).bytes = [0x4031, bootSp, 0x3C00].flatMap wordBytes := by
  simp only [bootEmission, List.flatMap_cons, List.flatMap_nil, List.append_nil, List.append_assoc]

/-- The words of the bootstrap, before relocation (R84, R227). -/
theorem wordAt_emit {p : Params} {globals : List Global} {code : List Line} {e : Emission} (h : emit p globals code = .ok e)
    {n : Nat} {v : Word} (hv : [0x4031, p.bootSp, 0x3C00][n]? = some v) : wordAt e.bytes (2 * n) = v := by
  obtain ⟨bs, hb⟩ := (extends_emit h).bytes
  rw [hb, bootEmission_bytes]
  exact wordAt_flatMap bs hv

theorem jumpWord_always_ofInt (k : Int) : jumpWord 7 (BitVec.ofInt 10 k) = BitVec.ofNat 16 (0x3C00 + (k % 1024).toNat) := by
  apply BitVec.eq_of_toNat_eq
  rw [jumpWord_toNat]
  simp only [BitVec.toNat_ofInt, BitVec.toNat_ofNat, BitVec.reduceToNat]
  omega

/-! ## The words of a line -/

/-- A nonzero index of R3, and `@PC+`, apart, the fields of an operand in source role decode to a form that takes a word
exactly where the encoder gives it one (R81, conflict C4). -/
theorem isSome_ext_asSource {src : Operand} (hcg : ∀ k, k ≠ 0 → src ≠ .indexed .cg k) (hpc : src ≠ .indirectInc .pc)
    (x : Word) :
    (decodeSrc src.normalise.asSource.as src.normalise.asSource.reg x).ext.isSome = src.normalise.asSource.ext.isSome := by
  cases src with
  | reg r => rfl
  | absolute v => rfl
  | indirect r => exact isSome_ext_decodeSrc 2 r x
  | indirectInc r =>
    have hr : r ≠ .pc := fun h => hpc (congrArg _ h)
    exact (isSome_ext_decodeSrc 3 r x).trans (by simp [hr, Operand.normalise, Operand.asSource])
  | indexed r k =>
    by_cases hk : k = 0
    · subst hk; exact isSome_ext_decodeSrc 2 r x
    · have hr : r ≠ .cg := fun h => hcg k hk (by rw [h])
      rw [normalise_indexed_of_ne r hk]
      exact (isSome_ext_decodeSrc 1 r x).trans (by simp [hr, Operand.asSource])
  | immediate value =>
    cases value with
    | label l => rfl
    | num v =>
      cases hfold : foldConst v with
      | none => rw [asSource_unfolded hfold]; rfl
      | some p => rw [asSource_folded hfold]; exact congrArg Option.isSome (foldConst_decodes hfold x)

theorem isSome_ext_asDest {dst : Operand} {d : DstCode} (h : dst.asDest = .ok d) (y : Word) :
    (decodeDst d.ad d.reg y).ext.isSome = d.ext.isSome := by
  rw [isSome_ext_decodeDst]
  cases dst <;> cases h <;> rfl

theorem flatMap_ext_decodeSrc (as : BitVec 2) (r : Reg) (x : Word) :
    (decodeSrc as r x).ext.toList.flatMap wordBytes = if (decodeSrc as r x).ext.isSome then wordBytes x else [] := by
  rw [ext_decodeSrc_eq]
  split <;> simp

theorem flatMap_ext_decodeDst (ad : BitVec 1) (r : Reg) (x : Word) :
    (decodeDst ad r x).ext.toList.flatMap wordBytes = if (decodeDst ad r x).ext.isSome then wordBytes x else [] := by
  rw [ext_decodeDst_eq]
  split <;> simp

/-- What a trailing word appends depends on the length of what stands before it only. -/
theorem trailing_of_length_eq {e e' : Emission} {u : Option Value} {ws : List Byte} {rs : List Reloc}
    (hlen : e'.bytes.length = e.bytes.length)
    (h : e.trailing u = { e with bytes := e.bytes ++ ws, relocs := e.relocs ++ rs }) :
    e'.trailing u = { e' with bytes := e'.bytes ++ ws, relocs := e'.relocs ++ rs } := by
  have hbytes := congrArg Emission.bytes h
  have hrelocs := congrArg Emission.relocs h
  rcases u with _ | v | l
  · obtain rfl : ws = [] := List.self_eq_append_right.mp hbytes
    obtain rfl : rs = [] := List.self_eq_append_right.mp hrelocs
    simp [Emission.trailing]
  · obtain rfl : wordBytes v = ws := List.append_cancel_left hbytes
    obtain rfl : rs = [] := List.self_eq_append_right.mp hrelocs
    simp [Emission.trailing, Emission.word]
  · obtain rfl : wordBytes 0 = ws := List.append_cancel_left hbytes
    obtain rfl : [.fullWord e.bytes.length l] = rs := List.append_cancel_left hrelocs
    simp [Emission.trailing, Emission.word, hlen]

/-- The source's trailing word, then the destination's, once both are resolved. -/
theorem resolve_trailing_trailing {labels : List (Label × Nat)} {u v : Option Value} {x y : Word}
    (hu : ∀ value, u = some value → value.word? labels = some x)
    (hv : ∀ value, v = some value → value.word? labels = some y)
    {e : Emission} (he : e.relocs = []) :
    resolveAll labels ((e.trailing u).trailing v).bytes ((e.trailing u).trailing v).relocs =
      .ok (e.bytes ++ ((if u.isSome then wordBytes x else []) ++ (if v.isSome then wordBytes y else []))) := by
  obtain ⟨rs, ws, hsrc, hlen, hres⟩ := resolve_trailing hu e
  obtain ⟨rs', ws', hdst, _, hres'⟩ :=
    resolve_trailing hv { e with bytes := e.bytes ++ if u.isSome then wordBytes x else [] }
  have hlen' : (e.trailing u).bytes.length = (e.bytes ++ if u.isSome then wordBytes x else []).length := by
    rw [hsrc, List.length_append, List.length_append, hlen]
    cases u <;> rfl
  rw [trailing_of_length_eq hlen' hdst, hsrc, he]
  have h1 := hres ws' rs'
  have h2 := hres' [] []
  simp only [List.append_assoc, List.append_nil, List.nil_append] at h1 h2 ⊢
  rw [h1, h2]
  rfl

/-- A line whose relocated bytes are those of a well-formed instruction stands for it. -/
theorem emits_of_encodeBytes {labels : List (Label × Nat)} {bs : List Byte} {line : Line} {e : Emission} {i : Instr}
    (hwf : i.wf = true) (hline : ({ bytes := bs } : Emission).line line = .ok e)
    (hres : resolveAll labels e.bytes e.relocs = .ok (bs ++ encodeBytes i)) : Emits labels bs line i := by
  have hdec := decodeBytes_encodeBytes hwf []
  rw [List.append_nil] at hdec
  exact ⟨e, encodeBytes i, hline, hres, hdec⟩

theorem encodeBytes_eq (i : Instr) : encodeBytes i = wordBytes i.firstWord ++ i.extWords.flatMap wordBytes :=
  List.flatMap_cons

section Lines

variable {labels : List (Label × Nat)} {bs : List Byte} {x y : Word}

/-- A double-operand line adds the words of its mnemonic's instruction (R63, R87, R88). -/
theorem emits_double {op : DoubleOp} {w : Width} {src dst : Operand} {d : DstCode} {i : Instr}
    (hi : op.instr? w (decodeSrc src.normalise.asSource.as src.normalise.asSource.reg x) (decodeDst d.ad d.reg y) = some i)
    (hd : dst.normalise.asDest = .ok d) (hcg : ∀ k, k ≠ 0 → src ≠ .indexed .cg k) (hpc : src ≠ .indirectInc .pc)
    (hx : ∀ u, src.normalise.asSource.ext = some u → u.word? labels = some x)
    (hy : ∀ u, d.ext = some u → u.word? labels = some y) : Emits labels bs (.double op w src dst) i := by
  obtain ⟨c, hc, hfirst⟩ := DoubleOp.firstWord_of_instr? hi
  have hdouble := DoubleOp.double?_of_instr? hi
  have hwf : i.wf = true := by rw [Instr.wf_of_double hdouble, wf_decodeSrc, wf_decodeDst]; rfl
  have hbytes : encodeBytes i = wordBytes i.firstWord ++ ((if src.normalise.asSource.ext.isSome then wordBytes x else []) ++
      if d.ext.isSome then wordBytes y else []) := by
    rw [encodeBytes_eq, Instr.extWords_of_double? hdouble, List.flatMap_append, flatMap_ext_decodeSrc, flatMap_ext_decodeDst,
      isSome_ext_asSource hcg hpc, isSome_ext_asDest hd]
  rw [doubleFirst, fields_decodeSrc, fields_decodeDst] at hfirst
  refine emits_of_encodeBytes hwf (by simp only [Emission.line, hc, hd]; rfl) ?_
  rw [resolve_trailing_trailing hx hy rfl, hbytes, hfirst, ← List.append_assoc bs]
  rfl

/-- A single-operand line adds the words of its mnemonic's instruction (R64, R87). -/
theorem emits_single (op : SingleOp) {operand : Operand} (hcg : ∀ k, k ≠ 0 → operand ≠ .indexed .cg k)
    (hpc : operand ≠ .indirectInc .pc) (hx : ∀ u, operand.normalise.asSource.ext = some u → u.word? labels = some x) :
    Emits labels bs (.single op operand)
      (op.instr (decodeSrc operand.normalise.asSource.as operand.normalise.asSource.reg x)) := by
  refine emits_of_encodeBytes (by rw [SingleOp.wf_instr, wf_decodeSrc]) rfl ?_
  have hres := resolve_trailing_trailing (v := none) (y := 0) hx nofun
    (e := ({ bytes := bs } : Emission).word (singleWord op.code.1 op.code.2 operand.normalise.asSource.as
      operand.normalise.asSource.reg.code)) rfl
  rw [encodeBytes_eq, SingleOp.firstWord_instr, SingleOp.extWords_instr, fields_decodeSrc, flatMap_ext_decodeSrc,
    isSome_ext_asSource hcg hpc]
  refine hres.trans ?_
  simp [Emission.word]

theorem wordAt_append_length (bs cs : List Byte) : wordAt (bs ++ cs) bs.length = wordAt cs 0 := by
  simp [wordAt, List.getElem?_append_right]

/-- A jump line adds its jump word, with the displacement (R86, R92). -/
theorem emits_jump (cond : JumpCond) {target : Label} {l : Nat} {k : Int} (hl : labels.lookup target = some l)
    (hk : displacement l bs.length = some k) : Emits labels bs (.jump cond target) (cond.instr (BitVec.ofInt 10 k)) := by
  refine emits_of_encodeBytes (JumpCond.wf_instr _ _) rfl ?_
  have hword : wordAt (bs ++ wordBytes (jumpWord (condCode cond) 0)) bs.length = jumpWord (condCode cond) 0 := by
    rw [wordAt_append_length, ← List.append_nil (wordBytes _), wordAt_wordBytes]
  have hpatch := patch_append bs [] (jumpWord (condCode cond) 0) (jumpWord (condCode cond) (BitVec.ofInt 10 k))
  have hone : resolveOne labels (bs ++ wordBytes (jumpWord (condCode cond) 0)) (.pcRelative bs.length target) =
      .ok (bs ++ wordBytes (jumpWord (condCode cond) (BitVec.ofInt 10 k))) := by
    rw [resolveOne_pcRelative _ hl, hk]
    simp only [hword, jumpWord_or]
    simpa using hpatch
  rw [encodeBytes_eq, JumpCond.firstWord_instr, JumpCond.extWords_instr, List.flatMap_nil, List.append_nil]
  simp only [Emission.word, List.nil_append, resolveAll, hone]
  rfl

end Lines

/-! ## The obligations -/

/-- Settles O56, form by form: an immediate is folded or not, an index is zero or not. -/
theorem encodedOperandsDecodeAsMeant : Obligations.EncodedOperandsDecodeAsMeant := by
  intro w s v r q p label hcg hr hp
  refine ⟨fun c => asSource_immediate_num w hcg, fun c => asSource_indexed s hr, ?_, ?_, ?_, ?_, ?_, ?_, ?_,
    asDest_indexed hp, ?_, ?_, rfl, rfl, rfl, fun _ => rfl⟩
  · rintro c rfl; exact ⟨_, rfl, rfl⟩
  · rintro c rfl; exact ⟨rfl, fun _ => rfl⟩
  · rintro c rfl; exact ⟨rfl, fun _ => decodeSrc_fields (o := .indirect r) hr nofun⟩
  · rintro c rfl; exact ⟨rfl, fun _ => decodeSrc_fields (o := .indirectInc r) hr nofun⟩
  · rintro c rfl; exact ⟨rfl, fun _ => rfl⟩
  · rintro c rfl; exact ⟨rfl, fun _ => rfl⟩
  · exact ⟨_, rfl, rfl, fun _ => rfl⟩
  · exact ⟨_, _, rfl, rfl, rfl⟩
  · exact ⟨_, rfl, rfl, fun _ => rfl⟩

/-- Settles O57: the patch fills in the offset field, whose jump goes to the label. -/
theorem relocatedJumpReachesItsLabel : Obligations.RelocatedJumpReachesItsLabel := by
  intro cond labels label bs j hlen hword
  refine ⟨fun hnone => by simp only [resolveOne, hnone], fun l hl => ?_⟩
  intro d
  rw [resolveOne_pcRelative bs hl]
  refine ⟨fun hd => by rw [displacement_eq_none.mpr hd], fun hev hlo hhi => ?_⟩
  have hk : displacement l j = some (d / 2) := displacement_eq_some.mpr ⟨by omega, by omega, by omega⟩
  simp only [hk, hword, jumpWord_or]
  refine ⟨_, rfl, length_patch _ _ _, fun n h0 h1 => getElem?_patch_ne h0 h1, fun w1 w2 => ?_, fun s hpc hl0 hc => ?_⟩
  · rw [wordAt_patch hlen]; exact decode_jumpWord _ _ _ _
  · have hval := jumpValue_of_displacement hk hpc
    refine ⟨_, exec_jump_taken hc (by rw [hval]; exact hl0), rfl, ?_⟩
    rw [hval, Machine.State.reg_setReg_self]

/-- Settles O58: the bootstrap is emitted first, its JMP is relocated first, and later relocations lie after it. -/
theorem everyImageBeginsWithTheBootstrap : Obligations.EveryImageBeginsWithTheBootstrap := by
  intro p globals code image h
  obtain ⟨e, he, hres⟩ := assemble_ok h
  obtain ⟨rs, hrelocs, hpos⟩ := (extends_emit he).relocs
  rw [hrelocs] at hres
  obtain ⟨m, hjump, hrest⟩ := resolveAll_cons hres
  obtain ⟨main, k, hmain, hk, rfl⟩ := resolveOne_pcRelative_ok hjump
  obtain ⟨hd, hlo, hhi⟩ := displacement_eq_some.mp hk
  obtain ⟨hlen, hwords⟩ := resolveAll_ok hrest
  have h6 := length_emit he
  have hkeep : ∀ a, a + 2 ≤ 6 → ∀ r ∈ rs, a + 2 ≤ r.pos := fun a ha r hr => Nat.le_trans ha (hpos r hr)
  have h0 : wordAt e.bytes 0 = 0x4031 := wordAt_emit he (n := 0) rfl
  have h2 : wordAt e.bytes 2 = p.bootSp := wordAt_emit he (n := 1) rfl
  have h4 : wordAt e.bytes 4 = jumpWord 7 0 := wordAt_emit he (n := 2) rfl
  refine ⟨?_, ?_, ?_, e, main, k, he, hmain, hd, hlo, hhi, ?_, fun before after hcode => ?_⟩
  · rw [hlen, length_patch]; exact h6
  · rw [hwords 0 (hkeep 0 (by decide)), wordAt_patch_ne (.inl (by decide)), h0]
  · rw [hwords 2 (hkeep 2 (by decide)), wordAt_patch_ne (.inl (by decide)), h2]
  · rw [hwords 4 (hkeep 4 (by decide)), wordAt_patch h6, h4, jumpWord_or, jumpWord_always_ofInt]
  · obtain ⟨e', he', hlookup⟩ := lookup_main_of_emit (hcode ▸ he)
    obtain rfl := Option.some.inj (hmain.symm.trans hlookup)
    exact ⟨e', he', Nat.sub_add_cancel (Nat.le_trans (by decide) (length_emit he'))⟩

/-- Settles O60: the relocated bytes of each kind of line are those of its instruction, which decode to it. -/
theorem emittedLinesDecodeAsMeant : Obligations.EmittedLinesDecodeAsMeant := by
  intro labels bs
  refine ⟨fun op w src dst d x y i hi hd hcg hpc hx hy => emits_double hi hd hcg hpc hx hy,
    fun op operand x hcg hpc hx => emits_single op hcg hpc hx, fun cond target l k hl hd hlo hhi => ?_,
    fun e w src dst => ⟨rfl, rfl⟩⟩
  exact emits_jump cond hl (displacement_eq_some.mpr ⟨hd, hlo, hhi⟩)

end Sys2Proof.Toolchain
end

section
/-! PROOFS. The family 40_pipeline.md: what each operand form resolves to, and what a step does with the three words at PC. -/

namespace Sys2Proof.Machine

/-! ## Memory operands that do not fault -/

section Aligned

variable {w : Width} {ea : Word} (s : State) (h : misaligned w ea = false)
include h

/-- A memory source at an aligned address is the value loaded there (R109, R111, R112). -/
theorem memSource_of_aligned (usesExt : Bool) (inc : Option (Reg × Word)) :
    memSource w ea usesExt inc s = .ok { loc := some (.mem ea), val := s.load w ea, usesExt := usesExt, autoInc := inc } := by
  simp only [memSource, memRead_of_aligned s h]

/-- A memory destination at an aligned address is the value loaded there (R115). -/
theorem memDest_of_aligned : memDest w ea s = .ok { loc := .mem ea, val := s.load w ea, usesExt := true } := by
  simp only [memDest, memRead_of_aligned s h]

end Aligned

/-! ## Steps that fault before any instruction -/

theorem oddAddr_eq_true_iff {a : Word} : oddAddr a = true ↔ a.toNat % 2 = 1 := by
  rw [oddAddr_eq_decide, decide_eq_true_iff]

/-- A running machine at an odd PC takes the fetch fault, whose record holds no word (R101). -/
theorem step_of_odd {s : State} (hl : s.faultLatch = none) (ho : oddAddr (s.reg .pc) = true) :
    step s = .next (latched .misalignedFetch 0 s) := by
  rw [step_eq hl, ho]
  rfl

/-- A running machine at an even PC takes the fault of three words that decode to no instruction (R102). -/
theorem step_of_decode_error {s : State} {e : DecodeError} (hl : s.faultLatch = none) (ho : oddAddr (s.reg .pc) = false)
    (hd : decode (s.word (s.reg .pc)) (s.word (s.reg .pc + 2)) (s.word (s.reg .pc + 4)) = .error e) :
    step s = .next (latched .illegalEncoding (s.word (s.reg .pc)) s) := by
  rw [step_eq hl, ho, hd]
  rfl

/-! ## The obligations -/

/-- Settles O8: the register, constant and faulting forms by computation, each memory form as the aligned access at its
address. -/
theorem operandFormsResolve : Obligations.OperandFormsResolve := by
  intro w s r x v ea k
  refine ⟨rfl, rfl, rfl, rfl, rfl, rfl, rfl, fun h => ⟨?absolute, ?indexed, ?indirect, ?dstAbsolute, ?dstIndexed⟩⟩
  case absolute => exact memSource_of_aligned s h true none
  case indexed => rintro rfl; exact memSource_of_aligned s h true none
  case indirect =>
    rintro rfl
    exact ⟨memSource_of_aligned s h false none, memSource_of_aligned s h false (some (r, autoIncStep w r))⟩
  case dstAbsolute => exact memDest_of_aligned s h
  case dstIndexed => rintro rfl; exact memDest_of_aligned s h

/-- Settles O38: the step of a running machine at an even PC. -/
theorem stepRunsTheDecodedInstruction : Obligations.StepRunsTheDecodedInstruction :=
  fun _ _ hl heven hd => step_of_decode hl (oddAddr_eq_false_iff.mpr heven) hd

/-- Settles O39: the two faults that end a step before `exec`. -/
theorem stepFaultsBeforeAnyInstruction : Obligations.StepFaultsBeforeAnyInstruction :=
  fun _ hl => ⟨fun hodd => step_of_odd hl (oddAddr_eq_true_iff.mpr hodd),
    fun _ heven hd => step_of_decode_error hl (oddAddr_eq_false_iff.mpr heven) hd⟩

end Sys2Proof.Machine
end

section
/-! PROOFS. The family 41_single_operand.md: the rows of the ALU1 table in figures, the operand that takes the result of RRC,
SWPB, RRA and SXT, the stack write of PUSH and CALL, RETI, and the return from a CALL. -/

namespace Sys2Proof.Machine

/-! ## The ALU1 table in figures -/

theorem two_mul_half_modulus (w : Width) : 2 * (w.modulus / 2) = w.modulus := by cases w <;> rfl

/-- Half of a value of width w leaves room for one bit more, at the top. -/
theorem half_add_topBit_lt {w : Width} {n : Nat} (h : n < w.modulus) (b : Bool) :
    n / 2 + (if b then w.modulus / 2 else 0) < w.modulus := by
  have := two_mul_half_modulus w
  split <;> omega

/-- The value RRC and RRA leave: half of `v`, with `b` entering at bit w − 1 (R141, R143). -/
def shiftedRight (w : Width) (v : Word) (b : Bool) : Word :=
  BitVec.ofNat 16 (v.toNat / 2 + if b then w.modulus / 2 else 0)

theorem toNat_shiftedRight {w : Width} {v : Word} (h : v.toNat < w.modulus) (b : Bool) :
    (shiftedRight w v b).toNat = v.toNat / 2 + if b then w.modulus / 2 else 0 := by
  have hle : w.modulus ≤ 2 ^ 16 := by cases w <;> decide
  rw [shiftedRight, BitVec.toNat_ofNat, Nat.mod_eq_of_lt ((half_add_topBit_lt h b).trans_le hle)]

theorem toNat_shiftedRight_lt {w : Width} {v : Word} (h : v.toNat < w.modulus) (b : Bool) :
    (shiftedRight w v b).toNat < w.modulus :=
  toNat_shiftedRight h b ▸ half_add_topBit_lt h b

/-- The bit that enters is the sign bit of what is left. -/
theorem msb_shiftedRight {w : Width} {v : Word} (h : v.toNat < w.modulus) (b : Bool) : w.msb (shiftedRight w v b) = b := by
  rw [Width.msb_eq_decide (toNat_shiftedRight_lt h b), toNat_shiftedRight h]
  cases b
  · have := two_mul_half_modulus w
    exact decide_eq_false (by rw [if_neg Bool.false_ne_true]; omega)
  · simp

theorem trunc_shiftedRight {w : Width} {v : Word} (h : v.toNat < w.modulus) (b : Bool) :
    w.trunc (shiftedRight w v b) = shiftedRight w v b :=
  (w.trunc_eq_self_iff _).mpr (toNat_shiftedRight_lt h b)

/-- Bit w − 1 lies above every bit of half a value of width w, so joining the two adds them. -/
theorem topBit_or_half {w : Width} {v : Word} (h : v.toNat < w.modulus) (b : Bool) :
    ((if b then 1#16 else 0#16) <<< (w.bits - 1)) ||| (v >>> 1) = shiftedRight w v b := by
  apply BitVec.eq_of_toNat_eq
  rw [toNat_shiftedRight h]
  cases b
  · simp [Nat.shiftRight_eq_div_pow]
  · have hhalf : (v >>> 1).toNat = v.toNat / 2 := by simp [Nat.shiftRight_eq_div_pow]
    have htop : ((1#16) <<< (w.bits - 1)).toNat = 2 ^ (w.bits - 1) * 1 := by cases w <;> rfl
    have hmod : 2 ^ (w.bits - 1) = w.modulus / 2 := by cases w <;> rfl
    have hlt : v.toNat / 2 < 2 ^ (w.bits - 1) := by
      have := two_mul_half_modulus w
      omega
    rw [if_pos rfl, BitVec.toNat_or, htop, hhalf, ← Nat.two_pow_add_eq_or_of_lt hlt, hmod, if_pos rfl, Nat.mul_one, Nat.add_comm]

/-- R141 in figures: the carry enters at the top, bit 0 is the new carry. -/
theorem rrcW_eq {w : Width} {v : Word} (h : v.toNat < w.modulus) (c : Bool) :
    rrcW w v c =
      { value := shiftedRight w v c
        flags := { c := some (decide (v.toNat % 2 = 1)), z := some (decide (shiftedRight w v c = 0))
                   n := some c, v := some false } } := by
  simp only [rrcW, topBit_or_half h, shiftFlags, msb_shiftedRight h, getLsbD_eq_decide, pow_zero, Nat.div_one]

/-- RRA is RRC with the sign bit in the place of the carry (R143). -/
theorem rraW_eq_rrcW (w : Width) (v : Word) : rraW w v = rrcW w v (w.msb v) := by
  have hbit : v &&& (1#16 <<< (w.bits - 1)) = (if w.msb v then 1#16 else 0#16) <<< (w.bits - 1) := by
    have hmsb : v.getLsbD (w.bits - 1) = w.msb v := by cases w <;> rfl
    rw [← BitVec.twoPow_eq, BitVec.and_twoPow, hmsb, BitVec.twoPow_eq]
    cases w.msb v <;> simp
  simp only [rraW, rrcW, hbit]

/-- R142 in figures. -/
theorem swpbW_eq (v : Word) : swpbW v = { value := BitVec.ofNat 16 (v.toNat % 256 * 256 + v.toNat / 256), flags := {} } := by
  have hv := v.isLt
  have hval : (v.extractLsb' 0 8 ++ v.extractLsb' 8 8 : Word) = BitVec.ofNat 16 (v.toNat % 256 * 256 + v.toNat / 256) := by
    apply BitVec.eq_of_toNat_eq
    rw [toNat_append, BitVec.extractLsb'_toNat, toNat_extract_top v 8 8 rfl, BitVec.toNat_ofNat, Nat.shiftRight_zero]
    omega
  rw [swpbW, hval]

/-- The value SXT leaves: the low byte of `v`, 0xFF00 more where its sign bit is set (R144). -/
def signExtended (v : Word) : Word :=
  BitVec.ofNat 16 (if v.toNat % 256 < 128 then v.toNat % 256 else 0xFF00 + v.toNat % 256)

theorem toNat_signExtended (v : Word) :
    (signExtended v).toNat = if v.toNat % 256 < 128 then v.toNat % 256 else 0xFF00 + v.toNat % 256 := by
  rw [signExtended, BitVec.toNat_ofNat]
  split <;> omega

/-- R144 in figures. -/
theorem sxtW_eq (v : Word) :
    sxtW v =
      { value := signExtended v
        flags := { c := some (decide (v.toNat % 256 ≠ 0)), z := some (decide (v.toNat % 256 = 0))
                   n := some (decide (128 ≤ v.toNat % 256)), v := some false } } := by
  have hlow : (v.extractLsb' 0 8).toNat = v.toNat % 256 := by rw [BitVec.extractLsb'_toNat, Nat.shiftRight_zero]
  have hval : (v.extractLsb' 0 8).signExtend 16 = signExtended v := by
    apply BitVec.eq_of_toNat_eq
    rw [BitVec.toNat_signExtend, BitVec.toNat_setWidth, BitVec.msb_eq_decide, hlow, toNat_signExtended]
    simp only [decide_eq_true_eq]
    split <;> split <;> omega
  have hzero : signExtended v = 0 ↔ v.toNat % 256 = 0 := by
    rw [← BitVec.toNat_inj, toNat_signExtended]
    simp only [BitVec.ofNat_eq_ofNat, BitVec.toNat_ofNat]
    split <;> omega
  have hsign : Width.msb .word (signExtended v) = decide (128 ≤ v.toNat % 256) := by
    rw [Width.msb_eq_decide (w := .word) (signExtended v).isLt, toNat_signExtended]
    refine decide_eq_decide.mpr ?_
    simp only [Width.modulus, Width.bits]
    split <;> omega
  simp only [sxtW, logicFlags, hval, hsign, ne_eq, hzero]

/-- A resolved operand is a value of its width. -/
theorem toNat_val_lt {w : Width} {op : SrcOp} {s : State} {sv : SrcStage} (h : resolveSrc w op s = .ok sv) :
    sv.val.toNat < w.modulus := by
  obtain ⟨_, _, _, _, _, htrunc⟩ := resolveSrc_ok h
  exact Width.toNat_lt_of_trunc htrunc

/-! ## RRC, SWPB, RRA and SXT: the result goes to the operand -/

/-- An effect whose result is not a nonzero value for R3 passes the checks of stage 5; one whose result is fails them. -/
theorem checked_of_result {e : Effect} {loc : Loc} {w : Width} {v : Word} (s : State) (hp : e.push = none)
    (hr : e.result = some (loc, w, v)) :
    e.checked s = if loc = .reg .cg ∧ w.trunc v ≠ 0 then .error .constantRegisterWrite else .ok e := by
  simp only [Effect.checked, hp, Effect.resultFor, hr, Option.any_none, Bool.false_eq_true, if_false]
  cases loc with
  | reg r => by_cases h : r = .cg <;> simp [h]
  | mem ea => simp

/-- The three rules of a single-operand instruction that writes its own operand, from its row `a` of the ALU1 table (R140,
decision D12, R122). -/
theorem single_rules {i : Instr} {w : Width} {op : SrcOp} {alu : Word → AluResult} {s : State} {sv : SrcStage} {a : AluResult}
    (hm : Meets s i.firstWord (singleOutcome w op alu s) (exec i s)) (h2 : resolveSrc w op s = .ok sv) (ha : alu sv.val = a)
    (ht : w.trunc a.value = a.value) :
    (sv.loc = none → Faults i s .noOperandLocation) ∧
    (∀ loc, sv.loc = some loc → (loc = .reg .cg → a.value = 0) →
      Completes i s
        { extWords := sv.usesExt.toNat, autoInc := sv.autoInc, result := some (loc, w, a.value), flags := a.flags }) ∧
    (sv.loc = some (.reg .cg) → a.value ≠ 0 → Faults i s .constantRegisterWrite) := by
  simp only [singleOutcome, h2, ha] at hm
  refine ⟨fun hl => ?_, fun loc hl hcg => ?_, fun hl hne => ?_⟩
  · rwa [hl] at hm
  · simp only [hl] at hm
    rw [checked_of_result s rfl rfl, ht, if_neg fun h => h.2 (hcg h.1)] at hm
    obtain ⟨t, ht, hleaves⟩ := hm
    exact completes_of_leaves ht hleaves
  · simp only [hl] at hm
    rwa [checked_of_result s rfl rfl, ht, if_pos ⟨rfl, hne⟩] at hm

/-! ## PUSH and CALL: the stack write -/

/-- The three forms that table R145 leaves unsettled. -/
theorem pushUnsettled_iff {w : Width} {op : SrcOp} :
    pushUnsettled w op = true ↔ op = .reg .sp ∨ op = .indirectInc .sp ∨ (w = .byte ∧ ∃ r, op = .reg r) := by
  cases op <;> simp [pushUnsettled]

theorem oddAddr_sub_two (a : Word) : oddAddr (a - 2) = oddAddr a := by
  rw [oddAddr_eq_decide, oddAddr_eq_decide, decide_eq_decide]
  have : (a - 2).toNat = (65536 - 2 + a.toNat) % 65536 := BitVec.toNat_sub a 2
  omega

/-- The stack moves by 2, so a stack write faults by SP as it was before the instruction. -/
theorem misaligned_sub_two (w : Width) (a : Word) : misaligned w (a - 2) = misaligned w a := by
  cases w
  · exact oddAddr_sub_two a
  · rfl

/-- No operand but `@SP+` auto-increments SP. -/
theorem autoInc_ne_sp {w : Width} {op : SrcOp} {s : State} {sv : SrcStage} (h2 : resolveSrc w op s = .ok sv)
    (hne : op ≠ .indirectInc .sp) (k : Word) : sv.autoInc ≠ some (.sp, k) := by
  intro hk
  have hinc := incReg_of_autoInc h2 hk
  cases op <;> cases hinc
  exact hne rfl

/-- An effect that pushes and has no result fails the checks of stage 5 exactly where the stack write is misaligned. -/
theorem checked_of_push {e : Effect} {w : Width} {v : Word} {s : State} (hp : e.push = some (w, v)) (hr : e.result = none)
    (hi : ∀ k, e.autoInc ≠ some (.sp, k)) :
    e.checked s = if misaligned w (s.reg .sp) = true then .error .misalignedAccess else .ok e := by
  have hsp : misaligned w (e.midway s .sp) = misaligned w (s.reg .sp) := by
    rw [midway_sp_of_push (by rw [hp]; rfl) hi, misaligned_sub_two]
  simp [Effect.checked, hp, hsp, Effect.resultFor, hr]

/-- The rules of an instruction whose outcome is a checked push. -/
theorem push_rules {i : Instr} {e : Effect} {w : Width} {v : Word} {s : State}
    (hm : Meets s i.firstWord (e.checked s) (exec i s)) (hp : e.push = some (w, v)) (hr : e.result = none)
    (hi : ∀ k, e.autoInc ≠ some (.sp, k)) :
    (misaligned w (s.reg .sp) = true → Faults i s .misalignedAccess) ∧ (¬misaligned w (s.reg .sp) = true → Completes i s e) := by
  rw [checked_of_push hp hr hi] at hm
  refine ⟨fun h => ?_, fun h => ?_⟩
  · rwa [if_pos h] at hm
  · rw [if_neg h] at hm
    obtain ⟨t, ht, hl⟩ := hm
    exact completes_of_leaves ht hl

/-! ## RETI -/

theorem firstWord_reti (low : BitVec 7) : (Instr.reti low).firstWord = BitVec.ofNat 16 (0x1300 + low.toNat) := by
  apply BitVec.eq_of_toNat_eq
  have hw : (Instr.reti low).firstWord.toNat = 0x1300 + low.toNat := reti_toNat low
  have := low.isLt
  rw [hw, BitVec.toNat_ofNat]
  omega

/-! ## Return from a CALL -/

/-- The word a completed push left on the stack is read back there. -/
theorem word_of_push {s t : State} {e : Effect} {v : Word} (hb : ∀ a, t.byte a = e.byteAfter s a) (hr : e.result = none)
    (hp : e.push = some (.word, v)) : t.word (e.midway s .sp) = v := by
  have hlow : t.byte (e.midway s .sp) = lowByte v := by
    simp [hb, Effect.byteAfter, Effect.resultByte, hr, Effect.stackByte, hp, storedByte]
  have hhigh : t.byte (e.midway s .sp + 1) = highByte v := by
    simp [hb, Effect.byteAfter, Effect.resultByte, hr, Effect.stackByte, hp, storedByte]
  rw [State.word, hlow, hhigh, wordOfBytes_low_high]

/-- The effect of CALL. -/
def callEffect (sv : SrcStage) (s : State) : Effect :=
  { extWords := sv.usesExt.toNat, autoInc := sv.autoInc, push := some (.word, s.reg .pc + 2), newValue := some sv.val }

/-- `MOV @SP+,PC` on an aligned stack continues 2 bytes past the word on it and drops it (R148, R126). -/
theorem exec_return {s : State} (hs : s.mem.wf = true) (ho : oddAddr (s.reg .sp) = false) :
    ∃ t, exec (.mov .word (.indirectInc .sp) (.reg .pc)) s = .next t ∧ t.reg .pc = s.word (s.reg .sp) + 2 ∧
      t.reg .sp = s.reg .sp + 2 := by
  have hsrc : resolveSrc .word (.indirectInc .sp) s = .ok _ := memSource_of_aligned (w := .word) s ho false (some (.sp, 2))
  have hdst : resolveDst .word (.reg .pc) s = .ok { loc := .reg .pc, val := s.reg .pc, usesExt := false } := rfl
  obtain ⟨t, ht, _, _, hreg, _⟩ := runDouble_toDest (w0 := (Instr.mov .word (.indirectInc .sp) (.reg .pc)).firstWord)
    (alu := fun sv _ => { value := sv.val, flags := {} }) hs hsrc hdst nofun
  refine ⟨t, ht, (hreg .pc).trans ?_, (hreg .sp).trans ?_⟩
  · rfl
  · simp [doubleEffect, stageEffect, toDest, Effect.regAfter, Effect.resultFor, Effect.midway, Effect.incFor]

/-! ## The obligations -/

/-- Settles O28, from RRC's row of the ALU1 table. -/
theorem rrcRotatesThroughCarry : Obligations.RrcRotatesThroughCarry := by
  intro w op s sv hs h2
  have hv := toNat_val_lt h2
  exact single_rules (i := .rrc w op) (runSingle_meets (alu := fun v => rrcW w v s.flagC) _ hs) h2 (rrcW_eq hv s.flagC)
    (trunc_shiftedRight hv s.flagC)

/-- Settles O29, from SWPB's row of the ALU1 table. -/
theorem swpbSwapsTheBytes : Obligations.SwpbSwapsTheBytes :=
  fun op _ sv hs h2 => single_rules (i := .swpb op) (runSingle_meets _ hs) h2 (swpbW_eq sv.val) rfl

/-- Settles O30: RRA is RRC with the sign bit entering. -/
theorem rraShiftsKeepingTheSign : Obligations.RraShiftsKeepingTheSign := by
  intro w op s sv hs h2
  have hv := toNat_val_lt h2
  exact single_rules (i := .rra w op) (runSingle_meets _ hs) h2 ((rraW_eq_rrcW w sv.val).trans (rrcW_eq hv _))
    (trunc_shiftedRight hv _)

/-- Settles O31, from SXT's row of the ALU1 table. -/
theorem sxtExtendsTheSign : Obligations.SxtExtendsTheSign :=
  fun op _ sv hs h2 => single_rules (i := .sxt op) (runSingle_meets _ hs) h2 (sxtW_eq sv.val) rfl

/-- Settles O32: the outcome of PUSH is the unsettled forms' fault or its checked stack write. -/
theorem pushStoresTheOperand : Obligations.PushStoresTheOperand := by
  intro w op s sv hs hc h2
  have hm := push_meets (w := w) (op := op) hs hc
  simp only [outcome, h2] at hm
  refine ⟨fun hu => ?unsettled, fun hu hodd => ?odd, fun hu hodd => ?settled⟩
  case unsettled => rwa [if_pos (pushUnsettled_iff.mpr hu)] at hm
  all_goals
    rw [if_neg (mt pushUnsettled_iff.mp hu)] at hm
    obtain ⟨hfaults, hcompletes⟩ := push_rules hm rfl rfl (autoInc_ne_sp h2 fun h => hu (.inr (.inl h)))
  case odd => exact hfaults (misaligned_eq_true_iff.mpr hodd)
  case settled => exact hcompletes (mt misaligned_eq_true_iff.mp hodd)

/-- Settles O33: the outcome of CALL is one of its two own faults or its checked stack write. -/
theorem callStoresTheReturnAddress : Obligations.CallStoresTheReturnAddress := by
  intro op s sv hs h2
  have hm := call_meets (op := op) hs
  simp only [outcome, h2] at hm
  refine ⟨fun hinc => ?unsettled, fun hinc hzero => ?zero, fun hinc hzero hodd => ?odd, fun hinc hzero hodd => ?completes⟩
  case unsettled => rwa [if_pos hinc] at hm
  case zero => rwa [if_neg hinc, if_pos hzero] at hm
  all_goals
    rw [if_neg hinc, if_neg hzero] at hm
    obtain ⟨hfaults, hcompletes⟩ := push_rules hm rfl rfl (autoInc_ne_sp h2 hinc)
  case odd => exact hfaults (oddAddr_eq_true_iff.mpr hodd)
  case completes => exact hcompletes (mt oddAddr_eq_true_iff.mp hodd)

/-- Settles O34: RETI's words are those that decode to RETI, and its meaning is the fault. -/
theorem retiIsUnsupported : Obligations.RetiIsUnsupported := by
  refine ⟨fun low s => ?_, fun s hl heven hlo hhi => ?_⟩
  · rw [← firstWord_reti]; rfl
  · obtain ⟨low, hd⟩ := decode_reti_iff (w1 := s.word (s.reg .pc + 2)) (w2 := s.word (s.reg .pc + 4)) |>.mpr ⟨hlo, hhi⟩
    have hw : (Instr.reti low).firstWord = s.word (s.reg .pc) := (decode_eq_ok_iff.mp hd).firstWord
    rw [step_of_decode hl (oddAddr_eq_false_iff.mpr heven) hd, ← hw]
    rfl

/-- Settles O49: CALL leaves pc + 2 at SP − 2, and the return continues 2 bytes past the word it finds there. -/
theorem returnContinuesAfterTheCall : Obligations.ReturnContinuesAfterTheCall := by
  intro s t u op sv hs hu heven _ hinc h2 hval hcall husp hword
  obtain ⟨_, _, _, hcompletes⟩ := callStoresTheReturnAddress op s sv hs h2
  obtain ⟨t', ht', _, hreg, hbyte⟩ := hcompletes hinc hval (by omega)
  obtain rfl : t' = t := Host.Outcome.next.inj (ht'.symm.trans hcall)
  have hmid : (callEffect sv s).midway s .sp = s.reg .sp - 2 := midway_sp_of_push rfl (autoInc_ne_sp h2 hinc)
  have hsp : t'.reg .sp = s.reg .sp - 2 := (hreg .sp).trans hmid
  have hstack : t'.word (s.reg .sp - 2) = s.reg .pc + 2 := hmid ▸ word_of_push (e := callEffect sv s) hbyte rfl rfl
  have hodd : oddAddr (u.reg .sp) = false := by rw [husp, hsp, oddAddr_sub_two, oddAddr_eq_false_iff, heven]
  obtain ⟨x, hx, hxpc, hxsp⟩ := exec_return hu hodd
  refine ⟨hreg .pc, x, hx, ?_, ?_⟩
  · rw [hxpc, hword, hsp, hstack, BitVec.add_assoc]; rfl
  · rw [hxsp, husp, hsp, BitVec.sub_add_cancel]

end Sys2Proof.Machine
end

section
/-! PROOFS. The family 42_jumps.md: what a jump does, by its condition; `JMP $`; and the conditions after CMP, which are the
order of its operands because the sign bit of a difference, corrected by its overflow, is the sign of the exact difference. -/

namespace Sys2Proof

/-! ## Signed values -/

/-- A signed value is in the range of its width. -/
theorem Width.signed_range {w : Width} {d : Word} (hd : d.toNat < w.modulus) :
    -(w.modulus : Int) ≤ 2 * w.signed d ∧ 2 * w.signed d < (w.modulus : Int) := by
  rw [w.signed_eq hd]
  split <;> omega

/-- A signed value is its word's value modulo 2^w. -/
theorem Width.signed_emod {w : Width} {d : Word} (hd : d.toNat < w.modulus) :
    w.signed d % (w.modulus : Int) = (d.toNat : Int) % (w.modulus : Int) := by
  rw [w.signed_eq hd]
  split
  · rfl
  · exact Int.sub_emod_right _ _

end Sys2Proof

namespace Sys2Proof.Machine

/-! ## Jumps -/

theorem exec_jump_eq (cond : JumpCond) (offset : BitVec 10) (s : State) :
    exec (cond.instr offset) s = runJump (cond.instr offset).firstWord cond offset s := by cases cond <;> rfl

/-- An instruction that only moves PC has that effect, in canonical memory or not: `leaves_newValue` needs canonical memory
for memory's form alone, and the registers of a state with no memory are the same. -/
theorem completes_newValue {i : Instr} {s : State} (v : Option Word)
    (h : exec i s = .next (s.setReg .pc (v.getD (s.reg .pc) + 2))) : Completes i s { newValue := v } := by
  obtain ⟨_, _, hreg, _⟩ := leaves_newValue (s := { s with mem := [] }) rfl v
  exact ⟨_, h, rfl, hreg, fun _ => rfl⟩

/-- The rule of each jump (R160), by its condition of table R161. -/
theorem jumpsWhen_holds (cond : JumpCond) (offset : BitVec 10) (s : State) :
    JumpsWhen (cond.instr offset) offset s (cond.holds s) := by
  have h := (exec_jump_eq cond offset s).trans (runJump_eq _ _ _ _)
  rw [jumpValue_eq_ofInt] at h
  refine ⟨fun hc => completes_newValue none ?_, fun hc h0 => ?_, fun hc h0 => completes_newValue (some _) ?_⟩
  · rw [h, hc]; rfl
  · rw [Faults, h, if_pos hc, if_pos h0]
  · rw [h, if_pos hc, if_neg h0]; rfl

/-! ## `JMP $` -/

/-- 0x3FFF is a JMP with the offset −1. -/
theorem firstWord_selfJump : (Instr.jmp (-1)).firstWord = 0x3FFF := by decide

theorem decode_selfJump (w1 w2 : Word) : decode 0x3FFF w1 w2 = .ok (.jmp (-1)) := by
  rw [← firstWord_selfJump]
  exact decode_jumpWord .always (-1) w1 w2

/-- The new value of `JMP $` names the word before PC, so that the jump continues at PC itself. -/
theorem jumpValue_neg_one (s : State) : jumpValue (-1) s = s.reg .pc - 2 := by
  have hoff : (2 : Word) * (-1 : BitVec 10).signExtend 16 = -2 := by decide
  rw [jumpValue, hoff, BitVec.sub_eq_add_neg]

theorem exec_selfJump (s : State) :
    exec (.jmp (-1)) s = if s.reg .pc = 2 then .next (latched .zeroTransferTarget 0x3FFF s) else .next s := by
  have h : exec (.jmp (-1)) s = runJump 0x3FFF .always (-1) s := firstWord_selfJump ▸ exec_jump_eq .always (-1) s
  have hzero : s.reg .pc - 2 = 0 ↔ s.reg .pc = 2 := sub_eq_zero
  rw [h, runJump_eq, if_pos (show JumpCond.always.holds s = true from rfl), jumpValue_neg_one, BitVec.sub_add_cancel,
    State.setReg_reg]
  simp only [hzero]

/-! ## CMP -/

/-- No form of table R67 auto-increments SR. -/
theorem autoInc_ne_sr {w : Width} {src : SrcOp} {s : State} {sv : SrcStage} (hw : src.wf = true)
    (h2 : resolveSrc w src s = .ok sv) (k : Word) : sv.autoInc ≠ some (.sr, k) :=
  fun hk => absurd (SrcOp.sourceBase_of_incReg hw (incReg_of_autoInc h2 hk)) (by decide)

/-- A flags-only instruction leaves SR with its flag updates, and no more. -/
theorem regAfter_sr_of_flagsOnly {w : Width} {src : SrcOp} {s : State} {sv : SrcStage} (hw : src.wf = true)
    (h2 : resolveSrc w src s = .ok sv) (dv : DstStage) (a : AluResult) :
    (doubleEffect w sv dv (flagsOnly a)).regAfter s .sr = a.flags.apply (s.reg .sr) := by
  have hinc : (doubleEffect w sv dv (flagsOnly a)).incFor .sr = 0 := by
    rcases hi : sv.autoInc with _ | ⟨r, k⟩
    · simp [Effect.incFor, doubleEffect, stageEffect, hi]
    · have hr : r ≠ .sr := by rintro rfl; exact autoInc_ne_sr hw h2 k hi
      simp [Effect.incFor, doubleEffect, stageEffect, hi, hr]
  have hres : (doubleEffect w sv dv (flagsOnly a)).resultFor .sr = none := rfl
  simp only [Effect.regAfter, Effect.midway, hinc, hres]
  simp [doubleEffect, stageEffect, flagsOnly]

/-- CMP completes where its operands resolve, with the flags of dst − src in SR (R190). -/
theorem exec_cmp {w : Width} {src : SrcOp} {dst : DstOp} {s : State} {sv : SrcStage} {dv : DstStage} (hs : s.mem.wf = true)
    (hw : src.wf = true) (h2 : resolveSrc w src s = .ok sv) (h3 : resolveDst w dst s = .ok dv) :
    ∃ t, exec (.cmp w src dst) s = .next t ∧ t.reg .sr = (subW w dv.val sv.val false).flags.apply (s.reg .sr) := by
  obtain ⟨t, ht, _, _, hreg, _⟩ := runDouble_flagsOnly (w0 := (Instr.cmp w src dst).firstWord)
    (alu := fun sv dv => subW w dv.val sv.val false) hs h2 h3
  exact ⟨t, ht, (hreg .sr).trans (regAfter_sr_of_flagsOnly hw h2 dv _)⟩

/-! ## The flags of a difference -/

section Difference

variable {w : Width} {d s : Word}

/-- Carry of a difference is no borrow: an unsigned comparison. -/
theorem subW_flags_c : (subW w d s false).flags.c = some (decide (s.toNat ≤ d.toNat)) := by
  simp only [subW, Option.some.injEq]
  exact decide_eq_decide.mpr (by simp)

variable (hd : d.toNat < w.modulus) (hs : s.toNat < w.modulus)
include hd

/-- The sign bit of a number narrowed to width w, corrected by its overflow, is the number's own sign, for every number that a
difference of two signed values can be. -/
theorem msb_xor_signedOverflow {x : Int} (hx : (d.toNat : Int) = x % (w.modulus : Int)) (hlo : -(w.modulus : Int) < x)
    (hhi : x < (w.modulus : Int)) : (w.msb d ^^ signedOverflow w x) = decide (x < 0) := by
  rw [Width.msb_eq_decide hd, signedOverflow_eq_decide, Bool.eq_iff_iff]
  simp only [Bool.xor_iff_ne, ne_eq, decide_eq_decide, decide_eq_true_eq]
  rcases w.modulus_cases with ⟨_, hm⟩ | ⟨_, hm⟩ <;> rw [hm] at hx hlo hhi ⊢ <;> omega

include hs

/-- Z of a difference is equality. -/
theorem subW_flags_z : (subW w d s false).flags.z = some (decide (d = s)) := by
  have hval := w.toNat_ofInt_mod ((d.toNat : Int) - s.toNat)
  simp only [subW, Option.some.injEq, Bool.toNat_false, Nat.cast_zero, sub_zero]
  rw [decide_eq_decide, ← BitVec.toNat_inj, ← BitVec.toNat_inj, BitVec.ofNat_eq_ofNat, BitVec.toNat_ofNat, Nat.zero_mod]
  rcases w.modulus_cases with ⟨_, hm⟩ | ⟨_, hm⟩ <;> rw [hm] at hval hd hs ⊢ <;> omega

/-- N and V of a difference differ exactly where it is negative: a signed comparison. -/
theorem subW_flags_n_xor_v : ∃ n v, (subW w d s false).flags.n = some n ∧ (subW w d s false).flags.v = some v ∧
    (n ^^ v) = decide (w.signed d < w.signed s) := by
  refine ⟨_, _, rfl, rfl, ?_⟩
  obtain ⟨hdlo, hdhi⟩ := Width.signed_range hd
  obtain ⟨hslo, hshi⟩ := Width.signed_range hs
  simp only [Bool.toNat_false, Nat.cast_zero, sub_zero]
  have hval : ((d.toNat : Int) - s.toNat) % (w.modulus : Int) = (w.signed d - w.signed s) % (w.modulus : Int) := by
    rw [Int.sub_emod, ← Width.signed_emod hd, ← Width.signed_emod hs, ← Int.sub_emod]
  rw [msb_xor_signedOverflow (Width.toNat_lt_of_trunc (w.trunc_ofInt_mod _)) ((w.toNat_ofInt_mod _).trans hval) (by omega)
    (by omega), decide_eq_decide, sub_neg]

end Difference

/-! ## The obligations -/

/-- Settles O35: each of the eight is its condition's jump, and GE is N = V. -/
theorem jumpsFollowTheirConditions : Obligations.JumpsFollowTheirConditions := by
  intro offset s
  have hge : (s.flagN == s.flagV) = JumpCond.ge.holds s := (Bool.not_not _).symm
  rw [hge]
  exact ⟨jumpsWhen_holds .ne offset s, jumpsWhen_holds .eq offset s, jumpsWhen_holds .nc offset s, jumpsWhen_holds .c offset s,
    jumpsWhen_holds .n offset s, jumpsWhen_holds .ge offset s, jumpsWhen_holds .l offset s, jumpsWhen_holds .always offset s⟩

/-- Settles O48: the new value of `JMP $` is PC − 2, which is 0 at PC = 2 alone. -/
theorem selfJumpIsAFixedPoint : Obligations.SelfJumpIsAFixedPoint := by
  intro s hl heven hword
  have hstep : step s = exec (.jmp (-1)) s :=
    step_of_decode hl (oddAddr_eq_false_iff.mpr heven) (hword ▸ decode_selfJump _ _)
  rw [hstep, exec_selfJump]
  exact ⟨fun hpc => if_neg hpc, fun hpc => by rw [if_pos hpc, latched, hpc]⟩

/-- Settles O50: C, Z and N ≠ V of dst − src are the unsigned order, equality and the signed order. -/
theorem compareThenBranch : Obligations.CompareThenBranch := by
  intro w src dst s sv dv hs hw h2 h3
  obtain ⟨t, ht, hsr⟩ := exec_cmp (dst := dst) hs hw h2 h3
  have hsv := toNat_val_lt h2
  obtain ⟨_, _, _, _, htrunc⟩ := resolveDst_ok h3
  have hdv := Width.toNat_lt_of_trunc htrunc
  have hc : t.flagC = decide (sv.val.toNat ≤ dv.val.toNat) := by rw [flagC_of_sr hsr, subW_flags_c]; rfl
  have hz : t.flagZ = decide (dv.val = sv.val) := by rw [flagZ_of_sr hsr, subW_flags_z hdv hsv]; rfl
  have hnv : (t.flagN ^^ t.flagV) = decide (w.signed dv.val < w.signed sv.val) := by
    obtain ⟨n, v, hn, hv, h⟩ := subW_flags_n_xor_v hdv hsv
    rw [flagN_of_sr hsr, flagV_of_sr hsr, hn, hv]
    exact h
  refine ⟨t, ht, hc, ?_, ?_, hnv, hz, ?_⟩
  · simp only [JumpCond.holds, hc, ← decide_not, not_le]
  · simp only [JumpCond.holds, hnv, ← decide_not, not_lt]
  · simp only [JumpCond.holds, hz, ← decide_not]

end Sys2Proof.Machine
end

section
/-! PROOFS. The family 43_double_operand.md: `AddW` and `SubW` in figures, their chains over register pairs, the destination that
takes the result of a row of the ALU2 table or the flags alone, and DADD. -/

namespace Sys2Proof

/-! ## The complement at a width -/

/-- The complement at width w is the distance to the greatest value of that width. -/
theorem Width.toNat_trunc_not {w : Width} {v : Word} (h : v.toNat < w.modulus) :
    (w.trunc (~~~v)).toNat = w.modulus - 1 - v.toNat := by
  have hv := v.isLt
  rw [w.toNat_trunc, BitVec.toNat_not]
  rcases w.modulus_cases with ⟨_, hm⟩ | ⟨_, hm⟩ <;> rw [hm] at h ⊢ <;> omega

/-- As a signed value, the complement of v is −1 − v. -/
theorem Width.signed_trunc_not {w : Width} {v : Word} (h : v.toNat < w.modulus) : w.signed (w.trunc (~~~v)) = -1 - w.signed v := by
  have hnot := Width.toNat_trunc_not h
  rw [w.signed_eq (by omega), w.signed_eq h, hnot]
  rcases w.modulus_cases with ⟨_, hm⟩ | ⟨_, hm⟩ <;> rw [hm] at h ⊢ <;> split <;> split <;> omega

/-- Truncating one side of a conjunction with a value of width w changes nothing. -/
theorem Width.trunc_and_of_trunc {w : Width} (a : Word) {b : Word} (hb : w.trunc b = b) : w.trunc a &&& b = a &&& b := by
  cases w
  · rfl
  · rw [← hb]
    apply BitVec.eq_of_getLsbD_eq
    intro i hi
    simp only [Width.trunc, BitVec.getLsbD_and, BitVec.getLsbD_setWidth]
    by_cases h : i < 8 <;> simp [h, hi]

namespace Machine

/-! ## The sum and the difference in figures -/

/-- A result `r` of ADD, ADDC, SUB or SUBC with its four flags: C as given, V where the exact signed result `x` is out of range
(R177, R178, decision D9). -/
def arithResult (w : Width) (r : Word) (carry : Bool) (x : Int) : AluResult :=
  { value := r
    flags :=
      { c := some carry, z := some (decide (r = 0)), n := some (w.msb r)
        v := some (decide (x < -(w.modulus / 2 : Int) ∨ (w.modulus / 2 : Int) - 1 < x)) } }

/-- R177, from the exact sum `n` and the exact signed sum `x`. -/
theorem addW_eq {w : Width} {d s : Word} {c : Bool} {n : Nat} {x : Int} (hn : d.toNat + s.toNat + c.toNat = n)
    (hx : w.signed d + w.signed s + (c.toNat : Int) = x) :
    addW w d s c = arithResult w (BitVec.ofNat 16 (n % w.modulus)) (decide (w.modulus ≤ n)) x := by
  subst hn hx
  simp only [addW, arithResult, signedOverflow_eq_decide]

/-- R178, from the exact difference `n` and the exact signed difference `x`. -/
theorem subW_eq {w : Width} {d s : Word} {b : Bool} {n x : Int} (hn : (d.toNat : Int) - s.toNat - (b.toNat : Int) = n)
    (hx : w.signed d - w.signed s - (b.toNat : Int) = x) :
    subW w d s b = arithResult w (BitVec.ofInt 16 (n % (w.modulus : Int))) (decide (0 ≤ n)) x := by
  subst hn hx
  simp only [subW, arithResult, signedOverflow_eq_decide]

/-- R189: without a borrow-in, no borrow occurs exactly where d is at least s. -/
theorem subW_false_eq (w : Width) (d s : Word) :
    subW w d s false = arithResult w (BitVec.ofInt 16 (((d.toNat : Int) - (s.toNat : Int)) % (w.modulus : Int)))
      (decide (s.toNat ≤ d.toNat)) (w.signed d - w.signed s) := by
  have hcarry : (0 ≤ (d.toNat : Int) - (s.toNat : Int)) ↔ s.toNat ≤ d.toNat := by omega
  rw [subW_eq (Int.sub_zero _) (Int.sub_zero _), decide_eq_decide.mpr hcarry]

theorem addW_flags_c (w : Width) (d s : Word) (c : Bool) :
    (addW w d s c).flags.c = some (decide (w.modulus ≤ d.toNat + s.toNat + c.toNat)) := rfl

theorem addW_flags_v (w : Width) (d s : Word) (c : Bool) :
    (addW w d s c).flags.v = some (decide (w.signed d + w.signed s + (c.toNat : Int) < -(w.modulus / 2 : Int) ∨
      (w.modulus / 2 : Int) - 1 < w.signed d + w.signed s + (c.toNat : Int))) :=
  congrArg some (signedOverflow_eq_decide w _)

theorem toNat_addW_value (w : Width) (d s : Word) (c : Bool) :
    (addW w d s c).value.toNat = (d.toNat + s.toNat + c.toNat) % w.modulus := w.toNat_ofNat_mod _

theorem toNat_addW_value_lt (w : Width) (d s : Word) (c : Bool) : (addW w d s c).value.toNat < w.modulus :=
  Width.toNat_lt_of_trunc (trunc_addW_value w d s c)

/-- R178: a difference is the sum with the complement, and no borrow-in is a carry-in. -/
theorem subW_not_eq_addW {w : Width} (d : Word) {s : Word} (hs : s.toNat < w.modulus) (c : Bool) :
    subW w d s (!c) = addW w d (w.trunc (~~~s)) c := by
  have hnot := Width.toNat_trunc_not hs
  have hborrow : ((!c).toNat : Int) = 1 - c.toNat := by cases c <;> rfl
  have hsigned : w.signed d - w.signed s - ((!c).toNat : Int) = w.signed d + w.signed (w.trunc (~~~s)) + (c.toNat : Int) := by
    rw [Width.signed_trunc_not hs, hborrow]
    omega
  have hexact : (d.toNat : Int) - s.toNat - ((!c).toNat : Int) =
      (d.toNat + (w.trunc (~~~s)).toNat + c.toNat : Nat) - w.modulus := by
    omega
  have hvalue : BitVec.ofInt 16 (((d.toNat + (w.trunc (~~~s)).toNat + c.toNat : Nat) - w.modulus : Int) % (w.modulus : Int)) =
      BitVec.ofNat 16 ((d.toNat + (w.trunc (~~~s)).toNat + c.toNat) % w.modulus) := by
    rw [Int.sub_emod_right, ← Int.natCast_emod, BitVec.ofInt_natCast]
  rw [subW_eq hexact hsigned, addW_eq rfl rfl, hvalue]
  congr 1
  exact decide_eq_decide.mpr (by omega)

section Operands

variable {w : Width} {d s : Word} (hd : d.toNat < w.modulus) (hs : s.toNat < w.modulus)
include hd hs

/-- The narrowed sum and its carry, which weighs 2^w, are the exact sum. -/
theorem addW_value_add_carry {c k : Bool} (hk : (addW w d s c).flags.c = some k) :
    (addW w d s c).value.toNat + k.toNat * w.modulus = d.toNat + s.toNat + c.toNat := by
  have hc := c.toNat_le
  rw [addW_flags_c, Option.some.injEq] at hk
  rw [toNat_addW_value]
  cases k
  case true =>
    have h := of_decide_eq_true hk
    rw [Bool.toNat_true, one_mul, Nat.mod_eq_sub_mod h, Nat.mod_eq_of_lt (by omega), Nat.sub_add_cancel h]
  case false =>
    have h := of_decide_eq_false hk
    rw [Bool.toNat_false, zero_mul, add_zero, Nat.mod_eq_of_lt (by omega)]

/-- A sum overflows exactly where its operands have one sign and the result the other (R177). -/
theorem addW_flags_v_eq_msb (c : Bool) :
    (addW w d s c).flags.v = some (decide (w.msb d = w.msb s ∧ w.msb (addW w d s c).value ≠ w.msb d)) := by
  have hc := c.toNat_le
  have hr : w.msb (addW w d s c).value = decide (w.modulus / 2 ≤ (d.toNat + s.toNat + c.toNat) % w.modulus) := by
    rw [Width.msb_eq_decide (toNat_addW_value_lt w d s c), toNat_addW_value]
  rw [addW_flags_v, w.signed_eq hd, w.signed_eq hs]
  simp only [hr, Width.msb_eq_decide hd, Width.msb_eq_decide hs, ne_eq, decide_eq_decide, Option.some.injEq]
  rcases w.modulus_cases with ⟨_, hm⟩ | ⟨_, hm⟩ <;> rw [hm] at hd hs ⊢ <;> split <;> split <;> omega

/-- The flags of dst − src, with Z as equality (R190). -/
theorem subW_flags :
    (subW w d s false).flags =
      { c := some (decide (s.toNat ≤ d.toNat)), z := some (decide (s = d))
        n := some (w.msb (BitVec.ofInt 16 (((d.toNat : Int) - (s.toNat : Int)) % (w.modulus : Int))))
        v := some (decide (w.signed d - w.signed s < -(w.modulus / 2 : Int) ∨
          (w.modulus / 2 : Int) - 1 < w.signed d - w.signed s)) } := by
  have hz : (subW w d s false).flags.z = some (decide (s = d)) :=
    (subW_flags_z hd hs).trans (congrArg some (decide_eq_decide.mpr eq_comm))
  rw [← hz, subW_false_eq]
  rfl

end Operands

/-! ## Chains over register pairs -/

/-- A two-word sum: the carry out of the low words goes into the sum of the high ones, and the carry and the overflow of that
sum are those of the whole, whose exact value is `n` and exact signed value `x` (R185). -/
theorem addW_chain {dh dl sh sl : Word} {c₀ c : Bool} {n : Nat} {x : Int} (hc : (addW .word dl sl c₀).flags.c = some c)
    (hn : dh.toNat * 65536 + dl.toNat + (sh.toNat * 65536 + sl.toNat) + c₀.toNat = n)
    (hx : dh.toInt * 65536 + (dl.toNat : Int) + (sh.toInt * 65536 + (sl.toNat : Int)) + (c₀.toNat : Int) = x) :
    (addW .word dh sh c).value.toNat * 65536 + (addW .word dl sl c₀).value.toNat = n % 2 ^ 32 ∧
      (addW .word dh sh c).flags.c = some (decide (2 ^ 32 ≤ n)) ∧
      (addW .word dh sh c).flags.v = some (decide (x < -2 ^ 31 ∨ 2 ^ 31 ≤ x)) := by
  have hM : Width.modulus .word = 65536 := rfl
  have hlow := addW_value_add_carry (w := .word) dl.isLt sl.isLt hc
  have hlt := (addW .word dl sl c₀).value.isLt
  rw [hM] at hlow
  refine ⟨?value, ?carry, ?overflow⟩
  case value =>
    have hdiv : n / 65536 = dh.toNat + sh.toNat + c.toNat := by omega
    have hmod : n % 65536 = (addW .word dl sl c₀).value.toNat := by omega
    have hsq : (2 : Nat) ^ 32 = 65536 * 65536 := by norm_num
    rw [toNat_addW_value, hM, hsq, Nat.mod_mul, hdiv, hmod, Nat.add_comm, Nat.mul_comm]
  case carry => exact (addW_flags_c _ _ _ _).trans (congrArg some (decide_eq_decide.mpr (by omega)))
  case overflow =>
    have hiff : x < -2 ^ 31 ∨ 2 ^ 31 ≤ x ↔ dh.toInt + sh.toInt + (c.toNat : Int) < -(65536 / 2) ∨
        65536 / 2 - 1 < dh.toInt + sh.toInt + (c.toNat : Int) := by omega
    simp only [addW_flags_v, hM, Width.signed, hiff, Nat.cast_ofNat]

/-- A two-word difference is the two-word sum with the complements and a carry-in (R187). -/
theorem subW_chain {dh dl sh sl : Word} {c : Bool} (hc : (subW .word dl sl false).flags.c = some c) :
    (subW .word dh sh (!c)).value.toNat * 65536 + (subW .word dl sl false).value.toNat =
        (dh.toNat * 65536 + dl.toNat + 2 ^ 32 - (sh.toNat * 65536 + sl.toNat)) % 2 ^ 32 ∧
      (subW .word dh sh (!c)).flags.c = some (decide (sh.toNat * 65536 + sl.toNat ≤ dh.toNat * 65536 + dl.toNat)) := by
  have hlow : subW .word dl sl false = addW .word dl (~~~sl) true := subW_not_eq_addW dl sl.isLt true
  have hhigh : subW .word dh sh (!c) = addW .word dh (~~~sh) c := subW_not_eq_addW dh sh.isLt c
  have hsh := sh.isLt
  have hsl := sl.isLt
  have hn : dh.toNat * 65536 + dl.toNat + ((~~~sh).toNat * 65536 + (~~~sl).toNat) + true.toNat =
      dh.toNat * 65536 + dl.toNat + 2 ^ 32 - (sh.toNat * 65536 + sl.toNat) := by
    rw [BitVec.toNat_not, BitVec.toNat_not, Bool.toNat_true]
    omega
  rw [hlow] at hc ⊢
  rw [hhigh]
  obtain ⟨hvalue, hcarry, _⟩ := addW_chain (dh := dh) (sh := ~~~sh) hc hn rfl
  exact ⟨hvalue, hcarry.trans (congrArg some (decide_eq_decide.mpr (by omega)))⟩

/-- A word instruction on two registers that are neither PC, SR nor R3: its result in the destination, its flags in SR, every
register but those two and PC unchanged. -/
theorem runDouble_reg_reg {w0 : Word} {p q : Reg} {alu : Word → Word → AluResult} {s : State} (hs : s.mem.wf = true)
    (hpc : q ≠ .pc) (hsr : q ≠ .sr) (hcg : q ≠ .cg) :
    ∃ t, runDouble w0 .word (.reg p) (.reg q) (fun sv dv => toDest dv (alu dv.val sv.val)) s = .next t ∧ t.mem.wf = true ∧
      t.reg q = (alu (s.reg q) (s.reg p)).value ∧ t.reg .sr = (alu (s.reg q) (s.reg p)).flags.apply (s.reg .sr) ∧
      ∀ r, r ≠ .pc → r ≠ .sr → r ≠ q → t.reg r = s.reg r := by
  have hsrc : resolveSrc .word (.reg p) s = .ok { loc := some (.reg p), val := s.reg p, usesExt := false, autoInc := none } := rfl
  have hdst : resolveDst .word (.reg q) s = .ok { loc := .reg q, val := s.reg q, usesExt := false } := rfl
  obtain ⟨t, ht, hwf, _, hreg, _⟩ := runDouble_toDest (w0 := w0) (alu := fun sv dv => alu dv.val sv.val) hs hsrc hdst
    fun h => absurd (DstOp.reg.inj h) hcg
  have hkept (r : Reg) : (if r = .sp then s.reg .sp else s.reg r) = s.reg r := ite_eq_right_iff.mpr fun h => h ▸ rfl
  refine ⟨t, ht, hwf, (hreg q).trans ?_, (hreg .sr).trans ?_, fun r hrpc hrsr hrq => (hreg r).trans ?_⟩
  · simp [doubleEffect, stageEffect, toDest, Effect.regAfter, Effect.resultFor, hpc]
  · simp [doubleEffect, stageEffect, toDest, Effect.regAfter, Effect.resultFor, Effect.midway, Effect.incFor, hsr]
  · simp [doubleEffect, stageEffect, toDest, Effect.regAfter, Effect.resultFor, Effect.midway, Effect.incFor, hrpc, hrsr,
      hrq.symm, hkept]

/-- An instruction on R7 and R5, then one on R6 and R4 that takes the C flag the first leaves. -/
theorem exec_chain {i j : Instr} {alu : Bool → Word → Word → AluResult} {c₀ c : Bool} {s : State} (hs : s.mem.wf = true)
    (hi : ∀ s, exec i s =
      runDouble i.firstWord .word (.reg .r7) (.reg .r5) (fun sv dv => toDest dv (alu c₀ dv.val sv.val)) s)
    (hj : ∀ s, exec j s =
      runDouble j.firstWord .word (.reg .r6) (.reg .r4) (fun sv dv => toDest dv (alu s.flagC dv.val sv.val)) s)
    (hc : (alu c₀ (s.reg .r5) (s.reg .r7)).flags.c = some c) :
    ∃ t u, exec i s = .next t ∧ exec j t = .next u ∧ u.reg .r5 = (alu c₀ (s.reg .r5) (s.reg .r7)).value ∧
      u.reg .r4 = (alu c (s.reg .r4) (s.reg .r6)).value ∧
      u.reg .sr = (alu c (s.reg .r4) (s.reg .r6)).flags.apply (t.reg .sr) := by
  obtain ⟨t, ht, hwf, h5, hsr, hframe⟩ := runDouble_reg_reg (w0 := i.firstWord) (p := .r7) (q := .r5) (alu := alu c₀) hs
    nofun nofun nofun
  obtain ⟨u, hu, _, h4, hsr', hframe'⟩ := runDouble_reg_reg (w0 := j.firstWord) (p := .r6) (q := .r4) (alu := alu t.flagC) hwf
    nofun nofun nofun
  have hcarry : t.flagC = c := by rw [flagC_of_sr hsr, hc]; rfl
  rw [hframe .r4 nofun nofun nofun, hframe .r6 nofun nofun nofun, hcarry] at h4 hsr'
  exact ⟨t, u, (hi s).trans ht, (hj t).trans hu, (hframe' .r5 nofun nofun nofun).trans h5, h4, hsr'⟩

/-! ## The result to the destination, or the flags alone -/

/-- A resolved destination is a value of its width. -/
theorem trunc_dst_val {w : Width} {dst : DstOp} {s : State} {dv : DstStage} (h : resolveDst w dst s = .ok dv) :
    w.trunc dv.val = dv.val := by
  obtain ⟨_, _, _, _, htrunc⟩ := resolveDst_ok h
  exact htrunc

theorem trunc_src_val {w : Width} {src : SrcOp} {s : State} {sv : SrcStage} (h : resolveSrc w src s = .ok sv) :
    w.trunc sv.val = sv.val := by
  obtain ⟨_, _, _, _, _, htrunc⟩ := resolveSrc_ok h
  exact htrunc

/-- The location of a destination is R3 for the form R3 alone. -/
theorem dst_loc_eq_cg_iff {w : Width} {dst : DstOp} {s : State} {dv : DstStage} (h : resolveDst w dst s = .ok dv) :
    dv.loc = .reg .cg ↔ dst = .reg .cg := by
  rcases resultReady_dst h with ⟨r, rfl, hl⟩ | ⟨ea, ha, hl, _⟩
  · simp [hl]
  · rw [hl]
    refine ⟨nofun, ?_⟩
    rintro rfl
    cases ha

section Rules

variable {i : Instr} {w : Width} {src : SrcOp} {dst : DstOp} {alu : Word → Word → AluResult} {s : State} {sv : SrcStage}
  {dv : DstStage}

/-- The two rules of a double-operand instruction that writes its destination, from its row `a` of the ALU2 table (R176,
R122). -/
theorem double_rules {a : AluResult} (hm : Meets s i.firstWord (doubleOutcome w src dst true alu s) (exec i s))
    (h2 : resolveSrc w src s = .ok sv) (h3 : resolveDst w dst s = .ok dv) (ha : alu dv.val sv.val = a)
    (ht : w.trunc a.value = a.value) :
    ((dst = .reg .cg → a.value = 0) →
      Completes i s
        { extWords := sv.usesExt.toNat + dv.usesExt.toNat, autoInc := sv.autoInc, result := some (dv.loc, w, a.value)
          flags := a.flags }) ∧
    (dst = .reg .cg → a.value ≠ 0 → Faults i s .constantRegisterWrite) := by
  simp only [doubleOutcome, h2, h3, ha, if_true] at hm
  rw [checked_of_result s rfl rfl, ht] at hm
  simp only [dst_loc_eq_cg_iff h3] at hm
  refine ⟨fun hcg => ?_, fun hl hne => ?_⟩
  · rw [if_neg fun h => h.2 (hcg h.1)] at hm
    obtain ⟨t, ht, hleaves⟩ := hm
    exact completes_of_leaves ht hleaves
  · rwa [if_pos ⟨hl, hne⟩] at hm

/-- The rule of an instruction that only sets flags (R190, R193). -/
theorem flagsOnly_rule {u : FlagUpdate} (hm : Meets s i.firstWord (doubleOutcome w src dst false alu s) (exec i s))
    (h2 : resolveSrc w src s = .ok sv) (h3 : resolveDst w dst s = .ok dv) (hu : (alu dv.val sv.val).flags = u) :
    Completes i s { extWords := sv.usesExt.toNat + dv.usesExt.toNat, autoInc := sv.autoInc, flags := u } := by
  simp only [doubleOutcome, h2, h3, hu] at hm
  obtain ⟨t, ht, hleaves⟩ := hm
  exact completes_of_leaves ht hleaves

end Rules

/-! ## The bitwise rows -/

/-- AND's row, N as both sign bits (R197). -/
theorem andW_eq (w : Width) (d s : Word) :
    andW w d s =
      { value := s &&& d
        flags := { c := some (decide (s &&& d ≠ 0)), z := some (decide (s &&& d = 0)), n := some (w.msb s && w.msb d)
                   v := some false } } := by
  simp only [andW, logicFlags, Width.msb_and]

/-- XOR's row, C and Z as the operands' difference (R196). -/
theorem xorW_eq (w : Width) (d s : Word) :
    xorW w d s =
      { value := s ^^^ d
        flags := { c := some (decide (s ≠ d)), z := some (decide (s = d)), n := some (w.msb s ^^ w.msb d)
                   v := some (w.msb s && w.msb d) } } := by
  have hzero : s ^^^ d = 0 ↔ s = d := BitVec.xor_eq_zero_iff
  simp only [xorW, logicFlags, Width.msb_xor, ne_eq, hzero]

/-- BIC's row on a destination of width w (R194). -/
theorem bicW_eq {w : Width} {d : Word} (s : Word) (hd : w.trunc d = d) : bicW w d s = { value := ~~~s &&& d, flags := {} } := by
  rw [bicW, Width.trunc_and_of_trunc _ hd]

/-! ## DADD -/

theorem firstWord_dadd (fields : BitVec 12) : (Instr.dadd fields).firstWord = BitVec.ofNat 16 (0xA000 + fields.toNat) := by
  have hw : (Instr.dadd fields).firstWord.toNat = 0xA000 + fields.toNat := dadd_toNat fields
  rw [← hw, BitVec.ofNat_toNat, BitVec.setWidth_eq]

/-! ## The obligations -/

/-- Settles O13: the value is the exact sum less its carry's weight, and V is read off the operands' halves. -/
theorem addWNarrowsTheExactSum : Obligations.AddWNarrowsTheExactSum := by
  intro w d s c hd hs
  have hlt := toNat_addW_value_lt w d s c
  refine ⟨hlt, addW_flags_c w d s c, fun hcarry => ?carry, fun hcarry => ?noCarry, addW_flags_v_eq_msb hd hs c,
    congrArg some (decide_eq_decide.mpr BitVec.toNat_inj.symm), congrArg some (Width.msb_eq_decide hlt)⟩
  case carry => rw [← addW_value_add_carry hd hs hcarry, Bool.toNat_true, one_mul]
  case noCarry => rw [← addW_value_add_carry hd hs hcarry, Bool.toNat_false, zero_mul, add_zero]

/-- Settles O14: both exact results differ by 2^w, and the exact signed results are equal. -/
theorem subWIsAddWOfTheComplement : Obligations.SubWIsAddWOfTheComplement := fun _ d _ c _ hs => subW_not_eq_addW d hs c

/-- Settles O15: each pair of instructions is its two-word chain, whose second word takes the C flag of the first. -/
theorem multiWordChains : Obligations.MultiWordChains := by
  intro s hs
  refine ⟨?sum, ?difference⟩
  case sum =>
    obtain ⟨t, u, ht, hu, hlo, hhi, hsr⟩ := exec_chain (i := .add .word (.reg .r7) (.reg .r5))
      (j := .addc .word (.reg .r6) (.reg .r4)) (alu := fun c d v => addW .word d v c) (c₀ := false) hs
      (fun _ => rfl) (fun _ => rfl) (addW_flags_c _ _ _ _)
    obtain ⟨hvalue, hc, hv⟩ := addW_chain (dh := s.reg .r4) (sh := s.reg .r6) (addW_flags_c .word (s.reg .r5) (s.reg .r7) false)
      (Nat.add_zero _) (Int.add_zero _)
    refine ⟨t, u, ht, hu, ?_, ?_, ?_⟩
    · rw [hlo, hhi, hvalue]
    · rw [flagC_of_sr hsr, hc, Option.getD_some]
    · rw [flagV_of_sr hsr, hv, Option.getD_some]
  case difference =>
    obtain ⟨t, u, ht, hu, hlo, hhi, hsr⟩ := exec_chain (i := .sub .word (.reg .r7) (.reg .r5))
      (j := .subc .word (.reg .r6) (.reg .r4)) (alu := fun c d v => subW .word d v (!c)) (c₀ := true) hs
      (fun _ => rfl) (fun _ => rfl) subW_flags_c
    obtain ⟨hvalue, hc⟩ := subW_chain (dh := s.reg .r4) (dl := s.reg .r5) (sh := s.reg .r6) (sl := s.reg .r7) subW_flags_c
    refine ⟨t, u, ht, hu, ?_, ?_⟩
    · rw [hlo, hhi]; exact hvalue
    · rw [flagC_of_sr hsr, hc, Option.getD_some]

/-- Settles O16: MOV's row is the source value. -/
theorem movWritesTheSourceValue : Obligations.MovWritesTheSourceValue := by
  intro w src dst s sv dv hs h2 h3
  exact double_rules (i := .mov w src dst) (a := { value := sv.val, flags := {} })
    (runDouble_toDest_meets (alu := fun _ v => { value := v, flags := {} }) _ hs) h2 h3 rfl (trunc_src_val h2)

/-- Settles O17, from the exact sum. -/
theorem addWritesTheSum : Obligations.AddWritesTheSum := by
  intro w src dst s sv dv hs h2 h3
  exact double_rules (i := .add w src dst) (runDouble_toDest_meets (alu := fun d v => addW w d v false) _ hs) h2 h3
    (addW_eq rfl (Int.add_zero _)) (w.trunc_ofNat_mod _)

/-- Settles O18, from the exact sum with the carry. -/
theorem addcWritesTheSumWithCarry : Obligations.AddcWritesTheSumWithCarry := by
  intro w src dst s sv dv hs h2 h3
  have hc : s.flagC.toNat = if s.flagC then 1 else 0 := by cases s.flagC <;> rfl
  exact double_rules (i := .addc w src dst) (runDouble_toDest_meets (alu := fun d v => addW w d v s.flagC) _ hs) h2 h3
    (addW_eq (by rw [hc]) (by rw [hc])) (w.trunc_ofNat_mod _)

/-- Settles O19, from the exact difference with the borrow. -/
theorem subcWritesTheDifferenceWithBorrow : Obligations.SubcWritesTheDifferenceWithBorrow := by
  intro w src dst s sv dv hs h2 h3
  have hb : ((!s.flagC).toNat : Int) = if s.flagC then 0 else 1 := by cases s.flagC <;> rfl
  exact double_rules (i := .subc w src dst) (runDouble_toDest_meets (alu := fun d v => subW w d v (!s.flagC)) _ hs) h2 h3
    (subW_eq (by rw [hb]) (by rw [hb])) (w.trunc_ofInt_mod _)

/-- Settles O20, from the exact difference. -/
theorem subWritesTheDifference : Obligations.SubWritesTheDifference := by
  intro w src dst s sv dv hs h2 h3
  exact double_rules (i := .sub w src dst) (runDouble_toDest_meets (alu := fun d v => subW w d v false) _ hs) h2 h3
    (subW_false_eq w dv.val sv.val) (w.trunc_ofInt_mod _)

/-- Settles O21: the flags of the difference, Z as equality. -/
theorem cmpSetsTheFlagsOnly : Obligations.CmpSetsTheFlagsOnly := by
  intro w src dst s sv dv hs h2 h3
  exact flagsOnly_rule (i := .cmp w src dst) (runDouble_flagsOnly_meets (alu := fun d v => subW w d v false) _ hs) h2 h3
    (subW_flags (Width.toNat_lt_of_trunc (trunc_dst_val h3)) (toNat_val_lt h2))

/-- Settles O22, from AND's row. -/
theorem bitSetsTheFlagsOnly : Obligations.BitSetsTheFlagsOnly := by
  intro w src dst s sv dv hs h2 h3
  exact flagsOnly_rule (i := .bit w src dst) (runDouble_flagsOnly_meets _ hs) h2 h3
    (congrArg AluResult.flags (andW_eq w dv.val sv.val))

/-- Settles O23: the byte form's mask is the destination's own width. -/
theorem bicClearsTheSourceBits : Obligations.BicClearsTheSourceBits := by
  intro w src dst s sv dv hs h2 h3
  exact double_rules (i := .bic w src dst) (runDouble_toDest_meets _ hs) h2 h3 (bicW_eq sv.val (trunc_dst_val h3))
    (Width.trunc_and (trunc_dst_val h3))

/-- Settles O24, from BIS's row. -/
theorem bisSetsTheSourceBits : Obligations.BisSetsTheSourceBits := by
  intro w src dst s sv dv hs h2 h3
  exact double_rules (i := .bis w src dst) (a := { value := sv.val ||| dv.val, flags := {} }) (runDouble_toDest_meets _ hs) h2 h3
    rfl (Width.trunc_or (trunc_src_val h2) (trunc_dst_val h3))

/-- Settles O25, from XOR's row. -/
theorem xorWritesTheExclusiveOr : Obligations.XorWritesTheExclusiveOr := by
  intro w src dst s sv dv hs h2 h3
  exact double_rules (i := .xor w src dst) (runDouble_toDest_meets _ hs) h2 h3 (xorW_eq w dv.val sv.val)
    (Width.trunc_xor (trunc_src_val h2) (trunc_dst_val h3))

/-- Settles O26, from AND's row. -/
theorem andWritesTheConjunction : Obligations.AndWritesTheConjunction := by
  intro w src dst s sv dv hs h2 h3
  exact double_rules (i := .and w src dst) (runDouble_toDest_meets _ hs) h2 h3 (andW_eq w dv.val sv.val)
    (Width.trunc_and (trunc_dst_val h3))

/-- Settles O27: DADD's words are those that decode to DADD, and its meaning is the fault. -/
theorem daddIsUnsupported : Obligations.DaddIsUnsupported := by
  refine ⟨fun fields s => ?_, fun s hl heven hlo hhi => ?_⟩
  · rw [← firstWord_dadd]; rfl
  · obtain ⟨fields, hd⟩ := decode_dadd_iff (w1 := s.word (s.reg .pc + 2)) (w2 := s.word (s.reg .pc + 4)) |>.mpr ⟨hlo, hhi⟩
    rw [step_of_decode hl (oddAddr_eq_false_iff.mpr heven) hd, ← (decode_eq_ok_iff.mp hd).firstWord]
    rfl

end Machine

end Sys2Proof
end

section
/-! PROOFS. The family 60_exceptions.md: an operand's fault is the instruction's, a step's fault changes the latch alone, a
stopped machine stays stopped, and execute-N is execute-one again and again. -/

namespace Sys2Proof.Machine

/-! ## Operands that fault -/

/-- Every instruction with two operands runs in the double-operand shape (R176). -/
theorem exec_of_double? {i : Instr} {w : Width} {src : SrcOp} {dst : DstOp} (h : i.double? = some (w, src, dst)) (s : State) :
    ∃ alu, exec i s = runDouble i.firstWord w src dst alu s := by
  cases i <;> cases h <;> exact ⟨_, rfl⟩

/-- Every instruction with one operand runs in the single-operand shape (R140). -/
theorem exec_of_single? {i : Instr} {w : Width} {op : SrcOp} (h : i.single? = some (w, op)) (s : State) :
    ∃ alu, exec i s = runSingle i.firstWord w op alu s := by
  cases i <;> cases h <;> exact ⟨_, rfl⟩

/-! ## The fault of a step -/

/-- The word that the record of a step's fault holds: 0 at an odd PC, where no word is fetched (R200, R207). -/
def recordedWord (s : State) : Word := if (s.reg .pc).toNat % 2 = 1 then 0 else s.word (s.reg .pc)

/-- A running machine's step leaves the latch clear, or takes a fault: stage 0's exactly where PC is odd. -/
theorem step_latch {s t : State} (hl : s.faultLatch = none) (h : step s = .next t) :
    t.faultLatch = none ∨
      ∃ k, (k = .misalignedFetch ↔ (s.reg .pc).toNat % 2 = 1) ∧ t = latched k (recordedWord s) s := by
  cases ho : oddAddr (s.reg .pc) with
  | true =>
    have hodd := oddAddr_eq_true_iff.mp ho
    rw [step_of_odd hl ho] at h
    cases h
    exact .inr ⟨_, iff_of_true rfl hodd, by rw [recordedWord, if_pos hodd]⟩
  | false =>
    have hodd : ¬(s.reg .pc).toNat % 2 = 1 := by rw [oddAddr_eq_false_iff.mp ho]; decide
    rw [recordedWord, if_neg hodd]
    cases hd : decode (s.word (s.reg .pc)) (s.word (s.reg .pc + 2)) (s.word (s.reg .pc + 4)) with
    | error e =>
      rw [step_of_decode_error hl ho hd] at h
      cases h
      exact .inr ⟨.illegalEncoding, iff_of_false nofun hodd, rfl⟩
    | ok i =>
      rw [step_of_decode hl ho hd] at h
      rcases exec_latch h with hkept | ⟨k, hk, rfl⟩
      · exact .inl (hkept.trans hl)
      · exact .inr ⟨k, iff_of_false hk hodd, by rw [(decode_eq_ok_iff.mp hd).firstWord]⟩

/-! ## A stopped machine -/

theorem step_of_stopped {s : State} {record : FaultRecord} (h : s.faultLatch = some record) :
    step s = .fault (.stopped record) := by
  simp only [step, h]

/-- Execute-one "returns without changing any state" (R204). -/
theorem executeOne_of_stopped {s : State} {record : FaultRecord} (h : s.faultLatch = some record) : executeOne s = s := by
  simp only [executeOne, step_of_stopped h]

/-- Stopping at the first fault loses nothing, as every later call returns the stopped state (R214). -/
theorem executeN_eq_iterate (k : Nat) (s : State) : executeN k s = executeOne^[k] s := by
  induction k generalizing s with
  | zero => rfl
  | succ k ih =>
    rw [Function.iterate_succ_apply, executeN]
    cases h : (executeOne s).faultLatch with
    | none => exact ih (executeOne s)
    | some record => exact (Function.iterate_fixed (executeOne_of_stopped h) k).symm

theorem executeN_of_stopped {s : State} {record : FaultRecord} (h : s.faultLatch = some record) (k : Nat) :
    executeN k s = s := by
  rw [executeN_eq_iterate, Function.iterate_fixed (executeOne_of_stopped h)]

theorem HostOp.apply_of_stopped {s : State} {record : FaultRecord} (h : s.faultLatch = some record) (op : HostOp) :
    (op.apply s).faultLatch = some record := by
  cases op with
  | executeOne => exact (congrArg State.faultLatch (executeOne_of_stopped h)).trans h
  | executeN k => exact (congrArg State.faultLatch (executeN_of_stopped h k)).trans h
  | writeSwitch v => exact h
  | writeButton b => exact h

theorem HostOp.applyAll_of_stopped {s : State} {record : FaultRecord} (h : s.faultLatch = some record) (ops : List HostOp) :
    (HostOp.applyAll ops s).faultLatch = some record := by
  induction ops generalizing s with
  | nil => exact h
  | cons op ops ih => exact ih (op.apply_of_stopped h)

/-! ## The obligations -/

/-- Settles O36, by the two shapes that evaluate operands. -/
theorem operandFaultsAreLatched : Obligations.OperandFaultsAreLatched := by
  intro i s k
  refine ⟨fun w src dst hi h2 => ?_, fun w src dst sv hi h2 h3 => ?_, fun w op hi h2 => ?_⟩
  · obtain ⟨alu, he⟩ := exec_of_double? hi s
    exact he.trans (runDouble_src_error h2)
  · obtain ⟨alu, he⟩ := exec_of_double? hi s
    exact he.trans (runDouble_dst_error h2 h3)
  · obtain ⟨alu, he⟩ := exec_of_single? hi s
    exact he.trans (runSingle_src_error h2)

/-- Settles O40: a running machine answers, and its step leaves the latch clear or changes it alone. -/
theorem stepFaultsArePrecise : Obligations.StepFaultsArePrecise := by
  intro s hl
  obtain ⟨t, ht⟩ := step_next hl
  exact ⟨t, ht, step_latch hl ht⟩

/-- Settles O41: a fault changes the latch alone, and nothing but construction clears it. -/
theorem stoppedMachineStaysStopped : Obligations.StoppedMachineStaysStopped := by
  refine ⟨fun s t hl h hstop => ?_, fun s record h => ?_, fun image t h => ?_⟩
  · obtain hrun | ⟨k, _, rfl⟩ := step_latch hl h
    · exact absurd hrun hstop
    · exact ⟨rfl, rfl⟩
  · exact ⟨step_of_stopped h, executeOne_of_stopped h, executeN_of_stopped h, HostOp.applyAll_of_stopped h⟩
  · obtain ⟨_, _, hlatch, _⟩ := construct_spec h
    exact hlatch

/-- Settles O54, by induction on the number of calls. -/
theorem executeNIsNExecuteOnes : Obligations.ExecuteNIsNExecuteOnes := fun s k => executeN_eq_iterate k s

end Sys2Proof.Machine
end

section
/-! PROOFS. The family 70_reset_and_hazards.md: the bootstrap at the start of an image, from construction to `main`. -/

namespace Sys2Proof.Machine

/-! ## A constructed machine's words -/

/-- A word that does not wrap is the image's own, zero bytes standing after it (R225). -/
theorem word_of_construct {image : List Byte} {s : State} (h : construct image = some s) {a : Word} (ha : a.toNat + 1 < 65536) :
    s.word a = wordAt image a.toNat := by
  obtain ⟨_, _, _, hbyte⟩ := construct_spec h
  have hnext : (a + 1).toNat = a.toNat + 1 := (BitVec.toNat_add a 1).trans (Nat.mod_eq_of_lt ha)
  rw [State.word, wordAt, hbyte, hbyte, hnext]

/-! ## Two writes of one register -/

theorem RegFile.write_write_self (f : RegFile) (r : Reg) (u v : Word) : (f.write r u).write r v = f.write r v := by
  cases r <;> rfl

theorem State.setReg_setReg_self (s : State) (r : Reg) (u v : Word) : (s.setReg r u).setReg r v = s.setReg r v :=
  congrArg (fun f => { s with regs := f }) (RegFile.write_write_self s.regs r u v)

/-! ## The two instructions of the bootstrap -/

/-- 0x4031 is `MOV #v,SP`, with v in the word after it (R84). -/
theorem decode_loadSp (v w2 : Word) : decode 0x4031 v w2 = .ok (.mov .word (.immediate v) (.reg .sp)) :=
  decode_doubleWord (op := .mov) (c := 4) rfl .word 3 .pc 0 .sp rfl

/-- The words from 0x3C00 are `JMP`, with the offset in the low ten bits (R84, R169). -/
theorem decode_jmp (k : BitVec 10) (w1 w2 : Word) : decode (BitVec.ofNat 16 (0x3C00 + k.toNat)) w1 w2 = .ok (.jmp k) := by
  have hword : BitVec.ofNat 16 (0x3C00 + k.toNat) = jumpWord 7 k := by
    apply BitVec.eq_of_toNat_eq
    rw [jumpWord_toNat, BitVec.toNat_ofNat, Nat.mod_eq_of_lt (by omega)]
    rfl
  rw [hword]
  exact decode_jumpWord .always k w1 w2

/-- `MOV #v,Rn` loads Rn and goes to the next instruction (R180, R126). -/
theorem exec_mov_immediate_reg {r : Reg} (hr : r ≠ .cg) (v : Word) (s : State) :
    exec (.mov .word (.immediate v) (.reg r)) s = .next ((s.setReg r v).setReg .pc ((s.setReg r v).reg .pc + 4)) := by
  have hflags : applyFlags {} s = s := by rw [applyFlags, apply_none, State.setReg_reg]
  have hwrite : writeReg .word r v s = .ok (s.setReg r v) := if_neg fun h => hr h.1
  change finish _ s ((writeReg .word r v (applyFlags {} s)).bind fun t => .ok (pcUpdate 1 none t)) = _
  rw [hflags, hwrite]
  rfl

/-- A running machine at `MOV #v,SP` loads SP and goes to the next instruction (R227). -/
theorem executeOne_loadSp {s : State} {a v : Word} (hl : s.faultLatch = none) (hpc : s.reg .pc = a) (ho : oddAddr a = false)
    (h0 : s.word a = 0x4031) (h2 : s.word (a + 2) = v) : executeOne s = (s.setReg .sp v).setReg .pc (a + 4) := by
  subst hpc
  refine executeOne_of_next ((step_of_decode hl ho ?_).trans (exec_mov_immediate_reg (by decide) v s))
  rw [h0, h2]
  exact decode_loadSp v _

/-- A running machine at a JMP with a nonzero new value continues at that value + 2, and changes nothing else (R160, R169). -/
theorem executeOne_jmp {s : State} {a new : Word} {k : BitVec 10} (hl : s.faultLatch = none) (hpc : s.reg .pc = a)
    (ho : oddAddr a = false) (h0 : s.word a = BitVec.ofNat 16 (0x3C00 + k.toNat))
    (hnew : a + BitVec.ofInt 16 (2 * k.toInt) = new) (hne : new ≠ 0) : executeOne s = s.setReg .pc (new + 2) := by
  subst hpc
  have hv : jumpValue k s = new := (jumpValue_eq_ofInt k s).trans hnew
  subst hv
  refine executeOne_of_next ((step_of_decode hl ho ?_).trans (Toolchain.exec_jump_taken (cond := .always) rfl hne))
  rw [h0]
  exact decode_jmp k _ _

/-- Two calls at the bootstrap run its MOV, which leaves the JMP's word as it was, and its JMP (R227). -/
theorem executeN_bootstrap {s : State} {v new : Word} {k : BitVec 10} (hl : s.faultLatch = none) (hpc : s.reg .pc = 0)
    (h0 : s.word 0 = 0x4031) (h2 : s.word 2 = v) (h4 : s.word 4 = BitVec.ofNat 16 (0x3C00 + k.toNat))
    (hnew : 4 + BitVec.ofInt 16 (2 * k.toInt) = new) (hne : new ≠ 0) :
    executeN 2 s = (s.setReg .sp v).setReg .pc (new + 2) := by
  have hfirst : executeOne s = (s.setReg .sp v).setReg .pc 4 := executeOne_loadSp hl hpc rfl h0 h2
  have hsecond := executeOne_jmp (s := (s.setReg .sp v).setReg .pc 4) hl (State.reg_setReg_self _ _ _) rfl h4 hnew hne
  calc
    executeN 2 s = executeOne (executeOne s) := executeN_eq_iterate 2 s
    _ = ((s.setReg .sp v).setReg .pc 4).setReg .pc (new + 2) := by rw [hfirst, hsecond]
    _ = (s.setReg .sp v).setReg .pc (new + 2) := State.setReg_setReg_self _ _ _ _

/-! ## The obligation -/

/-- Settles O59: construction puts PC at the bootstrap and its three words in memory. -/
theorem bootstrapRunsToMain : Obligations.BootstrapRunsToMain := by
  intro image bootSp k s hs _ hw0 hw2 hw4 hne
  obtain ⟨_, hreg, hlatch, _⟩ := construct_spec hs
  have hrun := executeN_bootstrap hlatch (hreg .pc) ((word_of_construct hs (by decide)).trans hw0)
    ((word_of_construct hs (by decide)).trans hw2) ((word_of_construct hs (by decide)).trans hw4) rfl hne
  rw [hrun]
  refine ⟨hlatch, rfl, ?_, fun r hsp hpc => ?_, fun _ => rfl⟩
  · rw [State.reg_setReg_self, add_right_comm]
    rfl
  · rw [State.reg_setReg_of_ne _ _ hpc, State.reg_setReg_of_ne _ _ hsp, hreg]

end Sys2Proof.Machine
end
